-- ==== Sys2Proof/Word.lean ====
section
/-! DEFINITION. The words of the machine: bus words, bytes, command words (spec 00_scope.md R11). Every word is unsigned. -/

namespace Sys2Proof

/-- A 32-bit word of the register bus or of the waveform buffer (00_scope.md R11, 20_memory.md R76). -/
abbrev Word := BitVec 32

/-- An 8-bit colour channel or status code. -/
abbrev Byte := BitVec 8

/-- A 64-bit command word CMD[63:0] (30_encoding.md R90). -/
abbrev CmdWord := BitVec 64

/-- A finite bit stream, element 0 first; `true` is 1 and a high level (00_scope.md R12). -/
abbrev BitStream := List Bool

end Sys2Proof
end

