-- ==== Sys2Proof/Config.lean ====
section
/-! DEFINITION. What an implementation fixes (00_scope.md R10, 10_state.md R40) and the free values.
The OPEN parameters and the draws are opaque: nothing can be proved about their values (log entries 2, 4, 5, 6). -/

namespace Sys2Proof

/-- Position of stream bit k inside its word, and with it the serializer's shift order (30_encoding.md R105, R107; D9). -/
inductive PackOrder where
  | lsbFirst
  | msbFirst
  deriving DecidableEq, Repr

/-- What one bit period, or one stop, leaves on the output pin (60_exceptions.md R278). -/
inductive WireEvent where
  /-- One bit period at a level: `true` high, `false` low (00_scope.md R12). -/
  | bit (level : Bool)
  /-- Emission stops and the line is held low until the next event (R278(e), 44_show.md R238). -/
  | low
  deriving DecidableEq, Repr

/-- Every register offset inside the windows and every bit position inside the registers of 10_state.md R41 to R49, which the
model takes as configuration (R40, D11). A field of several bits is named by the position of its lowest bit. -/
structure Layout where
  /-- GPIO-window offset of GPFSEL0, and how far each next GPFSELn stands from the one before (R41). -/
  gpfselOff : Nat
  gpfselStride : Nat
  /-- Positions of the ten 3-bit fields of a GPFSEL register (R41). -/
  fselPos : Vector (Fin 30) 10
  /-- PWM-window offsets (R42 to R46); DAT1 is never accessed (R46). -/
  ctlOff : Nat
  staOff : Nat
  dmacOff : Nat
  rng1Off : Nat
  fif1Off : Nat
  dat1Off : Nat
  /-- Clock-window offsets (R47, R48). -/
  cmCtlOff : Nat
  cmDivOff : Nat
  /-- Bit positions of PWM CTL (R42). -/
  pwen1 : Fin 32
  mode1 : Fin 32
  rptl1 : Fin 32
  sbit1 : Fin 32
  pola1 : Fin 32
  usef1 : Fin 32
  clrf1 : Fin 32
  msen1 : Fin 32
  /-- The eight channel-2 bits of PWM CTL (R42). -/
  channel2 : Fin 25
  /-- Bit positions of PWM STA (R44); `gapo` and `staCh` list channels 1 to 4. -/
  full1 : Fin 32
  empt1 : Fin 32
  werr1 : Fin 32
  rerr1 : Fin 32
  gapo : Vector (Fin 32) 4
  berr : Fin 32
  staCh : Vector (Fin 32) 4
  /-- Bit positions of PWM DMAC (R45): the enable bit, two fields of eight bits. -/
  dmacEnab : Fin 32
  panic : Fin 25
  dreq : Fin 25
  /-- Bit positions of CM_PWMCTL below the password (R47): MASH has two bits, SRC four. -/
  mash : Fin 23
  flip : Fin 24
  busy : Fin 24
  kill : Fin 24
  enab : Fin 24
  src : Fin 21
  /-- Positions of the two 12-bit fields of CM_PWMDIV below the password (R48). -/
  divi : Fin 13
  divf : Fin 13
  deriving DecidableEq, Repr

/-- The parameter set of the engine (00_scope.md R10). Times are in nanoseconds. -/
structure Config where
  /-- NUM_LEDS (R8). -/
  numLeds : Nat
  /-- WAVE_WORDS (R9). -/
  waveWords : Nat
  /-- BITS_PER_LED (R9). -/
  bitsPerLed : Nat
  /-- INDEX_WIDTH, the width of the SET_PIXEL index field (30_encoding.md R92, D7). -/
  indexWidth : Nat
  periBase : Nat
  gpioOff : Nat
  pwmOff : Nat
  clkOff : Nat
  dmaOff : Nat
  /-- WINDOW_BYTES (20_memory.md R71). -/
  windowBytes : Nat
  /-- PIN, the output pin number. -/
  pin : Nat
  /-- ALT, the alternate-function code. -/
  alt : Nat
  cmPasswd : BitVec 8
  clkSrc : BitVec 4
  /-- F_BASE and F_BIT in hertz. -/
  fBase : Nat
  fBit : Nat
  divFracScale : Nat
  rangeBits : Word
  staClear : Word
  tSettle : Nat
  tClkStop : Nat
  tFifo : Nat
  fifoDepth : Nat
  packOrder : PackOrder
  layout : Layout
  deriving DecidableEq, Repr

/-- WAVE_BITS = 32 × WAVE_WORDS (R9). -/
def Config.waveBits (c : Config) : Nat := 32 * c.waveWords

/-- NMAX = floor(WAVE_BITS / BITS_PER_LED) (R9). -/
def Config.nMax (c : Config) : Nat := c.waveBits / c.bitsPerLed

/-- The BCM2835/BCM2836 register layout of 10_state.md R42 to R48. PRESUMED: the spec's reference profile, from general
knowledge (log entry 3). -/
def Layout.reference : Layout where
  gpfselOff := 0x00
  gpfselStride := 4
  fselPos := #v[0, 3, 6, 9, 12, 15, 18, 21, 24, 27]
  ctlOff := 0x00
  staOff := 0x04
  dmacOff := 0x08
  rng1Off := 0x10
  fif1Off := 0x18
  dat1Off := 0x14
  cmCtlOff := 0xA0
  cmDivOff := 0xA4
  pwen1 := 0
  mode1 := 1
  rptl1 := 2
  sbit1 := 3
  pola1 := 4
  usef1 := 5
  clrf1 := 6
  msen1 := 7
  channel2 := 8
  full1 := 0
  empt1 := 1
  werr1 := 2
  rerr1 := 3
  gapo := #v[4, 5, 6, 7]
  berr := 8
  staCh := #v[9, 10, 11, 12]
  dmacEnab := 31
  panic := 8
  dreq := 0
  mash := 9
  flip := 8
  busy := 7
  kill := 5
  enab := 4
  src := 0
  divi := 12
  divf := 0

/-- The reference profile of R10 with the four OPEN parameters as arguments. PRESUMED where R10 says general knowledge
(log entry 3). -/
def Config.referenceProfile (numLeds tSettle tClkStop fifoDepth : Nat) : Config where
  numLeds := numLeds
  waveWords := 16
  bitsPerLed := 72
  indexWidth := 16
  periBase := 0x3F000000
  gpioOff := 0x00200000
  pwmOff := 0x0020C000
  clkOff := 0x00101000
  dmaOff := 0x00007000
  windowBytes := 4096
  pin := 18
  alt := 5
  cmPasswd := 0x5A#8
  clkSrc := 1#4
  fBase := 19200000
  fBit := 2400000
  divFracScale := 1024
  rangeBits := 32#32
  staClear := 0x000001FC#32
  tSettle := tSettle
  tClkStop := tClkStop
  tFifo := 1000000
  fifoDepth := fifoDepth
  packOrder := .lsbFirst
  layout := Layout.reference

/-- OPEN: NUM_LEDS of the built instance, in its legal range 0..7 (R8, R9; log entry 2). -/
opaque Config.openNumLeds : Fin 8
/-- OPEN: T_SETTLE - 1 (D20; log entry 2). -/
opaque Config.openSettle : Nat
/-- OPEN: T_CLK_STOP - T_SETTLE (D20; log entry 2). -/
opaque Config.openClkStopExtra : Nat
/-- OPEN: FIFO_DEPTH - WAVE_WORDS (D27; log entry 2). -/
opaque Config.openFifoExtra : Nat

/-- The configuration of the built instance: the reference profile, each OPEN parameter any value of its legal range
(70_reset_and_hazards.md R295; log entry 2). -/
def Config.built : Config :=
  Config.referenceProfile Config.openNumLeds.val (Config.openSettle + 1)
    (Config.openSettle + 1 + Config.openClkStopExtra) (16 + Config.openFifoExtra)

/-- The environment's draw MAP_OK (40_register_access.md R122; log entry 5). -/
opaque Config.mapOk : Bool
/-- Whether the built platform behaves as the reference (41_init_hw.md R162, D39; log entry 6). -/
opaque Config.reference : Bool
/-- The peripheral registers before INIT_HW, a draw (10_state.md R54; log entry 4). -/
opaque Config.resetWord : Nat → Word
/-- The FIFO before INIT_HW, a draw (R54; log entry 4). -/
opaque Config.resetFifo : List Word
/-- The serializer's half-shifted word before INIT_HW, a draw (R54; log entry 4). -/
opaque Config.resetShift : BitStream
/-- What a bus read returns that no rule decides (R123; log entry 6). -/
opaque Config.freeRead : Nat → Word
/-- What the wire carries where the spec says any value (44_show.md R240, 70_reset_and_hazards.md R301; log entries 10, 11). -/
opaque Config.freeWire : Nat → List WireEvent
/-- How many FIFO words leave while the wire carries any value (R240, R301; log entries 10, 11). -/
opaque Config.freePops : Nat → Nat
/-- PWM STA after emission, any value (93_implementation_defined.md U17; log entry 14). -/
opaque Config.freeSta : Nat → Word

end Sys2Proof
end

