-- ==== Sys2Proof/Machine/State.lean ====
section
/-! DEFINITION. The machine's state as plain data (10_state.md R30 to R54) and its value after reset (R53). -/

namespace Sys2Proof.Machine

/-- A colour: three unsigned 8-bit channels (10_state.md R33). -/
structure Color where
  r : Byte
  g : Byte
  b : Byte
  deriving DecidableEq, Repr

/-- Black is (0, 0, 0) (R33). -/
def Color.black : Color := { r := 0#8, g := 0#8, b := 0#8 }

/-- The steps INIT(1) to INIT(10) of INIT_HW, in order (R34, 41_init_hw.md R151 to R160). -/
inductive InitStep where
  /-- 1: establish the windows (R151). -/
  | establish
  /-- 2: the output pin's function (R152). -/
  | pinFunction
  /-- 3: stop the clock (R153). -/
  | clockKill
  /-- 4: disable the DMA feed (R154). -/
  | dmaOff
  /-- 5: the clock divisor (R155). -/
  | divisor
  /-- 6: enable the clock (R156). -/
  | clockRun
  /-- 7: clear the control register (R157). -/
  | ctlZero
  /-- 8: the range (R158). -/
  | range
  /-- 9: clear the error flags (R159). -/
  | staClear
  /-- 10: the control word (R160). -/
  | ctlConfig
  deriving DecidableEq, Repr

/-- The steps SHOW(1) to SHOW(6) of SHOW, in order (R34, 44_show.md R231 to R236). -/
inductive ShowStep where
  /-- 1: re-assert the control word (R231). -/
  | reassert
  /-- 2: WaveClear (R232). -/
  | waveClear
  /-- 3: WaveEncode (R232). -/
  | waveEncode
  /-- 4: stop the serializer, clear its FIFO (R233, R234). -/
  | stopAndFlush
  /-- 5: push every word (R235). -/
  | push
  /-- 6: re-enable the serializer (R236). -/
  | enable
  deriving DecidableEq, Repr

/-- The sequencer position (R34). -/
inductive Seq where
  | idle
  | initHw (k : InitStep)
  | showFrame (k : ShowStep)
  | fatal
  deriving DecidableEq, Repr

/-- The names of the response codes (30_encoding.md R96). -/
inductive Status where
  | ok
  | indexOutOfRange
  | illegalCommand
  | fatalEnv
  deriving DecidableEq, Repr

/-- An entry of the bus trace (R38). -/
inductive BusEvent where
  | rd (addr data : Word)
  | wr (addr data : Word)
  | dly (t : Nat)
  deriving DecidableEq, Repr

/-- The kinds of diagnostic event (60_exceptions.md R266). -/
inductive DiagKind where
  | indexOutOfRange
  | illegalCommand
  deriving DecidableEq, Repr

/-- A diagnostic event: a kind and a 16-bit value (R266). -/
structure DiagEvent where
  kind : DiagKind
  value : BitVec 16
  deriving DecidableEq, Repr

/-- The fault reasons of 60_exceptions.md R267. They are RECORDED in `State.faults` and the command runs on, as R267 says.
No step of this machine has the outcome `Host.Outcome.fault`: FATAL, which R262 also calls a fault state, is recorded as
`Seq.fatal` (log entry 8). -/
inductive Fault where
  /-- Recorded by INIT_HW and SHOW when they start while a frame is pending (R301). Safe: runs with it are excluded from
  every wire claim. -/
  | frameOverlap
  /-- Recorded by WaveSetBit beyond the buffer (R128). Safe: no elaborated instance reaches it (R295). -/
  | waveOverrun
  deriving DecidableEq, Repr

/-- Why an instruction has no meaning. -/
inductive Refusal where
  /-- Raised by a refused arm of `exec` only; safe: nothing is claimed of such an instruction. No arm raises it now. -/
  | notModelled (mnemonic : String)
  deriving DecidableEq, Repr

/-- The set `fault` of recorded fault reasons (10_state.md R51), one membership bit per reason. -/
structure FaultRecord where
  frameOverlap : Bool
  waveOverrun : Bool
  deriving DecidableEq, Repr

/-- The target peripheral registers (R40 to R48). FIF1 has no storage of its own: it pushes into `Serializer.fifo`. -/
structure Peripherals where
  /-- GPFSEL0 to GPFSEL5 (R41). -/
  gpfsel : Vector Word 6
  /-- PWM CTL (R42). -/
  ctl : Word
  /-- PWM STA (R44), but for FULL1 and EMPT1, which `State.staWord` computes from the FIFO. -/
  sta : Word
  /-- PWM DMAC (R45). -/
  dmac : Word
  /-- PWM RNG1 (R46). -/
  rng1 : Word
  /-- CM_PWMCTL (R47). -/
  cmCtl : Word
  /-- CM_PWMDIV (R48). -/
  cmDiv : Word
  deriving DecidableEq, Repr

/-- The hidden state of the PWM peripheral that the wire shows (R50), the mark `frame_pending` (R50), and the wire stream
itself (observation (e) of 00_scope.md R19). -/
structure Serializer where
  /-- The FIFO, oldest word first. -/
  fifo : List Word
  /-- The bits of the word being shifted that are not yet on the wire, next bit first. -/
  shift : BitStream
  /-- frame_pending. -/
  framePending : Bool
  /-- The wire stream, oldest event first. -/
  wire : List WireEvent
  deriving DecidableEq, Repr

/-- The host's moves on the command port (00_scope.md R5(1); log entry 7). -/
inductive HostMove where
  /-- Put this command word on the port and hold it there until it is accepted (30_encoding.md R90). -/
  | offer (word : CmdWord)
  /-- Offer nothing for one bit period. -/
  | wait
  deriving DecidableEq, Repr

/-- The whole state: the engine's own (R30), the target peripherals (R40, R50), and the model's own fields. -/
structure State where
  /-- MODEL's own: the configuration of 00_scope.md R10; no step changes it (R30; log entry 2). -/
  cfg : Config
  /-- The LED buffer, index 0 first (R31). -/
  led : List Color
  /-- The waveform buffer, word 0 first (R32). -/
  wave : List Word
  /-- The sequencer position (R34). -/
  seq : Seq
  /-- The mapping flag (R35). -/
  mapped : Bool
  /-- The initialised flag (R36). -/
  initDone : Bool
  /-- resp_status (R37). -/
  respStatus : Byte
  /-- resp_ok (R37). -/
  respOk : Bool
  /-- The bus trace, oldest entry first (R38). -/
  trace : List BusEvent
  /-- The diagnostic log, oldest event first (R39). -/
  diag : List DiagEvent
  /-- The fault record (R51). -/
  faults : FaultRecord
  /-- The target peripheral registers (R40). -/
  per : Peripherals
  /-- The serializer, `frame_pending` and the wire (R50). -/
  ser : Serializer
  /-- MODEL's own: the named premise that the peripherals behave as 60_exceptions.md R278 says (log entry 6). -/
  reference : Bool
  /-- MODEL's own: the environment's draw MAP_OK (40_register_access.md R122; log entry 5). -/
  mapOk : Bool
  /-- MODEL's own: how many free values have been drawn. -/
  draws : Nat
  /-- MODEL's own: the host's coming moves, next first (log entry 7). -/
  host : List HostMove
  deriving DecidableEq, Repr

/-- Construction of an instance (70_reset_and_hazards.md R290): every engine field at its value in 10_state.md R53, the
platform as it is found (R54, R292). -/
def State.construct (c : Config) (per : Peripherals) (fifo : List Word) (shift : BitStream) (reference mapOk : Bool) :
    State where
  cfg := c
  led := List.replicate c.numLeds Color.black
  wave := List.replicate c.waveWords 0#32
  seq := .idle
  mapped := false
  initDone := false
  respStatus := 0x00#8
  respOk := false
  trace := []
  diag := []
  faults := { frameOverlap := false, waveOverrun := false }
  per := per
  ser := { fifo := fifo.take c.fifoDepth, shift := shift, framePending := false, wire := [] }
  reference := reference
  mapOk := mapOk
  draws := 0
  host := []

/-- The peripheral registers as the platform left them: free values (R54; log entry 4). -/
def Peripherals.atReset : Peripherals where
  gpfsel := #v[Config.resetWord 0, Config.resetWord 1, Config.resetWord 2, Config.resetWord 3, Config.resetWord 4,
    Config.resetWord 5]
  ctl := Config.resetWord 6
  sta := Config.resetWord 7
  dmac := Config.resetWord 8
  rng1 := Config.resetWord 9
  cmCtl := Config.resetWord 10
  cmDiv := Config.resetWord 11

/-- The machine right after reset: the built instance, just constructed (R53, R54, R290). -/
def State.reset : State :=
  State.construct Config.built Peripherals.atReset Config.resetFifo Config.resetShift Config.reference Config.mapOk

end Sys2Proof.Machine
end

