-- ==== Sys2Proof/Machine/Flags.lean ====
section
/-! DEFINITION. Status state: the response register, the diagnostic log, the fault record (10_state.md R37, R39, R51).
The engine has no arithmetic flags or condition codes (R51), so there is no flag computation. -/

namespace Sys2Proof.Machine

/-- The response code of each status (30_encoding.md R96). -/
def Status.code : Status → Byte
  | .ok => 0x00#8
  | .indexOutOfRange => 0x01#8
  | .illegalCommand => 0x02#8
  | .fatalEnv => 0x03#8

/-- resp_ok of each status: 1 exactly for OK (R96). -/
def Status.success : Status → Bool
  | .ok => true
  | .indexOutOfRange => false
  | .illegalCommand => false
  | .fatalEnv => false

/-- cmd_ready = 1 exactly when seq = IDLE (10_state.md R37). -/
def State.cmdReady (s : State) : Bool := s.seq == .idle

/-- What the host reads from the command port: resp_status, resp_ok, cmd_ready (R52). -/
structure PortView where
  respStatus : Byte
  respOk : Bool
  cmdReady : Bool
  deriving DecidableEq, Repr

/-- The engine's only read path for the host (R52). -/
def State.portView (s : State) : PortView :=
  { respStatus := s.respStatus, respOk := s.respOk, cmdReady := s.cmdReady }

/-- Move the sequencer: `seq <- q` (00_scope.md R15). -/
def State.goto (q : Seq) (s : State) : State := { s with seq := q }

/-- `Respond(status, ok)` (00_scope.md R15, 10_state.md R37). -/
def State.respond (st : Status) (s : State) : State := { s with respStatus := st.code, respOk := st.success }

/-- `Respond(status, ok); seq <- IDLE`, the end of a command. -/
def State.complete (st : Status) (s : State) : State := (s.respond st).goto .idle

/-- `Diag(kind, value)` (60_exceptions.md R266). -/
def State.emitDiag (k : DiagKind) (v : BitVec 16) (s : State) : State :=
  { s with diag := s.diag ++ [{ kind := k, value := v }] }

/-- The empty fault record (10_state.md R51). -/
def FaultRecord.none : FaultRecord := { frameOverlap := false, waveOverrun := false }

/-- `fault ∪ {f}`. -/
def FaultRecord.add (f : Fault) (r : FaultRecord) : FaultRecord :=
  match f with
  | .frameOverlap => { r with frameOverlap := true }
  | .waveOverrun => { r with waveOverrun := true }

/-- `f ∈ fault`. -/
def FaultRecord.has (f : Fault) (r : FaultRecord) : Bool :=
  match f with
  | .frameOverlap => r.frameOverlap
  | .waveOverrun => r.waveOverrun

/-- Record a fault reason; nothing removes one (60_exceptions.md R267). -/
def State.recordFault (f : Fault) (s : State) : State := { s with faults := s.faults.add f }

/-- INIT_HW and SHOW start with: if frame_pending = 1, record FRAME_OVERLAP (70_reset_and_hazards.md R301). -/
def State.recordOverlap (s : State) : State :=
  if s.ser.framePending then s.recordFault .frameOverlap else s

end Sys2Proof.Machine
end

