-- ==== Sys2Proof/Machine/Operands.lean ====
section
/-! DEFINITION. The pure operand computations: bit helpers, waveform layout, GPIO function select, clock words, control
words and addresses (40_register_access.md R125 to R135, 30_encoding.md R105 to R107, 10_state.md R41 to R49). -/

namespace Sys2Proof.Machine

/-! Bit helpers (R125 to R127). A bit number is a `Fin 32`: n ≥ 32 is refused by its type (log entry 26). -/

/-- The word with only bit n set. -/
def bitMask (n : Fin 32) : Word := 1#32 <<< n.val

/-- BitSet(v, n) = v | (1 << n) (R125). -/
def bitSet (v : Word) (n : Fin 32) : Word := v ||| bitMask n

/-- BitClear(v, n) = v & ~(1 << n) (R126). -/
def bitClear (v : Word) (n : Fin 32) : Word := v &&& ~~~ bitMask n

/-- BitGet(v, n) = (v >> n) & 1 (R127). -/
def bitGet (v : Word) (n : Fin 32) : Bool := v.getLsbD n.val

/-! The waveform layout (30_encoding.md R105) and the wire order (R106, R107). -/

/-- wordIndex(k) = k div 32 (R105). -/
def wordIndex (k : Nat) : Nat := k / 32

/-- bitPos(k): k mod 32 for LSB_FIRST, 31 - (k mod 32) for MSB_FIRST (R105). -/
def bitPos (o : PackOrder) (k : Nat) : Fin 32 :=
  match o with
  | .lsbFirst => Fin.ofNat 32 k
  | .msbFirst => Fin.rev (Fin.ofNat 32 k)

/-- rev32(v)[j] = v[31-j] (43_encoder.md R209). -/
def rev32 (v : Word) : Word := v.reverse

/-- The bits of a FIFO word in the order the serializer shifts them: bit 31 first for LSB_FIRST, bit 0 first for MSB_FIRST
(30_encoding.md R107). -/
def shiftOrder (o : PackOrder) (v : Word) : BitStream :=
  match o with
  | .lsbFirst => (List.range 32).map fun t => v.getLsbD (31 - t)
  | .msbFirst => (List.range 32).map fun t => v.getLsbD t

/-! GPIO function select (R130 to R132). -/

/-- AltFsel(a): codes 0 to 3 give 4 to 7, code 4 gives 3, every larger code gives 2 (R131). -/
def altFsel (a : Nat) : BitVec 3 :=
  if a ≤ 3 then BitVec.ofNat 3 (a + 4) else if a = 4 then 0b011#3 else 0b010#3

/-- What a pin can be configured to (R132). -/
inductive PinFunction where
  | input
  | output
  | alternate (code : Nat)
  deriving DecidableEq, Repr

/-- The 3-bit field value of a pin function (R131, R132). -/
def PinFunction.code : PinFunction → BitVec 3
  | .input => 0b000#3
  | .output => 0b001#3
  | .alternate a => altFsel a

/-- fselShift(p): the position of pin p's field inside its register, 3 × (p mod 10) in the reference layout (R130, 10_state.md
R40, R41). -/
def fselShift (c : Config) (p : Nat) : Nat := c.layout.fselPos[p % 10].val

/-- A function-select word with the 3-bit field at `sh` replaced by `f` and the other 29 bits kept (R133). -/
def insertField (v : Word) (sh : Nat) (f : BitVec 3) : Word :=
  (v &&& ~~~ (0b111#32 <<< sh)) ||| (f.zeroExtend 32 <<< sh)

/-! Addresses (20_memory.md R71, R72; 10_state.md R41 to R48). -/

/-- The four windows (R71, 40_register_access.md R121). -/
inductive Window where
  | gpio
  | pwm
  | clk
  | dma
  deriving DecidableEq, Repr

/-- The base address of a window (R71). -/
def windowBase (c : Config) : Window → Nat
  | .gpio => c.periBase + c.gpioOff
  | .pwm => c.periBase + c.pwmOff
  | .clk => c.periBase + c.clkOff
  | .dma => c.periBase + c.dmaOff

/-- The target registers of the bus (10_state.md R40 to R48). -/
inductive Reg where
  | gpfsel (n : Fin 6)
  | pwmCtl
  | pwmSta
  | pwmDmac
  | pwmRng1
  | pwmFif1
  | cmPwmctl
  | cmPwmdiv
  deriving DecidableEq, Repr

/-- Every target register. -/
def Reg.all : List Reg :=
  [.gpfsel 0, .gpfsel 1, .gpfsel 2, .gpfsel 3, .gpfsel 4, .gpfsel 5,
   .pwmCtl, .pwmSta, .pwmDmac, .pwmRng1, .pwmFif1, .cmPwmctl, .cmPwmdiv]

/-- The window a register stands in. -/
def Reg.window : Reg → Window
  | .gpfsel _ => .gpio
  | .pwmCtl => .pwm
  | .pwmSta => .pwm
  | .pwmDmac => .pwm
  | .pwmRng1 => .pwm
  | .pwmFif1 => .pwm
  | .cmPwmctl => .clk
  | .cmPwmdiv => .clk

/-- The byte offset of a register inside its window (R41 to R48). -/
def regOffset (c : Config) : Reg → Nat
  | .gpfsel n => c.layout.gpfselOff + c.layout.gpfselStride * n.val
  | .pwmCtl => c.layout.ctlOff
  | .pwmSta => c.layout.staOff
  | .pwmDmac => c.layout.dmacOff
  | .pwmRng1 => c.layout.rng1Off
  | .pwmFif1 => c.layout.fif1Off
  | .cmPwmctl => c.layout.cmCtlOff
  | .cmPwmdiv => c.layout.cmDivOff

/-- The byte address `base(X) + o` of a register (R72). -/
def regAddr (c : Config) (r : Reg) : Word := BitVec.ofNat 32 (windowBase c r.window + regOffset c r)

/-- fselAddr(p): the address of GPFSEL(p div 10), PERI_BASE + GPIO_OFF + 4 × (p div 10) in the reference layout (R130,
10_state.md R40, R41). -/
def fselAddr (c : Config) (p : Nat) : Word :=
  BitVec.ofNat 32 (windowBase c .gpio + (c.layout.gpfselOff + c.layout.gpfselStride * (p / 10)))

/-- The register at an address, if one of R41 to R48 is there; the rest of the space is left to the platform (R85; log
entry 17). -/
def decodeAddr (c : Config) (a : Word) : Option Reg := Reg.all.find? fun r => regAddr c r == a

/-! Clock-manager words (R134, R135). -/

/-- CmWord(x) = (CM_PASSWD << 24) | x[23:0] (R134). -/
def cmWord (c : Config) (x : BitVec 24) : Word := c.cmPasswd ++ x

/-- DIVI = floor(F_BASE / F_BIT) (R135). -/
def divI (c : Config) : Nat := c.fBase / c.fBit

/-- DIVF = floor((F_BASE / F_BIT - DIVI) × DIV_FRAC_SCALE) (R135). -/
def divF (c : Config) : Nat := (c.fBase % c.fBit) * c.divFracScale / c.fBit

/-- CM_DIV = CmWord of DIVI[11:0] and DIVF[11:0] in their fields, 23:12 and 11:0 in the reference layout (R135, 10_state.md
R48). -/
def cmDivWord (c : Config) : Word :=
  cmWord c ((BitVec.ofNat 12 (divI c)).zeroExtend 24 <<< c.layout.divi.val |||
    (BitVec.ofNat 12 (divF c)).zeroExtend 24 <<< c.layout.divf.val)

/-- CM_KILL = CmWord(KILL) (41_init_hw.md R153). -/
def cmKillWord (c : Config) : Word := cmWord c (1#24 <<< c.layout.kill.val)

/-- CM_RUN = CmWord(ENAB | CLK_SRC), CLK_SRC in the SRC field (R156, 10_state.md R47). -/
def cmRunWord (c : Config) : Word :=
  cmWord c (1#24 <<< c.layout.enab.val ||| c.clkSrc.zeroExtend 24 <<< c.layout.src.val)

/-- ENAB = 1 and KILL = 0: the clock generator runs (10_state.md R47, 20_memory.md R77; log entry 15). -/
def clockRuns (c : Config) (v : Word) : Bool := v.getLsbD c.layout.enab.val && !v.getLsbD c.layout.kill.val

/-! PWM control words (10_state.md R43). -/

/-- CTL_ZERO (R43). -/
def ctlZero : Word := 0x00000000#32

/-- CTL_CFG = MODE1 | USEF1 (R43). -/
def ctlCfg (c : Config) : Word := bitMask c.layout.mode1 ||| bitMask c.layout.usef1

/-- CTL_CLRF = CTL_CFG | CLRF1 (R43). -/
def ctlClrf (c : Config) : Word := ctlCfg c ||| bitMask c.layout.clrf1

/-- CTL_RUN = CTL_CFG | PWEN1 (R43). -/
def ctlRun (c : Config) : Word := ctlCfg c ||| bitMask c.layout.pwen1

/-- DMAC_OFF (10_state.md R49, 41_init_hw.md R154). -/
def dmacOff : Word := 0x00000000#32

/-- The bit of CM_PWMCTL that holds BUSY (10_state.md R47). -/
def busyMask (c : Config) : Word := 1#32 <<< c.layout.busy.val

/-- The write-1-to-clear error flags of STA: WERR1, RERR1, GAPO1 to GAPO4, BERR (10_state.md R44). -/
def staErrorMask (c : Config) : Word :=
  bitMask c.layout.werr1 ||| bitMask c.layout.rerr1 ||| bitMask c.layout.gapo[0] ||| bitMask c.layout.gapo[1] |||
    bitMask c.layout.gapo[2] ||| bitMask c.layout.gapo[3] ||| bitMask c.layout.berr

/-- A word with bit n set or cleared. -/
def bitPut (v : Word) (n : Fin 32) (b : Bool) : Word := if b then bitSet v n else bitClear v n

/-! The layout as the bits its fields take. -/

/-- The bits of a field: `width` of them from `pos` up. -/
def fieldBits (pos width : Nat) : List Nat := List.range' pos width

/-- The fields of a GPFSEL register (R41). -/
def fselBits (l : Layout) : List Nat := l.fselPos.toList.flatMap fun p => fieldBits p.val 3

/-- The fields of CTL (R42). -/
def ctlBits (l : Layout) : List Nat :=
  [l.pwen1, l.mode1, l.rptl1, l.sbit1, l.pola1, l.usef1, l.clrf1, l.msen1].map (·.val) ++ fieldBits l.channel2.val 8

/-- The fields of STA (R44). -/
def staBits (l : Layout) : List Nat :=
  ([l.full1, l.empt1, l.werr1, l.rerr1] ++ l.gapo.toList ++ [l.berr] ++ l.staCh.toList).map (·.val)

/-- The fields of DMAC (R45). -/
def dmacBits (l : Layout) : List Nat := [l.dmacEnab.val] ++ fieldBits l.panic.val 8 ++ fieldBits l.dreq.val 8

/-- The fields of CM_PWMCTL below the password (R47). -/
def cmCtlBits (l : Layout) : List Nat :=
  [l.kill.val, l.enab.val, l.busy.val, l.flip.val] ++ fieldBits l.src.val 4 ++ fieldBits l.mash.val 2

/-- The fields of CM_PWMDIV below the password (R48). -/
def cmDivBits (l : Layout) : List Nat := fieldBits l.divi.val 12 ++ fieldBits l.divf.val 12

/-- No two fields of a register share a bit. -/
def fieldsApart (l : Layout) : Bool :=
  decide (fselBits l).Nodup && decide (ctlBits l).Nodup && decide (staBits l).Nodup && decide (dmacBits l).Nodup &&
    decide (cmCtlBits l).Nodup && decide (cmDivBits l).Nodup

/-- The addresses of the registers of R41 to R48, DAT1 among them. -/
def registerAddrs (c : Config) : List Word :=
  Reg.all.map (regAddr c) ++ [BitVec.ofNat 32 (windowBase c .pwm + c.layout.dat1Off)]

/-- The register map of a platform that can be the reference: no two registers share an address and no two fields of a register
share a bit. A premise of the wire claims, no elaboration check (log entry 17). -/
def soundMap (c : Config) : Bool := decide (registerAddrs c).Nodup && fieldsApart c.layout

end Sys2Proof.Machine
end

