-- ==== Sys2Proof/Machine/Ops.lean ====
section
/-! DEFINITION. The shared operations over the state: bus transactions and their effect at the target, delays, window
establishment, taking an error, and the LED and waveform buffers
(40_register_access.md R122 to R133, 60_exceptions.md R262 to R264, R275). -/

namespace Sys2Proof.Machine

/-! Taking an error. The engine has no trap, no saved state and no return (60_exceptions.md R269, R270). -/

/-- `raise Fatal(FATAL_ENV)`: the response, then the terminal state (60_exceptions.md R262). -/
def State.raiseFatal (s : State) : State := (s.respond .fatalEnv).goto .fatal

/-- A recoverable error: one diagnostic event, the failing response, back to IDLE (R263, R264, R269). -/
def State.raiseRecoverable (k : DiagKind) (st : Status) (v : BitVec 16) (s : State) : State :=
  (s.emitDiag k v).complete st

/-! The register bus (20_memory.md R70 to R79). -/

/-- Append one entry to the bus trace (10_state.md R38). -/
def State.record (e : BusEvent) (s : State) : State := { s with trace := s.trace ++ [e] }

/-- PWM STA as it stands: FULL1 and EMPT1 follow the FIFO (10_state.md R44, 60_exceptions.md R278(b)), the other bits are
stored. -/
def State.staWord (s : State) : Word :=
  bitPut (bitPut s.per.sta s.cfg.layout.full1 (decide (s.cfg.fifoDepth ≤ s.ser.fifo.length)))
    s.cfg.layout.empt1 s.ser.fifo.isEmpty

/-- The word a target register holds; none for FIF1, which is write-only (10_state.md R41 to R48). -/
def State.regWord (s : State) (r : Reg) : Option Word :=
  match r with
  | .gpfsel n => some s.per.gpfsel[n]
  | .pwmCtl => some s.per.ctl
  | .pwmSta => some s.staWord
  | .pwmDmac => some s.per.dmac
  | .pwmRng1 => some s.per.rng1
  | .pwmFif1 => none
  | .cmPwmctl => some s.per.cmCtl
  | .cmPwmdiv => some s.per.cmDiv

/-- The word the target drives where a rule decides it: on the reference platform, what the register at the address holds
(40_register_access.md R123; log entry 6). -/
def State.storedWord (s : State) (a : Word) : Option Word :=
  if s.reference then (decodeAddr s.cfg a).bind s.regWord else none

/-- Whether a rule decides what a read returns. -/
def State.readsStored (s : State) (a : Word) : Bool := (s.storedWord a).isSome

/-- The word a read returns (R123): the one a rule decides, else a free value. -/
def State.readValue (s : State) (a : Word) : Word := (s.storedWord a).getD (Config.freeRead s.draws)

/-- MemRead(addr, 4): one read transaction (R123). A read has no side effect at the target (20_memory.md R77). -/
def State.memRead (a : Word) (s : State) : Word × State :=
  (s.readValue a,
    { s.record (.rd a (s.readValue a)) with draws := if s.readsStored a then s.draws else s.draws + 1 })

/-- Whether a clock-manager write carries the password; if not, "the write is ignored by hardware" (10_state.md R47). -/
def passwordOk (c : Config) (v : Word) : Bool := v.extractLsb' 24 8 == c.cmPasswd

/-- CM_PWMCTL after an accepted write: BUSY, which no write sets, tells whether the clock generator now runs (R47, 20_memory.md
R77), and every other bit is the one written, the password byte among them (DESIGN CHOICE; log entry 15). -/
def cmCtlWritten (c : Config) (v : Word) : Word :=
  if clockRuns c v then v ||| busyMask c else v &&& ~~~ busyMask c

/-- The effect of a write on the target registers (20_memory.md R77): CLRF1 reads as 0; each STA error flag written with 1
clears; a clock-manager write without the password is ignored; the others store the word. What bits 31:24 of CM_PWMCTL and
CM_PWMDIV hold after an accepted write the spec leaves open: here the password written (DESIGN CHOICE; log entry 15). -/
def Peripherals.write (c : Config) (r : Reg) (v : Word) (p : Peripherals) : Peripherals :=
  match r with
  | .gpfsel n => { p with gpfsel := p.gpfsel.set n v }
  | .pwmCtl => { p with ctl := bitClear v c.layout.clrf1 }
  | .pwmSta => { p with sta := p.sta &&& ~~~ (v &&& staErrorMask c) }
  | .pwmDmac => { p with dmac := v }
  | .pwmRng1 => { p with rng1 := v }
  | .pwmFif1 => p
  | .cmPwmctl => if passwordOk c v then { p with cmCtl := cmCtlWritten c v } else p
  | .cmPwmdiv => if passwordOk c v then { p with cmDiv := v } else p

/-- The effect of a write on the FIFO (60_exceptions.md R278(a), (b)): CTL with CLRF1 = 1 empties it, and with it the word
half shifted (log entry 13); FIF1 appends a word while the FIFO holds fewer than FIFO_DEPTH. -/
def Serializer.write (c : Config) (r : Reg) (v : Word) (z : Serializer) : Serializer :=
  match r with
  | .pwmCtl => if bitGet v c.layout.clrf1 then { z with fifo := [], shift := [] } else z
  | .pwmFif1 => if z.fifo.length < c.fifoDepth then { z with fifo := z.fifo ++ [v] } else z
  | _ => z

/-- MemWrite(addr, 4, v): one write transaction, which has its effect at the target before anything else happens
(40_register_access.md R124, 20_memory.md R78, R79). -/
def State.memWrite (a v : Word) (s : State) : State :=
  { s.record (.wr a v) with
    per := match decodeAddr s.cfg a with
      | some r => s.per.write s.cfg r v
      | none => s.per
    ser := match decodeAddr s.cfg a with
      | some r => s.ser.write s.cfg r v
      | none => s.ser }

/-- Delay(t): recorded, and nothing else (60_exceptions.md R275; log entry 16). -/
def State.delay (t : Nat) (s : State) : State := s.record (.dly t)

/-- A register write followed by its fixed delay (41_init_hw.md R161, 70_reset_and_hazards.md R300). -/
def State.writeSettle (r : Reg) (v : Word) (t : Nat) (s : State) : State :=
  (s.memWrite (regAddr s.cfg r) v).delay t

/-- GpioSetFunction(p, f): one read, one write, the field of pin p replaced (40_register_access.md R133). -/
def State.gpioSetFunction (p : Nat) (f : BitVec 3) (s : State) : State :=
  let a := fselAddr s.cfg p
  let rd := s.memRead a
  rd.2.memWrite a (insertField rd.1 (fselShift s.cfg p) f)

/-- A free value in PWM STA, but for FULL1 and EMPT1 (93_implementation_defined.md U17; log entry 14). -/
def State.freeStatus (s : State) : State :=
  { s with per := { s.per with sta := Config.freeSta s.draws }, draws := s.draws + 1 }

/-- EstablishWindows(): nothing if mapped; else the draw MAP_OK decides between `mapped <- 1` and FATAL (R122). -/
def State.establishWindows (s : State) : State :=
  if s.mapped then s
  else if s.mapOk then { s with mapped := true }
  else s.raiseFatal

/-! The buffers. -/

/-- `led[i] <- c`, a slot written whole (42_pixel_buffer.md R184). -/
def State.setLed (i : Nat) (c : Color) (s : State) : State := { s with led := s.led.set i c }

/-- `wave[w]` (00_scope.md R13). -/
def State.waveWord (s : State) (w : Nat) : Word := s.wave.getD w 0#32

/-- `wave[w] <- v` (00_scope.md R13). -/
def State.setWaveWord (w : Nat) (v : Word) (s : State) : State := { s with wave := s.wave.set w v }

/-- WaveSetBit(k): one bit of one word; beyond the buffer, the fault WAVE_OVERRUN and nothing written (R128). -/
def State.waveSetBit (k : Nat) (s : State) : State :=
  if k < s.cfg.waveBits then
    s.setWaveWord (wordIndex k) (bitSet (s.waveWord (wordIndex k)) (bitPos s.cfg.packOrder k))
  else s.recordFault .waveOverrun

/-- WaveGetBit(k) (R129). -/
def State.waveGetBit (s : State) (k : Nat) : Bool := bitGet (s.waveWord (wordIndex k)) (bitPos s.cfg.packOrder k)

end Sys2Proof.Machine
end

