-- ==== Sys2Proof/Machine/Serializer.lean ====
section
/-! DEFINITION. The serializer agent (44_show.md R238, 60_exceptions.md R278) and the wire. -/

namespace Sys2Proof.Machine

/-- The wire output is defined: the platform behaves as the reference, its register map is one a platform can have, and
INIT_HW has completed (41_init_hw.md R162, 44_show.md R240, 70_reset_and_hazards.md R293). -/
def State.wireDefined (s : State) : Bool := s.reference && soundMap s.cfg && s.initDone

/-- The channel is enabled and its clock runs; else nothing is emitted and the output is low (R278(c), 20_memory.md R77:
KILL = 1 stops the clock; log entry 15). -/
def State.channelRuns (s : State) : Bool :=
  bitGet s.per.ctl s.cfg.layout.pwen1 && clockRuns s.cfg s.per.cmCtl

/-- The function-select field of the output pin routes it to the serializer (R278(f)). -/
def State.pinRouted (s : State) : Bool :=
  match decodeAddr s.cfg (fselAddr s.cfg s.cfg.pin) with
  | some (.gpfsel n) => s.per.gpfsel[n].extractLsb' (fselShift s.cfg s.cfg.pin) 3 == altFsel s.cfg.alt
  | _ => false

/-- The mode R278(d), (e) and (f) describe: serializer mode, FIFO-fed, 32 bits a word, not repeating, low when idle, not
inverted, routed to the pin. -/
def State.serializerMode (s : State) : Bool :=
  bitGet s.per.ctl s.cfg.layout.mode1 && bitGet s.per.ctl s.cfg.layout.usef1 && s.per.rng1 == 32#32 &&
    !bitGet s.per.ctl s.cfg.layout.rptl1 && !bitGet s.per.ctl s.cfg.layout.sbit1 &&
    !bitGet s.per.ctl s.cfg.layout.pola1 && s.pinRouted

/-- Nothing is left to emit. -/
def Serializer.drained (z : Serializer) : Bool := z.fifo.isEmpty && z.shift.isEmpty

/-- The next bit onto the wire (R278(d)): of the word being shifted, or else the first bit of the next FIFO word, with no gap. -/
def Serializer.shiftOut (o : PackOrder) (z : Serializer) : Serializer :=
  match z.shift with
  | b :: rest => { z with shift := rest, wire := z.wire ++ [.bit b] }
  | [] =>
    match z.fifo with
    | [] => z
    | w :: ws =>
      match shiftOrder o w with
      | b :: rest => { z with fifo := ws, shift := rest, wire := z.wire ++ [.bit b] }
      | [] => { z with fifo := ws }

/-- The stop, as soon as nothing is left: the line stays low and frame_pending <- 0 (R238, R278(e)). -/
def Serializer.stopIfDrained (z : Serializer) : Serializer :=
  if z.drained then { z with framePending := false, wire := z.wire ++ [.low] } else z

/-- One bit period of emission (R278(d), (e)). The period of the last bit ends with the stop, so that a frame is pending for
exactly its WAVE_BITS bit periods (70_reset_and_hazards.md R301). -/
def Serializer.emitBit (o : PackOrder) (z : Serializer) : Serializer := (z.shiftOut o).stopIfDrained

/-- The wire carries any value: free events, a free number of words leave the FIFO, and frame_pending is cleared exactly
when none is left (44_show.md R240, 70_reset_and_hazards.md R301; log entries 10, 11). -/
def Serializer.runFree (n : Nat) (z : Serializer) : Serializer where
  fifo := z.fifo.drop (Config.freePops n)
  shift := []
  framePending := z.framePending && !(z.fifo.drop (Config.freePops n)).isEmpty
  wire := z.wire ++ Config.freeWire n

/-- The serializer does what no rule fixes; PWM STA afterwards is any value (93_implementation_defined.md U17). -/
def State.wireFree (s : State) : State := { s.freeStatus with ser := s.ser.runFree s.draws }

/-- The serializer emits one bit period of the pending frame; PWM STA afterwards is any value (U17; log entry 14). -/
def State.wireEmit (s : State) : State := { s.freeStatus with ser := s.ser.emitBit s.cfg.packOrder }

/-- The serializer agent's move in one bit period (R238, R278). -/
def State.serializerTick (s : State) : State :=
  if s.wireDefined then
    if s.ser.framePending && s.channelRuns then
      if s.serializerMode then s.wireEmit else s.wireFree
    else s
  else s.wireFree

/-- What the serializer does between the acceptance of INIT_HW or SHOW and the write that stops it (INIT_HW step 3, SHOW
step 1): nothing if no frame is pending and the wire is defined; else the pending frame is cut at an unknown point and the
wire carries any value from there (R301, R240; log entries 10, 11). -/
def State.cutFrame (s : State) : State :=
  if s.wireDefined && !s.ser.framePending then s else s.wireFree

/-- The level of the output where the wire is defined: low while PWEN1 = 0 (R278(c)), else that of the last bit period, low
after a stop (R278(e)) and before the first. -/
def State.outputLevel (s : State) : Bool :=
  bitGet s.per.ctl s.cfg.layout.pwen1 &&
    match s.ser.wire.getLast? with
    | some (.bit b) => b
    | _ => false

/-- The bits that are still to be emitted, in wire order (R107, R238). -/
def Serializer.remaining (o : PackOrder) (z : Serializer) : BitStream := z.shift ++ z.fifo.flatMap (shiftOrder o)

end Sys2Proof.Machine
end

