-- ==== Sys2Proof/Machine/InitSteps.lean ====
section
/-! DEFINITION. The ten steps of INIT_HW (41_init_hw.md R150 to R160). -/

namespace Sys2Proof.Machine

/-- One step of INIT_HW, ending with the move to the next one (R150). -/
def initStep (k : InitStep) (s : State) : State :=
  match k with
  -- step 1 (R151): the only step that can fail; in FATAL the sequencer stays where it is
  | .establish =>
    if (s.establishWindows).seq = .fatal then s.establishWindows
    else s.establishWindows.goto (.initHw .pinFunction)
  -- step 2 (R152)
  | .pinFunction =>
    ((s.gpioSetFunction s.cfg.pin (altFsel s.cfg.alt)).delay s.cfg.tSettle).goto (.initHw .clockKill)
  -- step 3 (R153): this write cuts a frame that is still being emitted (70_reset_and_hazards.md R301)
  | .clockKill =>
    (s.cutFrame.writeSettle .cmPwmctl (cmKillWord s.cfg) s.cfg.tClkStop).goto (.initHw .dmaOff)
  -- step 4 (R154)
  | .dmaOff => (s.writeSettle .pwmDmac dmacOff s.cfg.tSettle).goto (.initHw .divisor)
  -- step 5 (R155)
  | .divisor => (s.writeSettle .cmPwmdiv (cmDivWord s.cfg) s.cfg.tSettle).goto (.initHw .clockRun)
  -- step 6 (R156)
  | .clockRun => (s.writeSettle .cmPwmctl (cmRunWord s.cfg) s.cfg.tSettle).goto (.initHw .ctlZero)
  -- step 7 (R157)
  | .ctlZero => (s.writeSettle .pwmCtl ctlZero s.cfg.tSettle).goto (.initHw .range)
  -- step 8 (R158)
  | .range => (s.writeSettle .pwmRng1 s.cfg.rangeBits s.cfg.tSettle).goto (.initHw .staClear)
  -- step 9 (R159)
  | .staClear => (s.writeSettle .pwmSta s.cfg.staClear s.cfg.tSettle).goto (.initHw .ctlConfig)
  -- step 10 (R160), then init_done <- 1 and the response (R150, R162)
  | .ctlConfig =>
    { s.writeSettle .pwmCtl (ctlCfg s.cfg) s.cfg.tSettle with initDone := true }.complete .ok

end Sys2Proof.Machine
end

