-- ==== Sys2Proof/Machine/Encoder.lean ====
section
/-! DEFINITION. The bitstream encoder, SHOW steps 2 and 3 (43_encoder.md R200 to R213). -/

namespace Sys2Proof.Machine

/-- A colour as a slot stores it: r, g, b from the top (10_state.md R33). -/
def Color.slot (c : Color) : BitVec 24 := c.r ++ c.g ++ c.b

/-- grb(c) = (g << 16) | (r << 8) | b (43_encoder.md R201). -/
def grb (c : Color) : BitVec 24 := c.g ++ c.r ++ c.b

/-- trip(bit): `110` for 1, `100` for 0 (R202, 30_encoding.md R102). -/
def trip : Bool → BitStream
  | true => [true, true, false]
  | false => [true, false, false]

/-- code72(c) = trip(grb(c)[23]) ++ ... ++ trip(grb(c)[0]) (R203). -/
def code72 (c : Color) : BitStream := (List.range 24).flatMap fun j => trip ((grb c).getLsbD (23 - j))

/-- The length of a codeword: 24 colour bits of 3 wire bits each (R203, 00_scope.md R9). -/
def codewordBits : Nat := 72

/-- frame(led): the codewords in order, then zeros up to WAVE_BITS (R204, 30_encoding.md R104). -/
def frame (c : Config) (led : List Color) : BitStream :=
  led.flatMap code72 ++ List.replicate (c.waveBits - codewordBits * led.length) false

/-- WaveClear: `for w in 0..WAVE_WORDS-1: wave[w] <- 0` (R205). -/
def State.waveClear (s : State) : State :=
  (List.range s.cfg.waveWords).foldl (fun s w => s.setWaveWord w 0#32) s

/-- The inner loop of WaveEncode: the 1 bits of one triplet, at offsets base, base + 1, base + 2 (R206). -/
def State.encodeTriplet (base : Nat) (t : BitStream) (s : State) : State :=
  (List.range 3).foldl (fun s u => if t.getD u false then s.waveSetBit (base + u) else s) s

/-- The middle loop of WaveEncode: the 24 bits of LED i, most significant first (R206). -/
def State.encodeLed (i : Nat) (s : State) : State :=
  let v := grb (s.led.getD i Color.black)
  (List.range 24).foldl (fun s j => s.encodeTriplet (codewordBits * i + 3 * j) (trip (v.getLsbD (23 - j)))) s

/-- WaveEncode: every LED of the chain, index 0 upward (R206). -/
def State.waveEncode (s : State) : State :=
  (List.range s.cfg.numLeds).foldl (fun s i => s.encodeLed i) s

end Sys2Proof.Machine
end

