-- ==== Sys2Proof/Machine/ShowSteps.lean ====
section
/-! DEFINITION. The six steps of SHOW (44_show.md R230 to R236). -/

namespace Sys2Proof.Machine

/-- SHOW step 5: every waveform word, bit-reversed, into the FIFO, one per delay; `wave` itself is not changed (R235). -/
def State.pushWave (s : State) : State :=
  (List.range s.cfg.waveWords).foldl (fun s w => s.writeSettle .pwmFif1 (rev32 (s.waveWord w)) s.cfg.tFifo) s

/-- frame_pending <- 1 (R236). -/
def State.setFramePending (s : State) : State := { s with ser := { s.ser with framePending := true } }

/-- One step of SHOW, ending with the move to the next one (R230). -/
def showStep (k : ShowStep) (s : State) : State :=
  match k with
  -- step 1 (R231): PWEN1 = 0 in this word stops the channel, and cuts a frame that is still being emitted (R301)
  | .reassert => (s.cutFrame.writeSettle .pwmCtl (ctlCfg s.cfg) s.cfg.tSettle).goto (.showFrame .waveClear)
  -- step 2 (R232)
  | .waveClear => s.waveClear.goto (.showFrame .waveEncode)
  -- step 3 (R232)
  | .waveEncode => s.waveEncode.goto (.showFrame .stopAndFlush)
  -- steps 4a and 4b (R233, R234)
  | .stopAndFlush =>
    ((s.writeSettle .pwmCtl (ctlCfg s.cfg) s.cfg.tSettle).writeSettle .pwmCtl (ctlClrf s.cfg) s.cfg.tSettle).goto
      (.showFrame .push)
  -- step 5 (R235): nothing reads FULL1, and STA is any value from here on (93_implementation_defined.md U17; log entry 14)
  | .push => s.pushWave.freeStatus.goto (.showFrame .enable)
  -- step 6 (R236): no delay follows
  | .enable => ((s.memWrite (regAddr s.cfg .pwmCtl) (ctlRun s.cfg)).setFramePending).complete .ok

end Sys2Proof.Machine
end

