-- ==== Sys2Proof/Machine/Sequencer.lean ====
section
/-! DEFINITION. The sequencer (10_state.md R34): one step at a time, forward only, until the command completes. -/

namespace Sys2Proof.Machine

/-- The number k of INIT(k) (R34). -/
def InitStep.number : InitStep → Nat
  | .establish => 1
  | .pinFunction => 2
  | .clockKill => 3
  | .dmaOff => 4
  | .divisor => 5
  | .clockRun => 6
  | .ctlZero => 7
  | .range => 8
  | .staClear => 9
  | .ctlConfig => 10

/-- The number k of SHOW(k) (R34). -/
def ShowStep.number : ShowStep → Nat
  | .reassert => 1
  | .waveClear => 2
  | .waveEncode => 3
  | .stopAndFlush => 4
  | .push => 5
  | .enable => 6

/-- One sequencer step: the step at which `seq` stands. IDLE and FATAL stand still (R34). -/
def sequencerStep (s : State) : State :=
  match s.seq with
  | .idle => s
  | .initHw k => initStep k s
  | .showFrame k => showStep k s
  | .fatal => s

/-- n sequencer steps. -/
def runSequencer : Nat → State → State
  | 0, s => s
  | n + 1, s => runSequencer n (sequencerStep s)

/-- A command is accepted only while cmd_ready = 1; else it is not accepted and no state changes (60_exceptions.md R268(1),
R274; 95_test_vectors.md L2.9; log entry 8). -/
def State.accept (run : State → State) (s : State) : State := if s.cmdReady then run s else s

end Sys2Proof.Machine
end

