-- ==== Sys2Proof/Machine/Bringup.lean ====
section
/-! DEFINITION. The meaning of INIT_HW (41_init_hw.md R150). -/

namespace Sys2Proof.Machine

/-- INIT_HW from its acceptance to its completion or to FATAL: FRAME_OVERLAP if a frame is pending, then the ten steps
(R150, R163, R268(3)). -/
def State.runInitHw (s : State) : State := runSequencer 10 (s.recordOverlap.goto (.initHw .establish))

/-- INIT_HW (R150). -/
def execInitHw (s : State) : Host.Outcome State Fault Refusal := .next (s.accept State.runInitHw)

end Sys2Proof.Machine
end

