-- ==== Sys2Proof/Machine/PixelBuffer.lean ====
section
/-! DEFINITION. The meanings of CLEAR and SET_PIXEL (42_pixel_buffer.md R180 to R185). Each is a single sequencer step (R34). -/

namespace Sys2Proof.Machine

/-- CLEAR from its acceptance: every one of the NUM_LEDS slots black, then OK (R180). -/
def State.runClear (s : State) : State :=
  { s with led := List.replicate s.cfg.numLeds Color.black }.complete .ok

/-- CLEAR (R180). -/
def execClear (s : State) : Host.Outcome State Fault Refusal := .next (s.accept State.runClear)

/-- SET_PIXEL from its acceptance: the bounds check `idx ≥ NUM_LEDS` on unsigned integers, then the slot written whole, or
the diagnostic and the failing response (R181, R182, 60_exceptions.md R263). -/
def State.runSetPixel (idx : BitVec 16) (c : Color) (s : State) : State :=
  if s.cfg.numLeds ≤ idx.toNat then s.raiseRecoverable .indexOutOfRange .indexOutOfRange idx
  else (s.setLed idx.toNat c).complete .ok

/-- SET_PIXEL (R181). -/
def execSetPixel (idx : BitVec 16) (r g b : Byte) (s : State) : Host.Outcome State Fault Refusal :=
  .next (s.accept (State.runSetPixel idx { r := r, g := g, b := b }))

end Sys2Proof.Machine
end

