-- ==== Sys2Proof/Machine/Render.lean ====
section
/-! DEFINITION. The meaning of SHOW (44_show.md R230). -/

namespace Sys2Proof.Machine

/-- SHOW from its acceptance to its completion: FRAME_OVERLAP if a frame is pending, then the six steps (R230, R268(3)).
`init_done` is not tested (R240). -/
def State.runShowFrame (s : State) : State := runSequencer 6 (s.recordOverlap.goto (.showFrame .reassert))

/-- SHOW (R230). -/
def execShowFrame (s : State) : Host.Outcome State Fault Refusal := .next (s.accept State.runShowFrame)

end Sys2Proof.Machine
end

