-- ==== Sys2Proof/Syntax.lean ====
section
/-! DEFINITION. The command set (30_encoding.md R91) and the assembler's lines (R97, R98). -/

namespace Sys2Proof

/-- The four host commands, one constructor per row of spec/opcode_table.json (30_encoding.md R91).
The operand types are the encoding's field widths (R90, R92, R93), so every term is a command that some word spells. -/
inductive Instr where
  /-- INIT_HW (41_init_hw.md R150). -/
  | initHw
  /-- CLEAR (42_pixel_buffer.md R180). -/
  | clear
  /-- SET_PIXEL idx, r, g, b (42_pixel_buffer.md R181). -/
  | setPixel (idx : BitVec 16) (r g b : Byte)
  /-- SHOW (44_show.md R230). -/
  | showFrame
  deriving DecidableEq, Repr

/-- One line of an assembler program, after its text is read: a command with its operands as the unsigned
integers written, or the one directive (30_encoding.md R97, R98). -/
inductive AsmLine where
  | initHw
  | clear
  | setPixel (index r g b : Nat)
  | showFrame
  /-- `.chain <N>`: states NUM_LEDS and emits no word (R98). -/
  | chain (n : Nat)
  deriving DecidableEq, Repr

end Sys2Proof
end

