-- ==== Sys2Proof/Machine/Dispatch.lean ====
section
/-! DEFINITION. One arm per command (30_encoding.md R91). -/

namespace Sys2Proof.Machine

def exec (i : Instr) (s : State) : Host.Outcome State Fault Refusal :=
  match i with
  | .initHw => Sys2Proof.Machine.execInitHw s
  | .clear => Sys2Proof.Machine.execClear s
  | .setPixel idx r g b => Sys2Proof.Machine.execSetPixel idx r g b s
  | .showFrame => Sys2Proof.Machine.execShowFrame s

end Sys2Proof.Machine
end

