-- ==== Sys2Proof/WellFormed.lean ====
section
/-! DEFINITION. Well-formed assembler lines (30_encoding.md R97) and well-formed commands. -/

namespace Sys2Proof

/-- The assembler's operand checks (R97): `<index>` in 0..65535, `<r>`, `<g>`, `<b>` each in 0..255.
The agreement of `.chain` with the instance (R98) is checked where the instance is known, in Machine/Assembler.lean. -/
def AsmLine.wf : AsmLine → Bool
  | .initHw => true
  | .clear => true
  | .setPixel index r g b => decide (index < 65536) && decide (r < 256) && decide (g < 256) && decide (b < 256)
  | .showFrame => true
  | .chain _ => true

/-- The assembler line that spells a command (R97). -/
def Instr.toAsm : Instr → AsmLine
  | .initHw => .initHw
  | .clear => .clear
  | .setPixel idx r g b => .setPixel idx.toNat r.toNat g.toNat b.toNat
  | .showFrame => .showFrame

/-- A command is well formed when the assembler accepts the line that spells it. The operand types make every command so
(`Laws.instr_wf`). -/
abbrev Instr.WellFormed (i : Instr) : Prop := i.toAsm.wf = true

end Sys2Proof
end

