-- ==== Sys2Proof/Decode.lean ====
section
/-! DEFINITION. The decoder and the encoder of command words (30_encoding.md R90 to R95). -/

namespace Sys2Proof

/-- OP = CMD[63:56] (R90). -/
def CmdWord.op (w : CmdWord) : BitVec 8 := w.extractLsb' 56 8
/-- INDEX = CMD[55:40] (R92). -/
def CmdWord.index (w : CmdWord) : BitVec 16 := w.extractLsb' 40 16
/-- R = CMD[23:16] (R93). -/
def CmdWord.red (w : CmdWord) : Byte := w.extractLsb' 16 8
/-- G = CMD[15:8] (R93). -/
def CmdWord.green (w : CmdWord) : Byte := w.extractLsb' 8 8
/-- B = CMD[7:0] (R93). -/
def CmdWord.blue (w : CmdWord) : Byte := w.extractLsb' 0 8

/-- One row of the decoding table of R95: legal when `CMD & mask = pattern`. -/
structure TableRow where
  pattern : CmdWord
  mask : CmdWord
  deriving DecidableEq, Repr

/-- The test of R95 for one row. -/
def TableRow.hits (r : TableRow) (w : CmdWord) : Bool := w &&& r.mask == r.pattern

def initHwRow : TableRow := { pattern := 0x0100000000000000#64, mask := 0xFFFFFFFFFFFFFFFF#64 }
def clearRow : TableRow := { pattern := 0x0200000000000000#64, mask := 0xFFFFFFFFFFFFFFFF#64 }
def setPixelRow : TableRow := { pattern := 0x0300000000000000#64, mask := 0xFF0000FFFF000000#64 }
def showFrameRow : TableRow := { pattern := 0x0400000000000000#64, mask := 0xFFFFFFFFFFFFFFFF#64 }

/-- The whole table of R95. -/
def opcodeRows : List TableRow := [initHwRow, clearRow, setPixelRow, showFrameRow]

/-- Why a word spells no command (R95, 60_exceptions.md R264). -/
inductive DecodeError where
  /-- OP is 0x00 or 0x05 to 0xFF (R91). -/
  | reservedOperation (op : BitVec 8)
  /-- OP is that of a command, and a bit that command reserves is not zero (R94). -/
  | reservedBits (op : BitVec 8)
  deriving DecidableEq, Repr

/-- Which of the two cases of R264 an illegal word is. -/
def decodeErrorOf (w : CmdWord) : DecodeError :=
  if 1 ≤ w.op.toNat ∧ w.op.toNat ≤ 4 then .reservedBits w.op else .reservedOperation w.op

/-- The decoder (R95): total on every 64-bit word. -/
def decode (w : CmdWord) : Except DecodeError Instr :=
  if initHwRow.hits w then .ok .initHw
  else if clearRow.hits w then .ok .clear
  else if setPixelRow.hits w then .ok (.setPixel w.index w.red w.green w.blue)
  else if showFrameRow.hits w then .ok .showFrame
  else .error (decodeErrorOf w)

/-- The word with the given fields, RSV = 0 (R90, R94). -/
def cmdWord (op : BitVec 8) (idx : BitVec 16) (r g b : Byte) : CmdWord := op ++ idx ++ 0#16 ++ r ++ g ++ b

/-- The encoder (R90, R91, R97): the one word that spells a command. -/
def encode : Instr → CmdWord
  | .initHw => cmdWord 0x01#8 0#16 0#8 0#8 0#8
  | .clear => cmdWord 0x02#8 0#16 0#8 0#8 0#8
  | .setPixel idx r g b => cmdWord 0x03#8 idx r g b
  | .showFrame => cmdWord 0x04#8 0#16 0#8 0#8 0#8

/-- A command word from the opcode table's numbering: bit 0 of `w` is CMD[0]; the bits above `nbits` are zero.
A command is exactly one 64-bit word (R99), so nothing has to be laid out in bytes. -/
def tableWord (nbits w : Nat) : CmdWord := BitVec.ofNat 64 (w % 2 ^ nbits)

/-- What the decoder reads from a word numbered as spec/opcode_table.json numbers it; none where it refuses. -/
def decodeTableWord (nbits w : Nat) : Option Instr :=
  match decode (tableWord nbits w) with
  | .ok i => some i
  | .error _ => none

end Sys2Proof
end

