-- ==== Sys2Proof/Machine/Port.lean ====
section
/-! DEFINITION. The command port (30_encoding.md R90, 10_state.md R37): which word is accepted, what an illegal word does,
and what happens in a bit period in which none is accepted. -/

namespace Sys2Proof.Machine

/-- The handshake: with cmd_ready = 1 and a word offered, that word is accepted and leaves the port (R90, R274). -/
def State.fetch (s : State) : Option (CmdWord × State) :=
  match s.cmdReady, s.host with
  | true, .offer w :: rest => some (w, { s with host := rest })
  | _, _ => none

/-- An accepted word that spells no command: the diagnostic with CMD[63:56], the response ILLEGAL_COMMAND, nothing else
(30_encoding.md R95, 60_exceptions.md R264; log entry 9). -/
def State.illegalCommand (w : CmdWord) (s : State) : State :=
  s.raiseRecoverable .illegalCommand .illegalCommand (w.op.zeroExtend 16)

/-- The host's side of a bit period in which no word is accepted: a `wait` is over; a word held on the port stays
(60_exceptions.md R268(1); log entry 7). -/
def State.hostWaits (s : State) : State :=
  match s.host with
  | .wait :: rest => { s with host := rest }
  | _ => s

/-- A step in which no word is accepted: a sequencer that stands inside a command goes on; else one bit period passes
(10_state.md R34, 00_scope.md R5(3); log entries 1, 7). -/
def State.advance (s : State) : State :=
  match s.seq with
  | .idle => s.hostWaits.serializerTick
  | .initHw _ => sequencerStep s
  | .showFrame _ => sequencerStep s
  | .fatal => s.hostWaits.serializerTick

/-- The host offers this word next (log entry 24). -/
def State.offerNext (w : CmdWord) (s : State) : State := { s with host := .offer w :: s.host }

end Sys2Proof.Machine
end

