-- ==== Sys2Proof/Machine/Step.lean ====
section
/-! DEFINITION. One step of the machine (00_scope.md R5): an accepted command word, whole, or one bit period without one. -/

namespace Sys2Proof.Machine

/-- One step: the accepted word is decoded and its command run to completion, or, where it spells none, answered with
ILLEGAL_COMMAND (60_exceptions.md R268, R274); where no word is accepted, `State.advance`. -/
def step (s : State) : Host.Outcome State Fault Refusal :=
  match s.fetch with
  | none => .next s.advance
  | some (w, s') =>
    match decode w with
    | .ok i => exec i s'
    | .error _ => .next (s'.illegalCommand w)

/-- `s` with the word numbered as spec/opcode_table.json numbers it offered on the command port, ahead of the host's other
moves: what the next step accepts when cmd_ready = 1 (log entry 24). -/
def State.withFetchWord (s : State) (nbits w : Nat) : State := s.offerNext (tableWord nbits w)

end Sys2Proof.Machine
end

