-- ==== Sys2Proof/Machine/Assembler.lean ====
section
/-! DEFINITION. The assembler (30_encoding.md R97, R98): the text of a program to command words. -/

namespace Sys2Proof.Machine

/-- Why a program has no words. -/
inductive AsmError where
  /-- The line is none of the four commands nor the directive (R97, R98). -/
  | badLine
  /-- An operand out of its range: an assembly error, no word (R97). -/
  | operandRange
  /-- `.chain <N>` does not agree with NUM_LEDS: the program is refused (R98). -/
  | chainMismatch
  deriving DecidableEq, Repr

/-- A space between the parts of a line (log entry 22). -/
def isBlank (c : Char) : Bool := c == ' ' || c == '\t' || c == '\r'

/-- The line without its comment: `;` runs to the end of the line (R97). -/
def dropComment (cs : List Char) : List Char := cs.takeWhile fun c => c != ';'

/-- The line without blanks at its two ends. -/
def trimBlanks (cs : List Char) : List Char := ((cs.dropWhile isBlank).reverse.dropWhile isBlank).reverse

/-- The value of a digit of base 10 or 16, upper or lower case (R97; log entry 22). -/
def digitValue (c : Char) : Option Nat :=
  if '0' ≤ c ∧ c ≤ '9' then some (c.toNat - '0'.toNat)
  else if 'a' ≤ c ∧ c ≤ 'f' then some (c.toNat - 'a'.toNat + 10)
  else if 'A' ≤ c ∧ c ≤ 'F' then some (c.toNat - 'A'.toNat + 10)
  else none

/-- The value of a digit string after `acc`, none at a character that is no digit of the base. -/
def digitsValue (base : Nat) : Nat → List Char → Option Nat
  | acc, [] => some acc
  | acc, c :: cs =>
    match digitValue c with
    | some d => if d < base then digitsValue base (acc * base + d) cs else none
    | none => none

/-- An unsigned integer, decimal or hexadecimal with a `0x` prefix (R97). -/
def parseNumber (cs : List Char) : Option Nat :=
  match cs with
  | '0' :: 'x' :: d :: ds => digitsValue 16 0 (d :: ds)
  | d :: ds => digitsValue 10 0 (d :: ds)
  | [] => none

/-- The pieces of an operand list between its commas. -/
def splitCommas : List Char → List (List Char)
  | [] => [[]]
  | c :: cs =>
    if c == ',' then [] :: splitCommas cs
    else
      match splitCommas cs with
      | [] => [[c]]
      | p :: ps => (c :: p) :: ps

/-- The operands of a line as the unsigned integers written, none if one is no number. -/
def parseOperands (cs : List Char) : Option (List Nat) := (splitCommas cs).mapM fun p => parseNumber (trimBlanks p)

/-- One line of text: nothing for a line that is blank or only a comment, else a command or the directive (R97, R98). -/
def parseLine (text : List Char) : Except AsmError (Option AsmLine) :=
  let line := trimBlanks (dropComment text)
  let head := line.takeWhile fun c => !isBlank c
  let rest := trimBlanks (line.dropWhile fun c => !isBlank c)
  if line = [] then .ok none
  else if line = ['I', 'N', 'I', 'T', '_', 'H', 'W'] then .ok (some .initHw)
  else if line = ['C', 'L', 'E', 'A', 'R'] then .ok (some .clear)
  else if line = ['S', 'H', 'O', 'W'] then .ok (some .showFrame)
  else if head = ['S', 'E', 'T', '_', 'P', 'I', 'X', 'E', 'L'] then
    match parseOperands rest with
    | some [index, r, g, b] => .ok (some (.setPixel index r g b))
    | _ => .error .badLine
  else if head = ['.', 'c', 'h', 'a', 'i', 'n'] then
    match parseNumber rest with
    | some n => .ok (some (.chain n))
    | none => .error .badLine
  else .error .badLine

/-- The word of a line for an instance with `numLeds` LEDs: none for the directive (R97, R98). -/
def assembleLine (numLeds : Nat) (l : AsmLine) : Except AsmError (Option CmdWord) :=
  if l.wf then
    match l with
    | .initHw => .ok (some (encode .initHw))
    | .clear => .ok (some (encode .clear))
    | .setPixel index r g b =>
      .ok (some (encode (.setPixel (BitVec.ofNat 16 index) (BitVec.ofNat 8 r) (BitVec.ofNat 8 g) (BitVec.ofNat 8 b))))
    | .showFrame => .ok (some (encode .showFrame))
    | .chain n => if n = numLeds then .ok none else .error .chainMismatch
  else .error .operandRange

/-- The words of one line of text. -/
def assembleText (numLeds : Nat) (text : List Char) : Except AsmError (List CmdWord) :=
  match parseLine text with
  | .error e => .error e
  | .ok none => .ok []
  | .ok (some l) =>
    match assembleLine numLeds l with
    | .error e => .error e
    | .ok none => .ok []
    | .ok (some w) => .ok [w]

/-- A program: its lines in order, each to its word (R97). R97 says that a line in error produces no word, and only R98, of a
`.chain` line that does not agree, that the program is refused; that one error of any kind refuses the whole program, and that the
first one is reported, is the model's choice (DESIGN CHOICE; log entry 22). Whether a program must hold a
`.chain` line, and where or how often it may, R97 and R98 leave open: here it may hold none or any number, anywhere, and each
must agree with the instance (DESIGN CHOICE; log entry 22). -/
def assemble (numLeds : Nat) : List (List Char) → Except AsmError (List CmdWord)
  | [] => .ok []
  | l :: ls =>
    match assembleText numLeds l, assemble numLeds ls with
    | .error e, _ => .error e
    | .ok _, .error e => .error e
    | .ok ws, .ok rest => .ok (ws ++ rest)

/-! The texts of R97 and R98 as they are written, which claims compare with what the assembler reads. -/

/-- A hexadecimal digit in one of its two cases (log entry 22). -/
structure HexDigit where
  value : Fin 16
  upper : Bool
  deriving DecidableEq, Repr

/-- A numeral of R97: decimal digits, or hexadecimal digits after `0x`, at least one. -/
inductive Numeral where
  | decimal (d : Fin 10) (ds : List (Fin 10))
  | hex (d : HexDigit) (ds : List HexDigit)
  deriving DecidableEq, Repr

/-- The character of a decimal digit. -/
def decimalChar (d : Fin 10) : Char := #v['0', '1', '2', '3', '4', '5', '6', '7', '8', '9'][d]

/-- The character of a hexadecimal digit. -/
def hexChar (d : HexDigit) : Char :=
  if d.upper then #v['0', '1', '2', '3', '4', '5', '6', '7', '8', '9', 'A', 'B', 'C', 'D', 'E', 'F'][d.value]
  else #v['0', '1', '2', '3', '4', '5', '6', '7', '8', '9', 'a', 'b', 'c', 'd', 'e', 'f'][d.value]

/-- The text of a numeral. -/
def Numeral.text : Numeral → List Char
  | .decimal d ds => (d :: ds).map decimalChar
  | .hex d ds => ['0', 'x'] ++ (d :: ds).map hexChar

/-- The unsigned integer a numeral stands for. -/
def Numeral.number : Numeral → Nat
  | .decimal d ds => (d :: ds).foldl (fun n d => 10 * n + d.val) 0
  | .hex d ds => (d :: ds).foldl (fun n d => 16 * n + d.value.val) 0

/-- A line as R97 and R98 write it. -/
inductive SourceLine where
  | initHw
  | clear
  | setPixel (index r g b : Numeral)
  | showFrame
  | chain (n : Numeral)
  deriving DecidableEq, Repr

/-- The text of a line: upper-case mnemonic, operands after a space, a comma and a space between two of them (R97). -/
def SourceLine.text : SourceLine → List Char
  | .initHw => ['I', 'N', 'I', 'T', '_', 'H', 'W']
  | .clear => ['C', 'L', 'E', 'A', 'R']
  | .setPixel index r g b =>
    ['S', 'E', 'T', '_', 'P', 'I', 'X', 'E', 'L', ' '] ++ index.text ++ [',', ' '] ++ r.text ++ [',', ' '] ++ g.text ++
      [',', ' '] ++ b.text
  | .showFrame => ['S', 'H', 'O', 'W']
  | .chain n => ['.', 'c', 'h', 'a', 'i', 'n', ' '] ++ n.text

/-- The command or directive a line spells, with its operands as numbers. -/
def SourceLine.spelled : SourceLine → AsmLine
  | .initHw => .initHw
  | .clear => .clear
  | .setPixel index r g b => .setPixel index.number r.number g.number b.number
  | .showFrame => .showFrame
  | .chain n => .chain n.number

/-- What may end a line: spaces, and a comment of any text (R97). -/
def lineEnd (spaces : Nat) (comment : Option (List Char)) : List Char :=
  List.replicate spaces ' ' ++
    match comment with
    | none => []
    | some text => ';' :: text

/-- The host's moves for a command program: its words in the order issued (30_encoding.md R109). -/
def State.withProgram (ws : List CmdWord) (s : State) : State := { s with host := ws.map HostMove.offer }

end Sys2Proof.Machine
end

