-- ==== Sys2Proof/Machine/Elaborate.lean ====
section
/-! DEFINITION. Elaboration: which configurations have an instance (70_reset_and_hazards.md R295, 20_memory.md R72, R75), and
construction (R290). -/

namespace Sys2Proof.Machine

/-- Why a configuration is refused: the items of R295, R75 with R72 for the register offsets, and the fixed parameters of
00_scope.md R10. -/
inductive ElabError where
  /-- R295(1): WAVE_WORDS ≥ 1 and BITS_PER_LED × NUM_LEDS ≤ WAVE_BITS. -/
  | capacity
  /-- R295(2): FIFO_DEPTH ≥ WAVE_WORDS. -/
  | fifoDepth
  /-- R295(3): 1 ≤ DIVI ≤ 4095. -/
  | divisor
  /-- R295(4): PIN div 10 ≤ 5. -/
  | pin
  /-- R295(5): each window 4096-aligned and inside the 32-bit space. -/
  | window
  /-- R295(6): T_SETTLE > 0, T_CLK_STOP ≥ T_SETTLE, T_FIFO > 0. -/
  | delay
  /-- R75, R72: each register offset a multiple of 4 inside its window. -/
  | offset
  /-- 00_scope.md R10: BITS_PER_LED, WINDOW_BYTES and INDEX_WIDTH at the values every rule uses. -/
  | fixedParameter
  deriving DecidableEq, Repr

/-- R295(1). -/
def capacityOk (c : Config) : Bool := decide (1 ≤ c.waveWords) && decide (c.bitsPerLed * c.numLeds ≤ c.waveBits)

/-- R295(2). -/
def fifoOk (c : Config) : Bool := decide (c.waveWords ≤ c.fifoDepth)

/-- R295(3). -/
def divisorOk (c : Config) : Bool := decide (1 ≤ divI c) && decide (divI c ≤ 4095)

/-- R295(4). -/
def pinOk (c : Config) : Bool := decide (c.pin / 10 ≤ 5)

/-- R295(5), one window. -/
def windowFits (c : Config) (w : Window) : Bool :=
  decide (windowBase c w % c.windowBytes = 0) && decide (windowBase c w + (c.windowBytes - 1) ≤ 0xFFFFFFFF)

/-- R295(5). -/
def windowsOk (c : Config) : Bool :=
  windowFits c .gpio && windowFits c .pwm && windowFits c .clk && windowFits c .dma

/-- R295(6). -/
def delaysOk (c : Config) : Bool := decide (0 < c.tSettle) && decide (c.tSettle ≤ c.tClkStop) && decide (0 < c.tFifo)

/-- R75, R72. -/
def offsetsOk (c : Config) : Bool :=
  Reg.all.all fun r => decide (regOffset c r % 4 = 0) && decide (regOffset c r < c.windowBytes)

/-- The parameters of R10 that are fixed: a codeword has 72 bits (R9), a window 4096 bytes (20_memory.md R71), the index field 16
bits (30_encoding.md R92). The spec refuses no other value by name (log entry 19). -/
def fixedOk (c : Config) : Bool :=
  decide (c.bitsPerLed = codewordBits) && decide (c.windowBytes = 4096) && decide (c.indexWidth = 16)

/-- The elaboration checks in the order of R295; the first that fails names the refusal. -/
def elabError (c : Config) : Option ElabError :=
  if !capacityOk c then some .capacity
  else if !fifoOk c then some .fifoDepth
  else if !divisorOk c then some .divisor
  else if !pinOk c then some .pin
  else if !windowsOk c then some .window
  else if !delaysOk c then some .delay
  else if !offsetsOk c then some .offset
  else if !fixedOk c then some .fixedParameter
  else none

/-- The configuration passes elaboration (R295). -/
def elaborates (c : Config) : Bool :=
  capacityOk c && fifoOk c && divisorOk c && pinOk c && windowsOk c && delaysOk c && offsetsOk c &&
    fixedOk c

/-- `construct(chain_length)`: the configuration is checked first, and one that fails has no instance (R290). -/
def elaborate (c : Config) (per : Peripherals) (fifo : List Word) (shift : BitStream) (reference mapOk : Bool) :
    Except ElabError State :=
  match elabError c with
  | some e => .error e
  | none => .ok (State.construct c per fifo shift reference mapOk)

end Sys2Proof.Machine
end

