-- ==== Sys2Proof/Machine/Traces.lean ====
section
/-! DEFINITION. The bus traces of the commands as lists (41_init_hw.md R150, 44_show.md R230, 10_state.md R49), which claims
compare with what the meanings record. -/

namespace Sys2Proof.Machine

/-- The word INIT_HW step 2 writes back when it has read `v` (R49, 40_register_access.md R133). -/
def fselWritten (c : Config) (v : Word) : Word := insertField v (fselShift c c.pin) (altFsel c.alt)

/-- The trace of INIT_HW when the function-select register reads `v` (R150). -/
def initHwTrace (c : Config) (v : Word) : List BusEvent :=
  [.rd (fselAddr c c.pin) v,
   .wr (fselAddr c c.pin) (fselWritten c v), .dly c.tSettle,
   .wr (regAddr c .cmPwmctl) (cmKillWord c), .dly c.tClkStop,
   .wr (regAddr c .pwmDmac) dmacOff, .dly c.tSettle,
   .wr (regAddr c .cmPwmdiv) (cmDivWord c), .dly c.tSettle,
   .wr (regAddr c .cmPwmctl) (cmRunWord c), .dly c.tSettle,
   .wr (regAddr c .pwmCtl) ctlZero, .dly c.tSettle,
   .wr (regAddr c .pwmRng1) c.rangeBits, .dly c.tSettle,
   .wr (regAddr c .pwmSta) c.staClear, .dly c.tSettle,
   .wr (regAddr c .pwmCtl) (ctlCfg c), .dly c.tSettle]

/-- The trace of SHOW when the waveform buffer holds `wave` after step 3 (R230). -/
def showFrameTrace (c : Config) (wave : List Word) : List BusEvent :=
  [.wr (regAddr c .pwmCtl) (ctlCfg c), .dly c.tSettle,
   .wr (regAddr c .pwmCtl) (ctlCfg c), .dly c.tSettle,
   .wr (regAddr c .pwmCtl) (ctlClrf c), .dly c.tSettle] ++
  wave.flatMap (fun v => [.wr (regAddr c .pwmFif1) (rev32 v), .dly c.tFifo]) ++
  [.wr (regAddr c .pwmCtl) (ctlRun c)]

/-- The delays of a trace, added up (70_reset_and_hazards.md R306). -/
def delaySum : List BusEvent → Nat
  | [] => 0
  | .dly t :: es => t + delaySum es
  | .rd _ _ :: es => delaySum es
  | .wr _ _ :: es => delaySum es

/-- The register writes the engine can issue (10_state.md R49): address and value, the function-select write with the pin's
field as written and the FIFO push with any value. -/
def listedWrite (c : Config) (a v : Word) : Prop :=
  (a = fselAddr c c.pin ∧ v.extractLsb' (fselShift c c.pin) 3 = altFsel c.alt) ∨
  (a, v) ∈ [(regAddr c .cmPwmctl, cmKillWord c), (regAddr c .pwmDmac, dmacOff), (regAddr c .cmPwmdiv, cmDivWord c),
    (regAddr c .cmPwmctl, cmRunWord c), (regAddr c .pwmCtl, ctlZero), (regAddr c .pwmRng1, c.rangeBits),
    (regAddr c .pwmSta, c.staClear), (regAddr c .pwmCtl, ctlCfg c), (regAddr c .pwmCtl, ctlClrf c),
    (regAddr c .pwmCtl, ctlRun c)] ∨
  a = regAddr c .pwmFif1

/-- A trace entry the engine can issue: a listed write, the function-select read, or a delay (R49, R85). -/
def listedEvent (c : Config) : BusEvent → Prop
  | .rd a _ => a = fselAddr c c.pin
  | .wr a v => listedWrite c a v
  | .dly _ => True

end Sys2Proof.Machine
end

