-- ==== Sys2Proof/Safety.lean ====
section
/-! DEFINITION. What counts as a safe state and run, in the terms claims use (60_exceptions.md R262, R267; 44_show.md R238),
and the machine's invariants. -/

namespace Sys2Proof.Machine

/-- FATAL is a fault state and a recorded fault excludes the run: no claim may rest on either (R262, R267). -/
abbrev State.Safe (s : State) : Prop := s.seq ≠ .fatal ∧ s.faults = FaultRecord.none

/-- The buffers have the sizes of the configuration, which elaborated, and never change them (10_state.md R31, R32,
20_memory.md R84, 70_reset_and_hazards.md R295). -/
abbrev State.Sized (s : State) : Prop :=
  s.led.length = s.cfg.numLeds ∧ s.wave.length = s.cfg.waveWords ∧ elaborates s.cfg = true

/-- Between two steps the sequencer stands at IDLE or FATAL: a command runs to completion (60_exceptions.md R274); that it does
so within one step is the model's choice (log entry 1). -/
abbrev State.AtRest (s : State) : Prop := s.seq = .idle ∨ s.seq = .fatal

/-- resp_status is one of the four codes, and resp_ok = 1 only with OK (30_encoding.md R96). -/
abbrev State.ResponseLegal (s : State) : Prop :=
  s.respStatus.toNat ≤ 3 ∧ (s.respOk = true → s.respStatus = Status.ok.code)

/-- Once INIT_HW has completed, the windows are established and the peripherals hold the bring-up configuration: the clock
enabled from its source and running, the divisor and the range as written, DMA off, the pin routed, and in CTL nothing but
CTL_CFG or, after a SHOW, CTL_RUN (41_init_hw.md R150 to R160, 10_state.md R35, R43). BUSY = 1 in CM_PWMCTL, and the password
byte in CM_PWMCTL and CM_PWMDIV, are the model's (log entry 15: DEDUCED and DESIGN CHOICE). -/
abbrev State.Configured (s : State) : Prop :=
  s.initDone = true →
    s.mapped = true ∧ s.per.rng1 = s.cfg.rangeBits ∧ s.per.dmac = dmacOff ∧ s.per.cmDiv = cmDivWord s.cfg ∧
      s.per.cmCtl = cmCtlWritten s.cfg (cmRunWord s.cfg) ∧
      (s.per.ctl = ctlCfg s.cfg ∨ s.per.ctl = ctlRun s.cfg) ∧ s.pinRouted = true

/-- FATAL is entered only by a failed establishment, before anything is mapped or initialised (40_register_access.md R122). -/
abbrev State.FatalUnmapped (s : State) : Prop := s.seq = .fatal → s.mapped = false ∧ s.initDone = false

/-- The FIFO holds at most FIFO_DEPTH words (10_state.md R50). -/
abbrev State.FifoBounded (s : State) : Prop := s.ser.fifo.length ≤ s.cfg.fifoDepth

/-- Between two frames the line is low: where the wire is defined, with 32 bits a word, and no frame is pending
(44_show.md R238, R239, 60_exceptions.md R278(c), (e)). -/
abbrev State.LowBetweenFrames (s : State) : Prop :=
  s.cfg.rangeBits = 32#32 → s.wireDefined = true → s.ser.framePending = false → s.outputLevel = false

/-- The machine's invariant: it holds at reset and every step keeps it. `done`: INIT_HW completes
only past its step 1 (41_init_hw.md R151). `atRest` is the model's choice of log entry 1: a command runs whole in one step.
`configured` has as its premise a register map in which a write reaches its own register (log entry 17), and what it says of
CM_PWMCTL and CM_PWMDIV is in part the model's: BUSY = 1 with ENAB = 1 and KILL = 0, and bits 31:24 holding the password byte
written (log entry 15). `low` rests on when the wire is defined and its clock runs (log entries 6, 15, 17). -/
structure State.Inv (s : State) : Prop where
  sized : s.Sized
  atRest : s.AtRest
  response : s.ResponseLegal
  fatal : s.FatalUnmapped
  done : s.initDone = true → s.mapped = true
  fifo : s.FifoBounded
  configured : soundMap s.cfg = true → s.Configured
  low : s.LowBetweenFrames

/-- Steps from `s`: what the next `n` steps answer. -/
def State.after : Nat → State → Host.Outcome State Fault Refusal
  | 0, s => .next s
  | n + 1, s =>
    match step s with
    | .next t => State.after n t
    | .fault r => .fault r
    | .refused r => .refused r

end Sys2Proof.Machine
end

