-- ==== Sys2Proof/Certificates/Slice0/Obligations.lean ====
section
/-! DEFINITION. The statements for the provers. Each docstring names the rules of spec/ it rests on. -/

open Sys2Proof Sys2Proof.Machine

/-! Encoding (30_encoding.md). -/

/-- Decoding the word of any command gives that command with every operand (R90 to R95). -/
def Obligations.DecodeEncodeRoundTrip : Prop := ∀ i : Instr, decode (encode i) = .ok i

/-- A legal word is the word of the command it decodes to: each legal word has one meaning and no bit is dropped (R90 to R95,
R99). -/
def Obligations.EncodeDecodeRoundTrip : Prop := ∀ (w : CmdWord) (i : Instr), decode w = .ok i → encode i = w

/-- A word is legal exactly when it matches a row of the table of R95, and no word matches two rows. -/
def Obligations.LegalWordsAreTheTableRows : Prop :=
  (∀ w : CmdWord, (∃ i, decode w = .ok i) ↔
    (w &&& 0xFFFFFFFFFFFFFFFF#64 = 0x0100000000000000#64 ∨ w &&& 0xFFFFFFFFFFFFFFFF#64 = 0x0200000000000000#64 ∨
      w &&& 0xFF0000FFFF000000#64 = 0x0300000000000000#64 ∨ w &&& 0xFFFFFFFFFFFFFFFF#64 = 0x0400000000000000#64)) ∧
  ∀ (w : CmdWord) (r q : TableRow), r ∈ opcodeRows → q ∈ opcodeRows → r.hits w = true → q.hits w = true → r = q

/-- The words of 95_test_vectors.md L2.1 decode as listed (R95). -/
def Obligations.DecodedTestWords : Prop :=
  decode 0x0100000000000000#64 = .ok .initHw ∧
  decode 0x0200000000000000#64 = .ok .clear ∧
  decode 0x0300060000FFFFFF#64 = .ok (.setPixel 6 255 255 255) ∧
  decode 0x03FFFF0000123456#64 = .ok (.setPixel 65535 0x12 0x34 0x56) ∧
  decode 0x0400000000000000#64 = .ok .showFrame ∧
  decode 0x0500000000000000#64 = .error (.reservedOperation 0x05) ∧
  decode 0x0300000001000000#64 = .error (.reservedBits 0x03)

/-- ILLEGAL_COMMAND (60_exceptions.md R264): which words are illegal, and their whole effect. -/
def Obligations.IllegalCommandEffect : Prop :=
  (∀ w : CmdWord, (∃ e, decode w = .error e) ↔
    (w.op = 0x00#8 ∨ 0x05#8 ≤ w.op ∨
      ((w.op = 0x01#8 ∨ w.op = 0x02#8 ∨ w.op = 0x04#8) ∧ w.extractLsb' 0 56 ≠ 0#56) ∨
      (w.op = 0x03#8 ∧ w.extractLsb' 24 16 ≠ 0#16))) ∧
  ∀ (s : State) (w : CmdWord) (rest : List HostMove) (e : DecodeError),
    s.seq = .idle → s.host = .offer w :: rest → decode w = .error e →
    step s = .next { s with
      host := rest
      diag := s.diag ++ [{ kind := .illegalCommand, value := w.op.zeroExtend 16 }]
      respStatus := 0x02#8
      respOk := false
      seq := .idle }

/-- The assembler on a line whose text is read (R97, R98): the line of a command assembles to its word, an operand out of range
gives no word, and `.chain N` emits nothing and must agree with the instance. -/
def Obligations.AssemblerEmitsTheEncoding : Prop :=
  (∀ (n : Nat) (i : Instr), assembleLine n i.toAsm = .ok (some (encode i))) ∧
  (∀ n index r g b : Nat, 65535 < index ∨ 255 < r ∨ 255 < g ∨ 255 < b →
    assembleLine n (.setPixel index r g b) = .error .operandRange) ∧
  (∀ n m : Nat, assembleLine n (.chain m) = if m = n then .ok none else .error .chainMismatch)

/-- The assembler on texts (R97, R98): a line of the four commands or the directive, its operands in decimal or hexadecimal,
with or without a comment, is read as that line; a blank or comment line gives no word; a program's words are those of its lines
in order. The spaces, the digit case, and that one line in error refuses the whole program, where R97 says that this line
produces no word, are the model's choice (log entry 22). -/
def Obligations.AssemblerReadsTheText : Prop :=
  (∀ (l : SourceLine) (k : Nat) (c : Option (List Char)), parseLine (l.text ++ lineEnd k c) = .ok (some l.spelled)) ∧
  (∀ (k : Nat) (c : Option (List Char)), parseLine (lineEnd k c) = .ok none) ∧
  (∀ (n : Nat) (l : SourceLine) (k : Nat) (c : Option (List Char)),
    assembleText n (l.text ++ lineEnd k c) =
      match assembleLine n l.spelled with
      | .ok (some w) => .ok [w]
      | .ok none => .ok []
      | .error e => .error e) ∧
  (∀ (n k : Nat) (c : Option (List Char)), assembleText n (lineEnd k c) = .ok []) ∧
  ∀ (n : Nat) (program : List (List Char)) (words : List CmdWord),
    assemble n program = .ok words ↔
      ∃ parts, List.Forall₂ (fun text ws => assembleText n text = .ok ws) program parts ∧ words = parts.flatten

/-! The machine's step (00_scope.md R5, 60_exceptions.md R268, R274). -/

/-- When a legal word stands on the port and cmd_ready = 1, the step is `exec` of the command it spells, on the state with the
word taken from the port. The port's list of host moves is the model's form of it (log entries 7, 24). -/
def Obligations.StepRunsDecodedInstruction : Prop :=
  ∀ (s : State) (w : CmdWord) (rest : List HostMove) (i : Instr),
    s.seq = .idle → s.host = .offer w :: rest → decode w = .ok i → step s = exec i { s with host := rest }

/-- When the sequencer is at rest and no word is accepted, the step is one bit period of the serializer; when it stands inside
a command (no run from rest leaves it there, log entry 1), the step is that step of the command. One bit period per step is
the model's choice (log entry 7). -/
def Obligations.StepWithoutCommandIsOneBitPeriod : Prop :=
  (∀ s : State, s.AtRest → (∀ w rest, s.host = .offer w :: rest → s.seq = .fatal) →
    step s = .next (s.hostWaits.serializerTick)) ∧
  (∀ (s : State) (k : InitStep), s.seq = .initHw k → step s = .next (initStep k s)) ∧
  (∀ (s : State) (k : ShowStep), s.seq = .showFrame k → step s = .next (showStep k s))

/-- Every step answers a next state: no command word and no state stops the machine. That FATAL is a recorded state and
no stop is the model's choice (log entry 8). -/
def Obligations.EveryStepAnswersANextState : Prop := ∀ s : State, ∃ t, step s = .next t

/-- With cmd_ready = 0 no command is accepted and nothing changes (R268(1); L2.9). That this is a next state is the model's
choice (log entry 8). -/
def Obligations.CommandNotAcceptedUnlessReady : Prop :=
  ∀ (i : Instr) (s : State), s.cmdReady = false → exec i s = .next s

/-- The sequencer moves forward only (10_state.md R34): INIT(k) to INIT(k+1), INIT(10) to IDLE, SHOW(k) to SHOW(k+1), SHOW(6)
to IDLE, INIT(1) to FATAL exactly when the windows cannot be established; IDLE and FATAL stand; an accepted command ends in
IDLE, or INIT_HW in FATAL. -/
def Obligations.SequencerMovesForwardOnly : Prop :=
  (∀ (s : State) (k : InitStep), s.seq = .initHw k →
    (k.number = 1 ∧ s.mapped = false ∧ s.mapOk = false ∧ (sequencerStep s).seq = .fatal) ∨
    (¬ (k.number = 1 ∧ s.mapped = false ∧ s.mapOk = false) ∧ k.number < 10 ∧
      ∃ k', (sequencerStep s).seq = .initHw k' ∧ k'.number = k.number + 1) ∨
    (k.number = 10 ∧ (sequencerStep s).seq = .idle)) ∧
  (∀ (s : State) (k : ShowStep), s.seq = .showFrame k →
    (k.number < 6 ∧ ∃ k', (sequencerStep s).seq = .showFrame k' ∧ k'.number = k.number + 1) ∨
    (k.number = 6 ∧ (sequencerStep s).seq = .idle)) ∧
  (∀ s : State, s.seq = .idle ∨ s.seq = .fatal → sequencerStep s = s) ∧
  (∀ (s : State) (i : Instr), s.seq = .idle →
    ∃ t, exec i s = .next t ∧ (t.seq = .idle ∨ (i = .initHw ∧ t.seq = .fatal)))

/-- The response of every accepted word (30_encoding.md R96): resp_ok = 1 exactly when resp_status = OK, each code from the
command and the case that sets it; and the reset pair, the one exception. -/
def Obligations.ResponseOfEveryAcceptedWord : Prop :=
  (State.reset.respStatus = 0x00#8 ∧ State.reset.respOk = false) ∧
  ∀ (s : State) (w : CmdWord) (rest : List HostMove), s.seq = .idle → s.host = .offer w :: rest →
    ∃ t, step s = .next t ∧ (t.respOk = true ↔ t.respStatus = 0x00#8) ∧
      t.respStatus =
        match decode w with
        | .ok .initHw => if s.mapped || s.mapOk then 0x00#8 else 0x03#8
        | .ok .clear => 0x00#8
        | .ok (.setPixel idx _ _ _) => if idx.toNat < s.cfg.numLeds then 0x00#8 else 0x01#8
        | .ok .showFrame => 0x00#8
        | .error _ => 0x02#8

/-- FATAL_ENV (60_exceptions.md R262): its cause and entry (R150), FRAME_OVERLAP recorded first (R268(3), R267), and that FATAL
accepts no command (95_test_vectors.md L2.9), issues no bus transaction, keeps both buffers and is never left. That FATAL is a
next state where R262 speaks of a fault state is the model's choice (log entry 8), and so are the bit periods that a step in FATAL
still is (log entry 7). -/
def Obligations.FatalEnvEntryAndEffect : Prop :=
  (∀ s : State, s.seq = .idle → s.mapped = false → s.mapOk = false →
    exec .initHw s = .next { s with
      respStatus := 0x03#8
      respOk := false
      seq := .fatal
      faults := if s.ser.framePending then { s.faults with frameOverlap := true } else s.faults }) ∧
  (∀ s : State, s.seq = .fatal →
    (∀ i, exec i s = .next s) ∧ s.cmdReady = false ∧
    ∃ t, step s = .next t ∧
      t = { s with ser := t.ser, per := { s.per with sta := t.per.sta }, draws := t.draws, host := t.host })

/-! Register access (40_register_access.md). -/

/-- EstablishWindows (R122): nothing when mapped; else MAP_OK decides between `mapped` and FATAL. No bus transaction. -/
def Obligations.EstablishWindowsCases : Prop :=
  ∀ s : State,
    (s.mapped = true → s.establishWindows = s) ∧
    (s.mapped = false → s.mapOk = true → s.establishWindows = { s with mapped := true }) ∧
    (s.mapped = false → s.mapOk = false →
      s.establishWindows = { s with respStatus := 0x03#8, respOk := false, seq := .fatal })

/-- BitGet (R127): its value and its laws with BitSet and BitClear. -/
def Obligations.BitHelperLaws : Prop :=
  (∀ (v : Word) (n : Fin 32), bitGet v n = ((v >>> n.val) &&& 1#32 == 1#32)) ∧
  (∀ (v : Word) (n : Fin 32), bitGet (bitSet v n) n = true) ∧
  (∀ (v : Word) (n : Fin 32), bitGet (bitClear v n) n = false) ∧
  (∀ (v : Word) (n m : Fin 32), m ≠ n →
    bitGet (bitSet v n) m = bitGet v m ∧ bitGet (bitClear v n) m = bitGet v m) ∧
  bitGet 0x00000024#32 2 = true

/-- WaveSetBit and WaveGetBit (R128, R129): exactly one bit of one word is set, it reads back, every other offset and all other
state are unchanged; beyond the buffer WAVE_OVERRUN is recorded and nothing is written. -/
def Obligations.WaveBitRoundTrip : Prop :=
  ∀ (s : State) (k : Nat), s.wave.length = s.cfg.waveWords →
    (k < s.cfg.waveBits →
      s.waveGetBit k = bitGet (s.waveWord (k / 32)) (bitPos s.cfg.packOrder k) ∧
      s.waveSetBit k = { s with wave := s.wave.set (k / 32) (bitSet (s.waveWord (k / 32)) (bitPos s.cfg.packOrder k)) } ∧
      (s.cfg.packOrder = .lsbFirst → k = 72 → s.waveWord 2 = 0#32 → (s.waveSetBit k).waveWord 2 = 0x00000100#32) ∧
      (s.waveSetBit k).waveGetBit k = true ∧
      ∀ m, m ≠ k → (s.waveSetBit k).waveGetBit m = s.waveGetBit m) ∧
    (s.cfg.waveBits ≤ k → s.waveSetBit k = { s with faults := { s.faults with waveOverrun := true } })

/-- AltFsel (R131): the table, every code from 5 up, and that the value lies in 2..7. -/
def Obligations.AltFselTable : Prop :=
  altFsel 0 = 0b100#3 ∧ altFsel 1 = 0b101#3 ∧ altFsel 2 = 0b110#3 ∧ altFsel 3 = 0b111#3 ∧ altFsel 4 = 0b011#3 ∧
  (∀ a, 5 ≤ a → altFsel a = 0b010#3) ∧ ∀ a, 2 ≤ (altFsel a).toNat ∧ (altFsel a).toNat ≤ 7

/-- GpioSetFunction (R133): one read of `v` and one write of a word whose field of the pin is `f` and whose other 29 bits are
those of `v`; both examples, on the reference layout; nothing else of the engine changes. -/
def Obligations.GpioSetFunctionChangesOneField : Prop :=
  ∀ (s : State) (p : Nat) (f : BitVec 3), ∃ (v v' : Word) (t : State),
    t = s.gpioSetFunction p f ∧
    t = { s with
      trace := s.trace ++ [.rd (fselAddr s.cfg p) v, .wr (fselAddr s.cfg p) v']
      per := t.per
      ser := t.ser
      draws := t.draws } ∧
    v'.extractLsb' (fselShift s.cfg p) 3 = f ∧
    (∀ n, n < fselShift s.cfg p ∨ fselShift s.cfg p + 3 ≤ n → v'.getLsbD n = v.getLsbD n) ∧
    (s.cfg.layout = Layout.reference → f = altFsel 5 → p = 18 →
      (v = 0x00000000#32 → v' = 0x02000000#32) ∧ (v = 0x01249249#32 → v' = 0x02249249#32))

/-- GpioSetFunction at the target, on the reference platform (log entry 6) with a register map where a write reaches its
register (log entry 17): the pin's register ends with the field replaced, every other register and the FIFO are as before. -/
def Obligations.GpioSetFunctionAtTheTarget : Prop :=
  ∀ (s : State) (p : Nat) (f : BitVec 3), soundMap s.cfg = true → s.reference = true → (hp : p / 10 ≤ 5) →
    ∃ v' : Word,
      (s.gpioSetFunction p f).per = { s.per with gpfsel := s.per.gpfsel.set (p / 10) v' } ∧
      (s.gpioSetFunction p f).ser = s.ser ∧
      (s.gpioSetFunction p f).trace =
        s.trace ++ [.rd (fselAddr s.cfg p) (s.per.gpfsel[p / 10]), .wr (fselAddr s.cfg p) v'] ∧
      v'.extractLsb' (fselShift s.cfg p) 3 = f ∧
      ∀ n, n < fselShift s.cfg p ∨ fselShift s.cfg p + 3 ≤ n → v'.getLsbD n = (s.per.gpfsel[p / 10]).getLsbD n

/-- The side effects of the target registers (20_memory.md R77, 60_exceptions.md R278(b)), on a register map where a write reaches
its register (log entry 17). The stopped clock is `channelRuns = false` with BUSY = 0 (log entry 15). -/
def Obligations.TargetRegisterSideEffects : Prop :=
  ∀ (s : State) (v : Word), soundMap s.cfg = true →
    (s.ser.fifo.length < s.cfg.fifoDepth →
      (s.memWrite (regAddr s.cfg .pwmFif1) v).ser.fifo = s.ser.fifo ++ [v]) ∧
    (s.ser.fifo.length + 1 < s.cfg.fifoDepth →
      ((s.memWrite (regAddr s.cfg .pwmFif1) v).memWrite (regAddr s.cfg .pwmFif1) v).ser.fifo = s.ser.fifo ++ [v, v]) ∧
    (s.cfg.fifoDepth ≤ s.ser.fifo.length → (s.memWrite (regAddr s.cfg .pwmFif1) v).ser = s.ser) ∧
    (bitGet v s.cfg.layout.clrf1 = true → (s.memWrite (regAddr s.cfg .pwmCtl) v).ser.fifo = []) ∧
    bitGet (s.memWrite (regAddr s.cfg .pwmCtl) v).per.ctl s.cfg.layout.clrf1 = false ∧
    (∀ n : Fin 32, bitGet (s.memWrite (regAddr s.cfg .pwmSta) v).per.sta n =
      (bitGet s.per.sta n && !(bitGet v n && bitGet (staErrorMask s.cfg) n))) ∧
    (passwordOk s.cfg v = false →
      (s.memWrite (regAddr s.cfg .cmPwmctl) v).per = s.per ∧ (s.memWrite (regAddr s.cfg .cmPwmdiv) v).per = s.per) ∧
    (passwordOk s.cfg v = true → v.getLsbD s.cfg.layout.kill.val = true →
      (s.memWrite (regAddr s.cfg .cmPwmctl) v).channelRuns = false) ∧
    (passwordOk s.cfg v = true → (s.memWrite (regAddr s.cfg .cmPwmctl) v).per.cmCtl.getLsbD s.cfg.layout.busy.val =
      (v.getLsbD s.cfg.layout.enab.val && !v.getLsbD s.cfg.layout.kill.val)) ∧
    (∀ n : Fin 6, (s.memRead (regAddr s.cfg (.gpfsel n))).2.per = s.per ∧
      (s.memRead (regAddr s.cfg (.gpfsel n))).2.ser = s.ser) ∧
    (∀ r : Reg, r ≠ .pwmFif1 →
      ((s.memWrite (regAddr s.cfg r) v).memWrite (regAddr s.cfg r) v).per = (s.memWrite (regAddr s.cfg r) v).per ∧
      ((s.memWrite (regAddr s.cfg r) v).memWrite (regAddr s.cfg r) v).ser = (s.memWrite (regAddr s.cfg r) v).ser)

/-- FULL1 and EMPT1 (10_state.md R44) follow the FIFO: through a push (60_exceptions.md R278(b)), a flush (R278(a)) and an STA
write, which leaves them alone; every other STA bit is the stored one. That the two flags follow the FIFO at once in every state,
after a render too, where U17 of 93_implementation_defined.md says any value in STA, is the model's choice (log entry 14); the
sound map is log entry 17. -/
def Obligations.FifoFlagsFollowTheFifo : Prop :=
  ∀ (s : State) (v : Word), soundMap s.cfg = true →
    bitGet s.staWord s.cfg.layout.full1 = decide (s.cfg.fifoDepth ≤ s.ser.fifo.length) ∧
    bitGet s.staWord s.cfg.layout.empt1 = decide (s.ser.fifo = []) ∧
    (∀ n, n ≠ s.cfg.layout.full1 → n ≠ s.cfg.layout.empt1 → bitGet s.staWord n = bitGet s.per.sta n) ∧
    (0 < s.cfg.fifoDepth → bitGet (s.memWrite (regAddr s.cfg .pwmFif1) v).staWord s.cfg.layout.empt1 = false) ∧
    (bitGet (s.memWrite (regAddr s.cfg .pwmFif1) v).staWord s.cfg.layout.full1 =
      decide (s.cfg.fifoDepth ≤ s.ser.fifo.length + 1)) ∧
    (bitGet v s.cfg.layout.clrf1 = true →
      bitGet (s.memWrite (regAddr s.cfg .pwmCtl) v).staWord s.cfg.layout.empt1 = true) ∧
    (bitGet (s.memWrite (regAddr s.cfg .pwmSta) v).staWord s.cfg.layout.full1 = bitGet s.staWord s.cfg.layout.full1 ∧
      bitGet (s.memWrite (regAddr s.cfg .pwmSta) v).staWord s.cfg.layout.empt1 = bitGet s.staWord s.cfg.layout.empt1)

/-- MemRead (R123) on the reference platform (log entry 6) with a register map where an access reaches its register (log entry
17): the word the register holds, recorded, and nothing else; and a read after a write gives the word written, CLRF1 as 0
(20_memory.md R77, R78). That reserved bits read as written is the model's choice (log entry 6). -/
def Obligations.ReadsReturnWhatTheRegisterHolds : Prop :=
  ∀ s : State, soundMap s.cfg = true → s.reference = true →
    (∀ (r : Reg) (w : Word), s.regWord r = some w →
      s.memRead (regAddr s.cfg r) = (w, { s with trace := s.trace ++ [.rd (regAddr s.cfg r) w] })) ∧
    (∀ r : Reg, s.regWord r = none ↔ r = .pwmFif1) ∧
    ∀ v : Word,
      (∀ r : Reg, r = .pwmDmac ∨ r = .pwmRng1 ∨ (∃ n, r = .gpfsel n) →
        ((s.memWrite (regAddr s.cfg r) v).memRead (regAddr s.cfg r)).1 = v) ∧
      ((s.memWrite (regAddr s.cfg .pwmCtl) v).memRead (regAddr s.cfg .pwmCtl)).1 = bitClear v s.cfg.layout.clrf1

/-- The reference layout is one a platform can have, and gives the formulas and words of the rules: the field of a pin (R130,
10_state.md R41), STA_CLEAR as the mask of the error flags (10_state.md R44). The layout is presumed (log entry 3). -/
def Obligations.ReferenceLayoutFormulas : Prop :=
  ∀ n ts tc d p : Nat,
    soundMap (Config.referenceProfile n ts tc d) = true ∧
    fselAddr (Config.referenceProfile n ts tc d) p = BitVec.ofNat 32 (0x3F200000 + 4 * (p / 10)) ∧
    fselShift (Config.referenceProfile n ts tc d) p = 3 * (p % 10) ∧
    staErrorMask (Config.referenceProfile n ts tc d) = 0x000001FC#32 ∧
    (Config.referenceProfile n ts tc d).staClear = staErrorMask (Config.referenceProfile n ts tc d)

/-- The divisor word (R135): password, floor of the quotient, floor of the scaled fraction, each in its field where the two
fields lie apart (log entry 17); and the worked values of the reference profile (log entry 3). -/
def Obligations.DivisorWordFields : Prop :=
  (∀ c : Config, (cmDivWord c).extractLsb' 24 8 = c.cmPasswd) ∧
  (∀ c : Config, soundMap c = true →
    (1 ≤ divI c → divI c ≤ 4095 →
      ((cmDivWord c).extractLsb' c.layout.divi.val 12).toNat = c.fBase / c.fBit) ∧
    (divF c ≤ 4095 →
      ((cmDivWord c).extractLsb' c.layout.divf.val 12).toNat = (c.fBase % c.fBit) * c.divFracScale / c.fBit)) ∧
  (∀ n a b d, cmDivWord (Config.referenceProfile n a b d) = 0x5A008000#32) ∧
  (∀ n a b d, cmDivWord { Config.referenceProfile n a b d with fBit := 2500000 } = 0x5A0072B8#32)

/-- Every write of INIT_HW to the clock manager carries the password, so that none is ignored (R134,
70_reset_and_hazards.md R304). -/
def Obligations.ClockWritesCarryThePassword : Prop :=
  ∀ (c : Config) (v a w : Word), soundMap c = true → fselAddr c c.pin ≠ regAddr c .cmPwmctl →
    fselAddr c c.pin ≠ regAddr c .cmPwmdiv → BusEvent.wr a w ∈ initHwTrace c v →
    a = regAddr c .cmPwmctl ∨ a = regAddr c .cmPwmdiv → w.extractLsb' 24 8 = c.cmPasswd

/-! INIT_HW (41_init_hw.md). -/

/-- INIT_HW completes whenever the windows can be established (R150 to R162): the ten steps' transactions in order, OK, and
its frame. The LED buffer, the waveform buffer, the diagnostics and all else are as before; the target registers are the
subject of InitHwConfiguresThePeripherals. -/
def Obligations.InitHwRunsTheTenSteps : Prop :=
  ∀ s : State, s.seq = .idle → s.mapped = true ∨ s.mapOk = true →
    ∃ t, exec .initHw s = .next t ∧
      t = { s with
        mapped := true
        initDone := true
        respStatus := 0x00#8
        respOk := true
        seq := .idle
        trace := s.trace ++ initHwTrace s.cfg (s.readValue (fselAddr s.cfg s.cfg.pin))
        faults := if s.ser.framePending then { s.faults with frameOverlap := true } else s.faults
        per := t.per
        ser := t.ser
        draws := t.draws }

/-- What INIT_HW leaves in the target registers and on the wire (R152 to R160), for an elaborated configuration
with a sound register map (log entry 17). BUSY = 1 with the clock running is the model's reading (log entry 15). -/
def Obligations.InitHwConfiguresThePeripherals : Prop :=
  ∀ s : State, s.seq = .idle → s.mapped = true ∨ s.mapOk = true → elaborates s.cfg = true → soundMap s.cfg = true →
    ∃ t, exec .initHw s = .next t ∧
      t.per.ctl = ctlCfg s.cfg ∧ t.per.dmac = 0x00000000#32 ∧ t.per.rng1 = s.cfg.rangeBits ∧
      t.per.cmDiv = cmDivWord s.cfg ∧
      t.per.cmCtl = (cmRunWord s.cfg ||| busyMask s.cfg) ∧
      t.per.sta &&& s.cfg.staClear &&& staErrorMask s.cfg = 0#32 ∧
      t.pinRouted = true ∧
      (∀ n : Fin 6, n.val ≠ s.cfg.pin / 10 → t.per.gpfsel[n] = s.per.gpfsel[n]) ∧
      (s.reference = true → ∀ n : Fin 6, n.val = s.cfg.pin / 10 →
        ∀ m, m < fselShift s.cfg s.cfg.pin ∨ fselShift s.cfg s.cfg.pin + 3 ≤ m →
          (t.per.gpfsel[n]).getLsbD m = (s.per.gpfsel[n]).getLsbD m) ∧
      (s.wireDefined = true → s.ser.framePending = false → t.ser = s.ser)

/-- A second INIT_HW runs again and leaves the peripherals as the first left them (R163), on the reference platform with no
frame pending. -/
def Obligations.SecondInitHwSameConfiguration : Prop :=
  ∀ s : State, s.seq = .idle → s.mapped = true ∨ s.mapOk = true → elaborates s.cfg = true → soundMap s.cfg = true →
    s.reference = true → s.ser.framePending = false →
    ∃ t u, exec .initHw s = .next t ∧ exec .initHw t = .next u ∧ u.per = t.per ∧ u.ser = t.ser ∧
      u.respStatus = 0x00#8 ∧ u.respOk = true ∧ u.faults = s.faults

/-- The trace of INIT_HW and the control words of SHOW on the reference profile, as numbers (R150, 10_state.md R49; L2.7). The
profile is presumed (log entry 3). -/
def Obligations.ReferenceProfileTraces : Prop :=
  ∀ n ts tc d : Nat,
    let c := Config.referenceProfile n ts tc d
    initHwTrace c 0x00000000#32 =
      [.rd 0x3F200004 0x00000000, .wr 0x3F200004 0x02000000, .dly ts, .wr 0x3F1010A0 0x5A000020, .dly tc,
       .wr 0x3F20C008 0x00000000, .dly ts, .wr 0x3F1010A4 0x5A008000, .dly ts, .wr 0x3F1010A0 0x5A000011, .dly ts,
       .wr 0x3F20C000 0x00000000, .dly ts, .wr 0x3F20C010 0x00000020, .dly ts, .wr 0x3F20C004 0x000001FC, .dly ts,
       .wr 0x3F20C000 0x00000022, .dly ts] ∧
    showFrameTrace c [0xDB249249#32] =
      [.wr 0x3F20C000 0x00000022, .dly ts, .wr 0x3F20C000 0x00000022, .dly ts, .wr 0x3F20C000 0x00000062, .dly ts,
       .wr 0x3F20C018 0x924924DB, .dly 1000000, .wr 0x3F20C000 0x00000023]

/-! CLEAR and SET_PIXEL (42_pixel_buffer.md). -/

/-- CLEAR (R180): every slot black, OK, nothing else. -/
def Obligations.ClearBlackensEverySlot : Prop :=
  encode .clear = 0x0200000000000000#64 ∧
  ∀ s : State, s.seq = .idle →
    exec .clear s = .next { s with
      led := List.replicate s.cfg.numLeds { r := 0, g := 0, b := 0 }
      respStatus := 0x00#8
      respOk := true
      seq := .idle }

/-- SET_PIXEL (R181): in range, the slot written whole and OK; out of range, one diagnostic, INDEX_OUT_OF_RANGE, and no
change to any buffer. -/
def Obligations.SetPixelWritesOrRefuses : Prop :=
  (∀ (idx : BitVec 16) (r g b : Byte), encode (.setPixel idx r g b) = 0x03#8 ++ idx ++ 0#16 ++ r ++ g ++ b) ∧
  (∀ (s : State) (idx : BitVec 16) (r g b : Byte), s.seq = .idle → idx.toNat < s.cfg.numLeds →
    exec (.setPixel idx r g b) s = .next { s with
      led := s.led.set idx.toNat { r := r, g := g, b := b }
      respStatus := 0x00#8
      respOk := true
      seq := .idle }) ∧
  (∀ (s : State) (idx : BitVec 16) (r g b : Byte), s.seq = .idle → s.cfg.numLeds ≤ idx.toNat →
    exec (.setPixel idx r g b) s = .next { s with
      diag := s.diag ++ [{ kind := .indexOutOfRange, value := idx }]
      respStatus := 0x01#8
      respOk := false
      seq := .idle })

/-- Write-behind (R183): CLEAR and SET_PIXEL leave the waveform buffer, the target, the FIFO, the wire, the trace and the
flags as they were, with a frame pending or not. -/
def Obligations.PixelCommandsAreWriteBehind : Prop :=
  ∀ (s : State) (i : Instr), s.seq = .idle → (i = .clear ∨ ∃ idx r g b, i = .setPixel idx r g b) →
    ∃ t, exec i s = .next t ∧
      t = { s with led := t.led, diag := t.diag, respStatus := t.respStatus, respOk := t.respOk }

/-- Independence (R185): a successful SET_PIXEL at index i changes slot i only, a failed one no slot; and after it a SHOW
gives the codeword of its colour at offset 72i and everywhere else what a SHOW without it gives. -/
def Obligations.SetPixelChangesOneCodeword : Prop :=
  ∀ (s : State) (idx : BitVec 16) (r g b : Byte), s.seq = .idle → s.Sized →
    (s.cfg.numLeds ≤ idx.toNat → ∃ t, exec (.setPixel idx r g b) s = .next t ∧ t.led = s.led) ∧
    (idx.toNat < s.cfg.numLeds → ∃ t u v,
      exec (.setPixel idx r g b) s = .next t ∧ exec .showFrame t = .next u ∧ exec .showFrame s = .next v ∧
      t.led[idx.toNat]? = some { r := r, g := g, b := b } ∧ (∀ j, j ≠ idx.toNat → t.led[j]? = s.led[j]?) ∧
      (∀ k, k < 72 →
        u.waveGetBit (72 * idx.toNat + k) = (code72 { r := r, g := g, b := b }).getD k false) ∧
      ∀ k, k < s.cfg.waveBits → k / 72 ≠ idx.toNat → u.waveGetBit k = v.waveGetBit k)

/-! The encoder (43_encoder.md, 30_encoding.md). -/

/-- The GRB word and the codeword (30_encoding.md R101 to R103): green, red, blue from the top; 72 bits; triplet j is that of
GRB bit 23 - j; and the number of 1 bits (R203). -/
def Obligations.CodewordStructure : Prop :=
  ∀ c : Color,
    (grb c).extractLsb' 16 8 = c.g ∧ (grb c).extractLsb' 8 8 = c.r ∧ (grb c).extractLsb' 0 8 = c.b ∧
    (code72 c).length = 72 ∧
    (∀ j, j < 24 →
      ((code72 c).drop (3 * j)).take 3 = trip ((grb c).getLsbD (23 - j)) ∧
      (code72 c)[3 * j]? = some true ∧ (code72 c)[3 * j + 1]? = some ((grb c).getLsbD (23 - j)) ∧
      (code72 c)[3 * j + 2]? = some false) ∧
    (code72 c).count true = 24 + (List.range 24).countP fun j => (grb c).getLsbD j

/-- rev32 (R209): bit j is bit 31 - j; its own inverse; and the examples. -/
def Obligations.BitReversalLaws : Prop :=
  (∀ (v : Word) (j : Nat), j < 32 → (rev32 v).getLsbD j = v.getLsbD (31 - j)) ∧ (∀ v : Word, rev32 (rev32 v) = v) ∧
  rev32 0#32 = 0#32 ∧ rev32 0xFFFFFFFF#32 = 0xFFFFFFFF#32 ∧ rev32 0x00000001#32 = 0x80000000#32 ∧
  rev32 0xDB249249#32 = 0x924924DB#32

/-- Wire order (30_encoding.md R106, R107): for either PACK_ORDER, the t-th bit shifted out of the FIFO word of a waveform
word is the bit at the t-th stream offset of that word. -/
def Obligations.ReversedWordsShiftOutInStreamOrder : Prop :=
  ∀ (o : PackOrder) (v : Word) (t : Nat), t < 32 → (shiftOrder o (rev32 v))[t]? = some (bitGet v (bitPos o t))

/-- The layout of the waveform buffer (30_encoding.md R105): the word and the bit of each stream offset under either
PACK_ORDER; every offset has exactly one position, and word w holds the offsets 32w to 32w + 31. -/
def Obligations.StreamOffsetsHaveOnePosition : Prop :=
  (∀ k : Nat, wordIndex k = k / 32 ∧ (bitPos .lsbFirst k).val = k % 32 ∧ (bitPos .msbFirst k).val = 31 - k % 32) ∧
  (∀ (o : PackOrder) (k m : Nat), wordIndex k = wordIndex m → bitPos o k = bitPos o m → k = m) ∧
  ∀ (o : PackOrder) (w : Nat) (n : Fin 32), ∃ k, 32 * w ≤ k ∧ k < 32 * w + 32 ∧ wordIndex k = w ∧ bitPos o k = n

/-! SHOW (44_show.md). -/

/-- SHOW completes from every sized state, with or without a previous INIT_HW (R230, R240, 43_encoder.md R207): the buffer
holds the frame bit for bit, the transactions are those of the six steps, OK, a frame is pending; the LED buffer, `mapped`,
`init_done`, the diagnostics and all else are as before. The target is the subject of ShowHandsTheFrameToTheFifo. -/
def Obligations.ShowEncodesAndTransmits : Prop :=
  ∀ s : State, s.seq = .idle → s.Sized →
    ∃ t, exec .showFrame s = .next t ∧
      t = { s with
        wave := t.wave
        respStatus := 0x00#8
        respOk := true
        seq := .idle
        trace := s.trace ++ showFrameTrace s.cfg t.wave
        faults := if s.ser.framePending then { s.faults with frameOverlap := true } else s.faults
        per := t.per
        ser := t.ser
        draws := t.draws } ∧
      t.wave.length = s.cfg.waveWords ∧
      (∀ k, k < s.cfg.waveBits → t.waveGetBit k = (frame s.cfg s.led).getD k false) ∧
      t.ser.framePending = true

/-- What SHOW leaves at the target (R231 to R236): CTL_RUN in CTL and every other register as before but STA, which is any value
after a render (93_implementation_defined.md U17, log entry 14); the FIFO holds exactly the reversed words in order; where no frame was cut the wire is as before.
The sound map is log entry 17, the empty half-shifted word log entry 13. -/
def Obligations.ShowHandsTheFrameToTheFifo : Prop :=
  ∀ s : State, s.seq = .idle → s.Sized → soundMap s.cfg = true →
    ∃ t, exec .showFrame s = .next t ∧
      t.per = { s.per with ctl := ctlRun s.cfg, sta := t.per.sta } ∧
      t.ser.fifo = t.wave.map rev32 ∧ t.ser.shift = [] ∧ t.ser.framePending = true ∧
      (s.wireDefined = true → s.ser.framePending = false → t.ser.wire = s.ser.wire)

/-- Determinism and idempotence (43_encoder.md R211): the buffer after SHOW depends on the configuration and the LED buffer
alone, and a second SHOW leaves the same words. -/
def Obligations.RenderDependsOnLedsAlone : Prop :=
  ∀ s t : State, s.seq = .idle → t.seq = .idle → s.Sized → t.Sized → t.cfg = s.cfg → t.led = s.led →
    ∃ u v w, exec .showFrame s = .next u ∧ exec .showFrame t = .next v ∧ u.wave = v.wave ∧
      exec .showFrame u = .next w ∧ w.wave = u.wave

/-- The cleared buffer (43_encoder.md R212, 90_conflicts.md C1): after CLEAR and SHOW, bit k is 1 exactly when k < 72N and
k mod 3 = 0; all words are zero only when N = 0. -/
def Obligations.ClearedChainIsNotAllZero : Prop :=
  ∀ s : State, s.seq = .idle → s.Sized →
    ∃ t u, exec .clear s = .next t ∧ exec .showFrame t = .next u ∧
      (∀ k, k < s.cfg.waveBits → u.waveGetBit k = (decide (k < 72 * s.cfg.numLeds) && decide (k % 3 = 0))) ∧
      ((∀ k, k < s.cfg.waveBits → u.waveGetBit k = false) ↔ s.cfg.numLeds = 0)

/-- FRAME_OVERLAP (60_exceptions.md R267, 70_reset_and_hazards.md R301) is recorded by INIT_HW and SHOW exactly when a frame is
pending, by no other command, and WAVE_OVERRUN by none on a sized state. -/
def Obligations.FrameOverlapIsRecorded : Prop :=
  ∀ (s : State) (i : Instr), s.seq = .idle → s.Sized →
    ∃ t, exec i s = .next t ∧ t.faults.waveOverrun = s.faults.waveOverrun ∧
      t.faults.frameOverlap =
        (s.faults.frameOverlap || (s.ser.framePending && (decide (i = .initHw) || decide (i = .showFrame))))

/-- The delays of the two commands (70_reset_and_hazards.md R306): 3 × T_SETTLE + WAVE_WORDS × T_FIFO for SHOW and
8 × T_SETTLE + T_CLK_STOP for INIT_HW. -/
def Obligations.DelayLowerBounds : Prop :=
  ∀ s : State, s.seq = .idle → s.Sized →
    (∃ t, exec .showFrame s = .next t ∧
      delaySum t.trace = delaySum s.trace + (3 * s.cfg.tSettle + s.cfg.waveWords * s.cfg.tFifo)) ∧
    (s.mapped = true ∨ s.mapOk = true → ∃ t, exec .initHw s = .next t ∧
      delaySum t.trace = delaySum s.trace + (8 * s.cfg.tSettle + s.cfg.tClkStop))

/-! The serializer and the wire (R238, 60_exceptions.md R278). -/

/-- One bit period of a defined emission (R238, R278(d), (e)): the next remaining bit goes on the wire; with the last one, or
when none remains, the line is then held low and frame_pending is cleared (70_reset_and_hazards.md R301). One bit period per step
is the model's choice (log entry 7). -/
def Obligations.SerializerEmitsTheNextBit : Prop :=
  ∀ s : State, s.seq = .idle → s.host = [] → s.wireDefined = true → s.ser.framePending = true → s.channelRuns = true →
    s.serializerMode = true →
    ∃ t, step s = .next t ∧
      match s.ser.remaining s.cfg.packOrder with
      | b :: c :: rest =>
        t.ser.wire = s.ser.wire ++ [.bit b] ∧ t.outputLevel = b ∧ t.ser.remaining s.cfg.packOrder = c :: rest ∧
          t.ser.framePending = true
      | [b] =>
        t.ser.wire = s.ser.wire ++ [.bit b, .low] ∧ t.outputLevel = false ∧ t.ser.framePending = false ∧ t.ser.fifo = [] ∧
          t.ser.shift = []
      | [] =>
        t.ser.wire = s.ser.wire ++ [.low] ∧ t.outputLevel = false ∧ t.ser.framePending = false ∧ t.ser.fifo = [] ∧
          t.ser.shift = []

/-- While no frame is pending, the channel is disabled or its clock is stopped, nothing is emitted, and the output is low while
PWEN1 = 0 (R278(c)), where the wire is defined. That a stopped clock emits nothing is the model's reading (log entry 15). -/
def Obligations.DisabledChannelEmitsNothing : Prop :=
  ∀ s : State, s.AtRest → s.host = [] → s.wireDefined = true → (s.ser.framePending && s.channelRuns) = false →
    step s = .next s ∧ (bitGet s.per.ctl s.cfg.layout.pwen1 = false → s.outputLevel = false)

/-- Between two frames the line is low and stays low (R238, R239, R278(e)): in every state of the invariant in which the wire is
defined with 32 bits a word and no frame is pending, with the channel still enabled or not, the output is low, and any number of
bit periods without a command changes nothing. -/
def Obligations.LineStaysLowBetweenFrames : Prop :=
  ∀ (s : State) (n : Nat), s.Inv → s.host = [] → s.cfg.rangeBits = 32#32 → s.wireDefined = true → s.ser.framePending = false →
    s.outputLevel = false ∧ State.after n s = .next s

/-- The wire carries the frame (R238): after INIT_HW, a SHOW with no frame pending followed by WAVE_BITS bit periods
(70_reset_and_hazards.md R301) without a command puts exactly frame(led) on the wire, then low, and clears frame_pending. The premises are log entries 6 and
17, the count of steps log entry 7. -/
def Obligations.WireCarriesExactlyTheFrame : Prop :=
  ∀ s : State, s.seq = .idle → s.host = [] → s.Sized → soundMap s.cfg = true → s.wireDefined = true → s.Configured →
    s.cfg.rangeBits = 32#32 → s.ser.framePending = false →
    ∃ t u, exec .showFrame s = .next t ∧ State.after s.cfg.waveBits t = .next u ∧
      u.ser.wire = s.ser.wire ++ (frame s.cfg s.led).map WireEvent.bit ++ [.low] ∧
      u.ser.framePending = false ∧ u.ser.fifo = []

/-! Whole-machine rules. -/

/-- The engine issues no transaction outside the list of 10_state.md R49 (R52, 20_memory.md R85): what a step adds to the
trace is listed, and the trace before it stays. -/
def Obligations.OnlyListedTransactions : Prop :=
  ∀ s : State, s.Sized →
    ∃ t new, step s = .next t ∧ t.trace = s.trace ++ new ∧ ∀ e ∈ new, listedEvent s.cfg e

/-- What no step undoes (10_state.md R30, R35, R38, R39, R51; 60_exceptions.md R267): the configuration and the premises (log
entries 2, 5, 6) never change, the trace, the diagnostics and the wire only grow, `mapped`, `init_done` and every recorded
fault stay, FATAL is never left. -/
def Obligations.HistoryOnlyGrows : Prop :=
  ∀ s : State, s.Sized →
    ∃ t, step s = .next t ∧ t.cfg = s.cfg ∧ t.reference = s.reference ∧ t.mapOk = s.mapOk ∧
      s.trace <+: t.trace ∧ s.diag <+: t.diag ∧ s.ser.wire <+: t.ser.wire ∧
      (s.mapped = true → t.mapped = true) ∧ (s.initDone = true → t.initDone = true) ∧
      (∀ f, s.faults.has f = true → t.faults.has f = true) ∧ (s.seq = .fatal → t.seq = .fatal)

/-- Who writes the buffers (10_state.md R31, R32; 20_memory.md R84): a step that changes the LED buffer accepted CLEAR or
SET_PIXEL; a step at rest that changes the waveform buffer accepted SHOW. Accepted: the sequencer is idle and the word stands first
on the port (60_exceptions.md R268). -/
def Obligations.BufferWriters : Prop :=
  ∀ s : State, s.AtRest →
    ∃ t, step s = .next t ∧
      (t.led ≠ s.led → ∃ w rest, s.seq = .idle ∧ s.host = .offer w :: rest ∧
        (decode w = .ok .clear ∨ ∃ idx r g b, decode w = .ok (.setPixel idx r g b))) ∧
      (t.wave ≠ s.wave → ∃ w rest, s.seq = .idle ∧ s.host = .offer w :: rest ∧ decode w = .ok .showFrame)

/-! Elaboration, reset and the invariant (70_reset_and_hazards.md R290, R295; 10_state.md R53). -/

/-- Which configurations have an instance (R295, with the offsets of 20_memory.md R72 and R75, log entry 18, and the fixed parameters
of 00_scope.md R10, log entry 19), and that the instance is the constructed one. -/
def Obligations.ElaborationChecks : Prop :=
  ∀ (c : Config) (per : Peripherals) (fifo : List Word) (sh : BitStream) (r m : Bool) (s : State),
    elaborate c per fifo sh r m = .ok s ↔
      (s = State.construct c per fifo sh r m ∧
        (1 ≤ c.waveWords ∧ 72 * c.numLeds ≤ 32 * c.waveWords) ∧
        c.waveWords ≤ c.fifoDepth ∧
        (1 ≤ c.fBase / c.fBit ∧ c.fBase / c.fBit ≤ 4095) ∧
        c.pin / 10 ≤ 5 ∧
        (∀ off ∈ [c.gpioOff, c.pwmOff, c.clkOff, c.dmaOff],
          (c.periBase + off) % 4096 = 0 ∧ c.periBase + off + 4095 ≤ 0xFFFFFFFF) ∧
        (0 < c.tSettle ∧ c.tSettle ≤ c.tClkStop ∧ 0 < c.tFifo) ∧
        (∀ reg : Reg, regOffset c reg % 4 = 0 ∧ regOffset c reg < 4096) ∧
        c.bitsPerLed = 72 ∧ c.windowBytes = 4096 ∧ c.indexWidth = 16)

/-- Capacity (00_scope.md R9, 43_encoder.md R210): an elaborated chain is at most NMAX = floor(WAVE_BITS / 72) long, and NMAX is
7 for 16 words. -/
def Obligations.ElaboratedChainFits : Prop :=
  ∀ c : Config, elaborates c = true →
    c.numLeds ≤ c.nMax ∧ c.nMax = c.waveBits / 72 ∧ (c.waveWords = 16 → c.nMax = 7)

/-- Every transaction address of an elaborated configuration is 4-aligned and stands inside its window (20_memory.md R72,
R75). -/
def Obligations.AddressesAlignedInsideWindows : Prop :=
  ∀ (c : Config) (r : Reg), elaborates c = true →
    (regAddr c r).toNat = windowBase c r.window + regOffset c r ∧ (regAddr c r).toNat % 4 = 0 ∧
      windowBase c r.window ≤ (regAddr c r).toNat ∧ (regAddr c r).toNat < windowBase c r.window + 4096

/-- The values after reset (10_state.md R53). -/
def Obligations.ResetValues : Prop :=
  State.reset.led = List.replicate State.reset.cfg.numLeds { r := 0, g := 0, b := 0 } ∧
  State.reset.wave = List.replicate State.reset.cfg.waveWords 0x00000000#32 ∧
  State.reset.seq = .idle ∧ State.reset.cmdReady = true ∧ State.reset.mapped = false ∧ State.reset.initDone = false ∧
  State.reset.respStatus = 0x00#8 ∧ State.reset.respOk = false ∧ State.reset.trace = [] ∧ State.reset.diag = [] ∧
  State.reset.ser.framePending = false ∧ State.reset.faults = { frameOverlap := false, waveOverrun := false }

/-- The invariant (State.Inv, which names the log entries its clauses rest on) holds at reset. -/
def Obligations.InvariantAtReset : Prop := State.reset.Inv

/-- Every step keeps the invariant: buffer sizes, a legal resting position, a legal response, FATAL only before mapping, the
FIFO within its depth, the bring-up configuration once INIT_HW has completed, and a low line between frames. Three clauses rest on
the model's choices: `atRest` on log entry 1 (no step ends inside a command); `configured` on log entry 15 (in CM_PWMCTL BUSY = 1
with ENAB = 1 and KILL = 0, and the password byte held there and in CM_PWMDIV) and on log entry 17 (the sound map, its premise);
`low` on log entries 6, 15 and 17 (when the wire is defined, when the clock runs). -/
def Obligations.InvariantKeptByEveryStep : Prop :=
  ∀ s t : State, s.Inv → step s = .next t → t.Inv

/-! What a bit period leaves unchanged. -/

/-- The frame of a bit period (00_scope.md R5, 10_state.md R50, R52, 20_memory.md R84): from every state at rest whose step accepts
no word, with the wire defined or not, the step changes nothing but the serializer, PWM STA, the draws and the host's list, which
loses a wait that stood first and nothing else. FIFO words only leave, the wire only grows, frame_pending is only cleared (R50, R238);
and where the wire is defined and no frame is emitted (R278) the serializer, STA and the draws stay too. One bit period per step is
log entry 7, the free value in STA log entry 14, what happens on an undefined wire log entry 11, the stopped clock log entry 15. -/
def Obligations.BitPeriodFrame : Prop :=
  ∀ s : State, s.AtRest → (∀ w rest, s.host = .offer w :: rest → s.seq = .fatal) →
    ∃ t, step s = .next t ∧
      t = { s with ser := t.ser, per := { s.per with sta := t.per.sta }, draws := t.draws, host := t.host } ∧
      (t.host = match s.host with
        | .wait :: rest => rest
        | moves => moves) ∧
      t.ser.fifo <:+ s.ser.fifo ∧ s.ser.wire <+: t.ser.wire ∧ (t.ser.framePending = true → s.ser.framePending = true) ∧
      (s.wireDefined = true → (s.ser.framePending && s.channelRuns) = false →
        t.ser = s.ser ∧ t.per = s.per ∧ t.draws = s.draws)
end

