-- ==== Sys2Proof/Laws/Assembler.lean ====
section
/-! SUPPORT. What the assembler's readers do with the texts of 30_encoding.md R97 and R98. -/

namespace Sys2Proof.Machine

theorem decimalChar_spec (d : Fin 10) :
    decimalChar d ≠ ';' ∧ decimalChar d ≠ ',' ∧ decimalChar d ≠ 'x' ∧ isBlank (decimalChar d) = false ∧
      digitValue (decimalChar d) = some d.val := by
  revert d; decide +kernel

theorem hexChar_spec (d : HexDigit) :
    hexChar d ≠ ';' ∧ hexChar d ≠ ',' ∧ isBlank (hexChar d) = false ∧ digitValue (hexChar d) = some d.value.val := by
  have all : ∀ (v : Fin 16) (u : Bool), hexChar ⟨v, u⟩ ≠ ';' ∧ hexChar ⟨v, u⟩ ≠ ',' ∧ isBlank (hexChar ⟨v, u⟩) = false ∧
      digitValue (hexChar ⟨v, u⟩) = some v.val := by decide +kernel
  exact all d.value d.upper

/-- A numeral is one word: no blank, comma or comment sign in it. -/
theorem Numeral.text_chars (n : Numeral) : ∀ x ∈ n.text, x ≠ ';' ∧ x ≠ ',' ∧ isBlank x = false := by
  intro x hx
  cases n with
  | decimal d ds =>
    obtain ⟨y, -, rfl⟩ := List.mem_map.mp hx
    obtain ⟨h1, h2, -, h3, -⟩ := decimalChar_spec y
    exact ⟨h1, h2, h3⟩
  | hex d ds =>
    rcases List.mem_append.mp hx with hx | hx
    · rcases List.mem_pair.mp hx with rfl | rfl <;> decide
    · obtain ⟨y, -, rfl⟩ := List.mem_map.mp hx
      obtain ⟨h1, h2, h3, -⟩ := hexChar_spec y
      exact ⟨h1, h2, h3⟩

theorem Numeral.text_ne_nil (n : Numeral) : n.text ≠ [] := by cases n <;> simp [Numeral.text]

theorem digitsValue_decimal (ds : List (Fin 10)) (acc : Nat) :
    digitsValue 10 acc (ds.map decimalChar) = some (ds.foldl (fun n d => 10 * n + d.val) acc) := by
  induction ds generalizing acc with
  | nil => rfl
  | cons d ds ih =>
    simp only [List.map_cons, digitsValue, (decimalChar_spec d).2.2.2.2, d.isLt, if_true, List.foldl_cons]
    rw [ih, Nat.mul_comm]

theorem digitsValue_hex (ds : List HexDigit) (acc : Nat) :
    digitsValue 16 acc (ds.map hexChar) = some (ds.foldl (fun n d => 16 * n + d.value.val) acc) := by
  induction ds generalizing acc with
  | nil => rfl
  | cons d ds ih =>
    simp only [List.map_cons, digitsValue, (hexChar_spec d).2.2.2, d.value.isLt, if_true, List.foldl_cons]
    rw [ih, Nat.mul_comm]

/-- A numeral reads as its number (R97). -/
theorem parseNumber_text (n : Numeral) : parseNumber n.text = some n.number := by
  cases n with
  | hex d ds => exact digitsValue_hex (d :: ds) 0
  | decimal d ds =>
    have := digitsValue_decimal (d :: ds) 0
    simp only [Numeral.text, Numeral.number]
    rw [← this]
    simp only [List.map_cons]
    unfold parseNumber
    split
    · rename_i hx
      cases ds with
      | nil => simp at hx
      | cons y ys => simp at hx; exact absurd hx.2.1 (decimalChar_spec y).2.2.1
    · rename_i h; injection h with h1 h2; subst h1; subst h2; rfl
    · rename_i h; cases h

/-- The end of a line without its comment is its spaces (R97). -/
theorem dropComment_lineEnd {t : List Char} (h : ';' ∉ t) (k : Nat) (c : Option (List Char)) :
    dropComment (t ++ lineEnd k c) = t ++ List.replicate k ' ' := by
  have keep : ∀ x ∈ t ++ List.replicate k ' ', (x != ';') = true := by
    intro x hx
    rcases List.mem_append.mp hx with hx | hx
    · simp; rintro rfl; exact h hx
    · rw [(List.mem_replicate.mp hx).2]; decide
  cases c with
  | none => simpa [dropComment, lineEnd] using List.takeWhile_eq_self_iff.mpr keep
  | some text =>
    simp only [dropComment, lineEnd, ← List.append_assoc]
    rw [List.takeWhile_append_of_pos keep]
    simp

theorem dropWhile_spaces (k : Nat) (t : List Char) :
    (List.replicate k ' ' ++ t).dropWhile isBlank = t.dropWhile isBlank := by
  induction k with
  | zero => rfl
  | succ k ih => rw [List.replicate_succ, List.cons_append, List.dropWhile_cons_of_pos (by decide), ih]

/-- A text with no blank at its two ends is what remains of it with spaces after it. -/
theorem trimBlanks_spaces {a b : Char} (m : List Char) (k : Nat) (ha : isBlank a = false) (hb : isBlank b = false) :
    trimBlanks (a :: m ++ [b] ++ List.replicate k ' ') = a :: m ++ [b] := by
  have : (a :: m ++ [b] ++ List.replicate k ' ').dropWhile isBlank = a :: m ++ [b] ++ List.replicate k ' ' := by
    simp [ha]
  rw [trimBlanks, this, List.reverse_append, List.reverse_replicate, dropWhile_spaces, List.reverse_append]
  simp [hb]

/-- Operands are split at the commas between them (R97). -/
theorem splitCommas_append {t : List Char} (r : List Char) (h : ',' ∉ t) :
    splitCommas (t ++ ',' :: r) = t :: splitCommas r := by
  induction t with
  | nil => rfl
  | cons c t ih =>
    simp at h
    rw [List.cons_append, splitCommas, if_neg (by simpa using Ne.symm h.1), ih h.2]

end Sys2Proof.Machine
end

