-- ==== Sys2Proof/Laws/Operands.lean ====
section
/-! SUPPORT. What the operand computations do: bits, positions, addresses, fields, clock words. -/

namespace Sys2Proof.Machine

theorem bitGet_bitMask (n m : Fin 32) : bitGet (bitMask n) m = decide (m = n) := by
  revert n m; decide +kernel

theorem bitGet_or (v w : Word) (m : Fin 32) : bitGet (v ||| w) m = (bitGet v m || bitGet w m) := by
  simp [bitGet]

theorem bitGet_bitSet (v : Word) (n m : Fin 32) : bitGet (bitSet v n) m = (bitGet v m || decide (m = n)) := by
  rw [bitSet, bitGet_or, bitGet_bitMask]

theorem bitGet_bitClear (v : Word) (n m : Fin 32) : bitGet (bitClear v n) m = (bitGet v m && !decide (m = n)) := by
  have h := bitGet_bitMask n m
  simp only [bitGet, bitClear] at *
  rw [BitVec.getLsbD_and, BitVec.getLsbD_not, h]
  simp [m.isLt]

theorem bitGet_bitPut_self (v : Word) (n : Fin 32) (b : Bool) : bitGet (bitPut v n b) n = b := by
  cases b <;> simp [bitPut, bitGet_bitSet, bitGet_bitClear]

theorem bitGet_bitPut_ne (v : Word) {n m : Fin 32} (b : Bool) (h : m ≠ n) : bitGet (bitPut v n b) m = bitGet v m := by
  cases b <;> simp [bitPut, bitGet_bitSet, bitGet_bitClear, h]

theorem word_ext {v w : Word} (h : ∀ n : Fin 32, bitGet v n = bitGet w n) : v = w :=
  BitVec.eq_of_getLsbD_eq fun i hi => h ⟨i, hi⟩

theorem rev32_getLsbD (v : Word) {j : Nat} (h : j < 32) : (rev32 v).getLsbD j = v.getLsbD (31 - j) := by
  rw [rev32, BitVec.getLsbD_reverse, BitVec.getMsbD]; simp [h]

/-- A stream offset has exactly one position (30_encoding.md R105). -/
theorem offset_eq_of_position (o : PackOrder) {k m : Nat} (hw : wordIndex k = wordIndex m) (hb : bitPos o k = bitPos o m) :
    k = m := by
  have hmod : k % 32 = m % 32 := by
    cases o with
    | lsbFirst => simpa [bitPos, Fin.ext_iff] using hb
    | msbFirst =>
      have := Fin.rev_injective hb
      simpa [Fin.ext_iff] using this
  have := Nat.div_add_mod k 32
  have := Nat.div_add_mod m 32
  simp only [wordIndex] at hw
  omega

theorem Reg.mem_all (r : Reg) : r ∈ Reg.all := by
  cases r with
  | gpfsel n => revert n; decide
  | _ => decide

theorem find_of_nodup {α β : Type} [DecidableEq β] (f : α → β) (l : List α) (hn : (l.map f).Nodup) {x : α} (hx : x ∈ l) :
    l.find? (fun y => f y == f x) = some x := by
  induction l with
  | nil => cases hx
  | cons y ys ih =>
    rw [List.map_cons, List.nodup_cons] at hn
    by_cases h : f y = f x
    · have : x = y := by
        rcases List.mem_cons.mp hx with h' | h'
        · exact h'
        · exact absurd (h ▸ List.mem_map_of_mem h') hn.1
      simp [this]
    · rcases List.mem_cons.mp hx with h' | h'
      · exact absurd (h' ▸ rfl) h
      · simpa [List.find?_cons, beq_eq_false_iff_ne.mpr h] using ih hn.2 h'

/-- On a sound map a transaction reaches the register it names (20_memory.md R72). -/
theorem decodeAddr_regAddr {c : Config} (h : soundMap c = true) (r : Reg) : decodeAddr c (regAddr c r) = some r := by
  have hn : (registerAddrs c).Nodup := of_decide_eq_true ((Bool.and_eq_true _ _).mp h).1
  exact find_of_nodup (regAddr c) Reg.all hn.of_append_left (Reg.mem_all r)

/-- On a sound map no two fields of a register share a bit (10_state.md R41 to R48). -/
theorem soundMap_fields {c : Config} (h : soundMap c = true) :
    (fselBits c.layout).Nodup ∧ (ctlBits c.layout).Nodup ∧ (staBits c.layout).Nodup ∧ (dmacBits c.layout).Nodup ∧
      (cmCtlBits c.layout).Nodup ∧ (cmDivBits c.layout).Nodup := by
  simpa [fieldsApart, and_assoc] using ((Bool.and_eq_true _ _).mp h).2

theorem mem_fieldBits {pos width n : Nat} : n ∈ fieldBits pos width ↔ pos ≤ n ∧ n < pos + width := by
  simp [fieldBits, List.mem_range'_1]

/-- The eight single-bit fields of CTL stand at eight bits (R42). -/
theorem soundMap_ctlNodup {c : Config} (h : soundMap c = true) :
    [c.layout.pwen1, c.layout.mode1, c.layout.rptl1, c.layout.sbit1, c.layout.pola1, c.layout.usef1, c.layout.clrf1,
      c.layout.msen1].Nodup :=
  (soundMap_fields h).2.1.of_append_left.of_map

/-- KILL, ENAB and BUSY are three bits, none in the SRC field (R47). -/
theorem soundMap_clock {c : Config} (h : soundMap c = true) :
    (c.layout.kill.val ≠ c.layout.enab.val ∧ c.layout.kill.val ≠ c.layout.busy.val ∧
      c.layout.enab.val ≠ c.layout.busy.val) ∧
    ∀ n, n = c.layout.kill.val ∨ n = c.layout.enab.val ∨ n = c.layout.busy.val →
      n < c.layout.src.val ∨ c.layout.src.val + 4 ≤ n := by
  have hn := (soundMap_fields h).2.2.2.2.1
  rw [cmCtlBits, List.append_assoc, List.nodup_append] at hn
  obtain ⟨h1, -, h3⟩ := hn
  simp at h1
  refine ⟨⟨h1.1.1, h1.1.2.1, h1.2.1.1⟩, fun n hn => ?_⟩
  by_contra hc
  refine h3 n ?_ n (List.mem_append_left _ (mem_fieldBits.mpr (by omega))) rfl
  rcases hn with rfl | rfl | rfl <;> simp

/-- FULL1 and EMPT1 are two bits of STA, neither an error flag (R44). -/
theorem soundMap_sta {c : Config} (h : soundMap c = true) :
    c.layout.full1 ≠ c.layout.empt1 ∧ bitGet (staErrorMask c) c.layout.full1 = false ∧
      bitGet (staErrorMask c) c.layout.empt1 = false := by
  have hn := (soundMap_fields h).2.2.1.of_map
  have hg : c.layout.gapo.toList = [c.layout.gapo[0], c.layout.gapo[1], c.layout.gapo[2], c.layout.gapo[3]] := by
    rcases c.layout.gapo with ⟨⟨l⟩, hl⟩
    match l, hl with
    | [_, _, _, _], _ => rfl
  rw [hg] at hn
  simp only [List.cons_append, List.nil_append, List.nodup_cons, List.mem_cons, not_or] at hn
  obtain ⟨⟨a1, a2, a3, a4, a5, a6, a7, a8, -⟩, ⟨b1, b2, b3, b4, b5, b6, b7, -⟩, -⟩ := hn
  simp only [staErrorMask, bitGet_or, bitGet_bitMask, Bool.or_eq_false_iff, decide_eq_false_iff_not]
  exact ⟨a1, ⟨⟨⟨⟨⟨⟨a2, a3⟩, a4⟩, a5⟩, a6⟩, a7⟩, a8⟩, ⟨⟨⟨⟨⟨⟨b1, b2⟩, b3⟩, b4⟩, b5⟩, b6⟩, b7⟩⟩

/-- The two fields of CM_PWMDIV lie apart (R48). -/
theorem soundMap_divisor {c : Config} (h : soundMap c = true) :
    c.layout.divi.val + 12 ≤ c.layout.divf.val ∨ c.layout.divf.val + 12 ≤ c.layout.divi.val := by
  have hn := (soundMap_fields h).2.2.2.2.2
  rw [cmDivBits, List.nodup_append] at hn
  by_contra hc
  have := hn.2.2 (max c.layout.divi.val c.layout.divf.val)
  exact this (mem_fieldBits.mpr (by omega)) _ (mem_fieldBits.mpr (by omega)) rfl

/-- The function-select register of a pin (40_register_access.md R130). -/
theorem fselAddr_eq (c : Config) {p : Nat} (h : p / 10 ≤ 5) :
    fselAddr c p = regAddr c (.gpfsel ⟨p / 10, by omega⟩) := rfl

theorem fselShift_le (c : Config) (p : Nat) : fselShift c p ≤ 29 := by
  have := (c.layout.fselPos[p % 10]).isLt
  simp only [fselShift]; omega

theorem insertField_getLsbD (v : Word) {sh : Nat} (f : BitVec 3) (n : Nat) (h : sh ≤ 29) :
    (insertField v sh f).getLsbD n =
      if sh ≤ n ∧ n < sh + 3 then f.getLsbD (n - sh) else v.getLsbD n := by
  have seven : ∀ i, (0b111#32).getLsbD i = decide (i < 3) := by
    intro i
    by_cases hi : i < 32
    · interval_cases i <;> decide
    · have : ¬ i < 3 := by omega
      simp [BitVec.getLsbD_of_ge _ _ (Nat.le_of_not_lt hi), this]
  simp only [insertField, BitVec.getLsbD_or, BitVec.getLsbD_and, BitVec.getLsbD_not, BitVec.getLsbD_shiftLeft,
    BitVec.truncate_eq_setWidth, BitVec.getLsbD_setWidth, seven]
  by_cases h1 : sh ≤ n ∧ n < sh + 3
  · have h2 : ¬ n < sh := by omega
    have h3 : n < 32 := by omega
    have h4 : n - sh < 3 := by omega
    have h5 : n - sh < 32 := by omega
    simp [h1.1, h1.2, h2, h3, h4, h5]
  · rw [if_neg h1]
    by_cases h3 : n < 32
    · by_cases h2 : n < sh
      · simp [h2, h3]
      · have h4 : ¬ n - sh < 3 := by omega
        have : f.getLsbD (n - sh) = false := BitVec.getLsbD_of_ge _ _ (by omega)
        simp [h2, h3, h4, this]
    · simp [h3, BitVec.getLsbD_of_ge _ _ (Nat.le_of_not_lt h3)]

/-- The inserted field reads back (40_register_access.md R133). -/
theorem insertField_extract (v : Word) {sh : Nat} (f : BitVec 3) (h : sh ≤ 29) :
    (insertField v sh f).extractLsb' sh 3 = f := by
  apply BitVec.eq_of_getLsbD_eq
  intro i hi
  rw [BitVec.getLsbD_extractLsb', insertField_getLsbD v f _ h]
  have : sh ≤ sh + i ∧ sh + i < sh + 3 := by omega
  simp [hi, this]

/-- Every word made by CmWord carries the password (40_register_access.md R134, 70_reset_and_hazards.md R304). -/
theorem passwordOk_cmWord (c : Config) (x : BitVec 24) : passwordOk c (cmWord c x) = true := by
  simp only [passwordOk, cmWord, beq_iff_eq]
  apply BitVec.eq_of_getLsbD_eq
  intro i hi
  rw [BitVec.getLsbD_extractLsb', BitVec.getLsbD_append]
  have : ¬ 24 + i < 24 := by omega
  simp [hi, this]

theorem cmWord_getLsbD (c : Config) (x : BitVec 24) {n : Nat} (h : n < 24) : (cmWord c x).getLsbD n = x.getLsbD n := by
  rw [cmWord, BitVec.getLsbD_append]; simp [h]

theorem shiftOrder_length (o : PackOrder) (v : Word) : (shiftOrder o v).length = 32 := by
  cases o <;> simp [shiftOrder]

end Sys2Proof.Machine
end

