-- ==== Sys2Proof/Laws/State.lean ====
section
/-! SUPPORT. One lemma per field of State per update: what the update leaves in the field. -/

namespace Sys2Proof.Machine

variable (s : State)

@[simp] theorem State.goto_cfg (q : Seq) : (s.goto q).cfg = s.cfg := rfl
@[simp] theorem State.goto_led (q : Seq) : (s.goto q).led = s.led := rfl
@[simp] theorem State.goto_wave (q : Seq) : (s.goto q).wave = s.wave := rfl
@[simp] theorem State.goto_seq (q : Seq) : (s.goto q).seq = q := rfl
@[simp] theorem State.goto_mapped (q : Seq) : (s.goto q).mapped = s.mapped := rfl
@[simp] theorem State.goto_initDone (q : Seq) : (s.goto q).initDone = s.initDone := rfl
@[simp] theorem State.goto_respStatus (q : Seq) : (s.goto q).respStatus = s.respStatus := rfl
@[simp] theorem State.goto_respOk (q : Seq) : (s.goto q).respOk = s.respOk := rfl
@[simp] theorem State.goto_trace (q : Seq) : (s.goto q).trace = s.trace := rfl
@[simp] theorem State.goto_diag (q : Seq) : (s.goto q).diag = s.diag := rfl
@[simp] theorem State.goto_faults (q : Seq) : (s.goto q).faults = s.faults := rfl
@[simp] theorem State.goto_per (q : Seq) : (s.goto q).per = s.per := rfl
@[simp] theorem State.goto_ser (q : Seq) : (s.goto q).ser = s.ser := rfl
@[simp] theorem State.goto_reference (q : Seq) : (s.goto q).reference = s.reference := rfl
@[simp] theorem State.goto_mapOk (q : Seq) : (s.goto q).mapOk = s.mapOk := rfl
@[simp] theorem State.goto_draws (q : Seq) : (s.goto q).draws = s.draws := rfl
@[simp] theorem State.goto_host (q : Seq) : (s.goto q).host = s.host := rfl

@[simp] theorem State.respond_cfg (st : Status) : (s.respond st).cfg = s.cfg := rfl
@[simp] theorem State.respond_led (st : Status) : (s.respond st).led = s.led := rfl
@[simp] theorem State.respond_wave (st : Status) : (s.respond st).wave = s.wave := rfl
@[simp] theorem State.respond_seq (st : Status) : (s.respond st).seq = s.seq := rfl
@[simp] theorem State.respond_mapped (st : Status) : (s.respond st).mapped = s.mapped := rfl
@[simp] theorem State.respond_initDone (st : Status) : (s.respond st).initDone = s.initDone := rfl
@[simp] theorem State.respond_respStatus (st : Status) : (s.respond st).respStatus = st.code := rfl
@[simp] theorem State.respond_respOk (st : Status) : (s.respond st).respOk = st.success := rfl
@[simp] theorem State.respond_trace (st : Status) : (s.respond st).trace = s.trace := rfl
@[simp] theorem State.respond_diag (st : Status) : (s.respond st).diag = s.diag := rfl
@[simp] theorem State.respond_faults (st : Status) : (s.respond st).faults = s.faults := rfl
@[simp] theorem State.respond_per (st : Status) : (s.respond st).per = s.per := rfl
@[simp] theorem State.respond_ser (st : Status) : (s.respond st).ser = s.ser := rfl
@[simp] theorem State.respond_reference (st : Status) : (s.respond st).reference = s.reference := rfl
@[simp] theorem State.respond_mapOk (st : Status) : (s.respond st).mapOk = s.mapOk := rfl
@[simp] theorem State.respond_draws (st : Status) : (s.respond st).draws = s.draws := rfl
@[simp] theorem State.respond_host (st : Status) : (s.respond st).host = s.host := rfl

@[simp] theorem State.complete_cfg (st : Status) : (s.complete st).cfg = s.cfg := rfl
@[simp] theorem State.complete_led (st : Status) : (s.complete st).led = s.led := rfl
@[simp] theorem State.complete_wave (st : Status) : (s.complete st).wave = s.wave := rfl
@[simp] theorem State.complete_seq (st : Status) : (s.complete st).seq = .idle := rfl
@[simp] theorem State.complete_mapped (st : Status) : (s.complete st).mapped = s.mapped := rfl
@[simp] theorem State.complete_initDone (st : Status) : (s.complete st).initDone = s.initDone := rfl
@[simp] theorem State.complete_respStatus (st : Status) : (s.complete st).respStatus = st.code := rfl
@[simp] theorem State.complete_respOk (st : Status) : (s.complete st).respOk = st.success := rfl
@[simp] theorem State.complete_trace (st : Status) : (s.complete st).trace = s.trace := rfl
@[simp] theorem State.complete_diag (st : Status) : (s.complete st).diag = s.diag := rfl
@[simp] theorem State.complete_faults (st : Status) : (s.complete st).faults = s.faults := rfl
@[simp] theorem State.complete_per (st : Status) : (s.complete st).per = s.per := rfl
@[simp] theorem State.complete_ser (st : Status) : (s.complete st).ser = s.ser := rfl
@[simp] theorem State.complete_reference (st : Status) : (s.complete st).reference = s.reference := rfl
@[simp] theorem State.complete_mapOk (st : Status) : (s.complete st).mapOk = s.mapOk := rfl
@[simp] theorem State.complete_draws (st : Status) : (s.complete st).draws = s.draws := rfl
@[simp] theorem State.complete_host (st : Status) : (s.complete st).host = s.host := rfl

@[simp] theorem State.emitDiag_cfg (k : DiagKind) (v : BitVec 16) : (s.emitDiag k v).cfg = s.cfg := rfl
@[simp] theorem State.emitDiag_led (k : DiagKind) (v : BitVec 16) : (s.emitDiag k v).led = s.led := rfl
@[simp] theorem State.emitDiag_wave (k : DiagKind) (v : BitVec 16) : (s.emitDiag k v).wave = s.wave := rfl
@[simp] theorem State.emitDiag_seq (k : DiagKind) (v : BitVec 16) : (s.emitDiag k v).seq = s.seq := rfl
@[simp] theorem State.emitDiag_mapped (k : DiagKind) (v : BitVec 16) : (s.emitDiag k v).mapped = s.mapped := rfl
@[simp] theorem State.emitDiag_initDone (k : DiagKind) (v : BitVec 16) : (s.emitDiag k v).initDone = s.initDone := rfl
@[simp] theorem State.emitDiag_respStatus (k : DiagKind) (v : BitVec 16) : (s.emitDiag k v).respStatus = s.respStatus := rfl
@[simp] theorem State.emitDiag_respOk (k : DiagKind) (v : BitVec 16) : (s.emitDiag k v).respOk = s.respOk := rfl
@[simp] theorem State.emitDiag_trace (k : DiagKind) (v : BitVec 16) : (s.emitDiag k v).trace = s.trace := rfl
@[simp] theorem State.emitDiag_diag (k : DiagKind) (v : BitVec 16) : (s.emitDiag k v).diag = s.diag ++ [{ kind := k, value := v }] := rfl
@[simp] theorem State.emitDiag_faults (k : DiagKind) (v : BitVec 16) : (s.emitDiag k v).faults = s.faults := rfl
@[simp] theorem State.emitDiag_per (k : DiagKind) (v : BitVec 16) : (s.emitDiag k v).per = s.per := rfl
@[simp] theorem State.emitDiag_ser (k : DiagKind) (v : BitVec 16) : (s.emitDiag k v).ser = s.ser := rfl
@[simp] theorem State.emitDiag_reference (k : DiagKind) (v : BitVec 16) : (s.emitDiag k v).reference = s.reference := rfl
@[simp] theorem State.emitDiag_mapOk (k : DiagKind) (v : BitVec 16) : (s.emitDiag k v).mapOk = s.mapOk := rfl
@[simp] theorem State.emitDiag_draws (k : DiagKind) (v : BitVec 16) : (s.emitDiag k v).draws = s.draws := rfl
@[simp] theorem State.emitDiag_host (k : DiagKind) (v : BitVec 16) : (s.emitDiag k v).host = s.host := rfl

@[simp] theorem State.recordFault_cfg (f : Fault) : (s.recordFault f).cfg = s.cfg := rfl
@[simp] theorem State.recordFault_led (f : Fault) : (s.recordFault f).led = s.led := rfl
@[simp] theorem State.recordFault_wave (f : Fault) : (s.recordFault f).wave = s.wave := rfl
@[simp] theorem State.recordFault_seq (f : Fault) : (s.recordFault f).seq = s.seq := rfl
@[simp] theorem State.recordFault_mapped (f : Fault) : (s.recordFault f).mapped = s.mapped := rfl
@[simp] theorem State.recordFault_initDone (f : Fault) : (s.recordFault f).initDone = s.initDone := rfl
@[simp] theorem State.recordFault_respStatus (f : Fault) : (s.recordFault f).respStatus = s.respStatus := rfl
@[simp] theorem State.recordFault_respOk (f : Fault) : (s.recordFault f).respOk = s.respOk := rfl
@[simp] theorem State.recordFault_trace (f : Fault) : (s.recordFault f).trace = s.trace := rfl
@[simp] theorem State.recordFault_diag (f : Fault) : (s.recordFault f).diag = s.diag := rfl
@[simp] theorem State.recordFault_faults (f : Fault) : (s.recordFault f).faults = s.faults.add f := rfl
@[simp] theorem State.recordFault_per (f : Fault) : (s.recordFault f).per = s.per := rfl
@[simp] theorem State.recordFault_ser (f : Fault) : (s.recordFault f).ser = s.ser := rfl
@[simp] theorem State.recordFault_reference (f : Fault) : (s.recordFault f).reference = s.reference := rfl
@[simp] theorem State.recordFault_mapOk (f : Fault) : (s.recordFault f).mapOk = s.mapOk := rfl
@[simp] theorem State.recordFault_draws (f : Fault) : (s.recordFault f).draws = s.draws := rfl
@[simp] theorem State.recordFault_host (f : Fault) : (s.recordFault f).host = s.host := rfl

@[simp] theorem State.raiseFatal_cfg : (s.raiseFatal).cfg = s.cfg := rfl
@[simp] theorem State.raiseFatal_led : (s.raiseFatal).led = s.led := rfl
@[simp] theorem State.raiseFatal_wave : (s.raiseFatal).wave = s.wave := rfl
@[simp] theorem State.raiseFatal_seq : (s.raiseFatal).seq = .fatal := rfl
@[simp] theorem State.raiseFatal_mapped : (s.raiseFatal).mapped = s.mapped := rfl
@[simp] theorem State.raiseFatal_initDone : (s.raiseFatal).initDone = s.initDone := rfl
@[simp] theorem State.raiseFatal_respStatus : (s.raiseFatal).respStatus = Status.fatalEnv.code := rfl
@[simp] theorem State.raiseFatal_respOk : (s.raiseFatal).respOk = false := rfl
@[simp] theorem State.raiseFatal_trace : (s.raiseFatal).trace = s.trace := rfl
@[simp] theorem State.raiseFatal_diag : (s.raiseFatal).diag = s.diag := rfl
@[simp] theorem State.raiseFatal_faults : (s.raiseFatal).faults = s.faults := rfl
@[simp] theorem State.raiseFatal_per : (s.raiseFatal).per = s.per := rfl
@[simp] theorem State.raiseFatal_ser : (s.raiseFatal).ser = s.ser := rfl
@[simp] theorem State.raiseFatal_reference : (s.raiseFatal).reference = s.reference := rfl
@[simp] theorem State.raiseFatal_mapOk : (s.raiseFatal).mapOk = s.mapOk := rfl
@[simp] theorem State.raiseFatal_draws : (s.raiseFatal).draws = s.draws := rfl
@[simp] theorem State.raiseFatal_host : (s.raiseFatal).host = s.host := rfl

@[simp] theorem State.raiseRecoverable_cfg (k : DiagKind) (st : Status) (v : BitVec 16) : (s.raiseRecoverable k st v).cfg = s.cfg := rfl
@[simp] theorem State.raiseRecoverable_led (k : DiagKind) (st : Status) (v : BitVec 16) : (s.raiseRecoverable k st v).led = s.led := rfl
@[simp] theorem State.raiseRecoverable_wave (k : DiagKind) (st : Status) (v : BitVec 16) : (s.raiseRecoverable k st v).wave = s.wave := rfl
@[simp] theorem State.raiseRecoverable_seq (k : DiagKind) (st : Status) (v : BitVec 16) : (s.raiseRecoverable k st v).seq = .idle := rfl
@[simp] theorem State.raiseRecoverable_mapped (k : DiagKind) (st : Status) (v : BitVec 16) : (s.raiseRecoverable k st v).mapped = s.mapped := rfl
@[simp] theorem State.raiseRecoverable_initDone (k : DiagKind) (st : Status) (v : BitVec 16) : (s.raiseRecoverable k st v).initDone = s.initDone := rfl
@[simp] theorem State.raiseRecoverable_respStatus (k : DiagKind) (st : Status) (v : BitVec 16) : (s.raiseRecoverable k st v).respStatus = st.code := rfl
@[simp] theorem State.raiseRecoverable_respOk (k : DiagKind) (st : Status) (v : BitVec 16) : (s.raiseRecoverable k st v).respOk = st.success := rfl
@[simp] theorem State.raiseRecoverable_trace (k : DiagKind) (st : Status) (v : BitVec 16) : (s.raiseRecoverable k st v).trace = s.trace := rfl
@[simp] theorem State.raiseRecoverable_diag (k : DiagKind) (st : Status) (v : BitVec 16) : (s.raiseRecoverable k st v).diag = s.diag ++ [{ kind := k, value := v }] := rfl
@[simp] theorem State.raiseRecoverable_faults (k : DiagKind) (st : Status) (v : BitVec 16) : (s.raiseRecoverable k st v).faults = s.faults := rfl
@[simp] theorem State.raiseRecoverable_per (k : DiagKind) (st : Status) (v : BitVec 16) : (s.raiseRecoverable k st v).per = s.per := rfl
@[simp] theorem State.raiseRecoverable_ser (k : DiagKind) (st : Status) (v : BitVec 16) : (s.raiseRecoverable k st v).ser = s.ser := rfl
@[simp] theorem State.raiseRecoverable_reference (k : DiagKind) (st : Status) (v : BitVec 16) : (s.raiseRecoverable k st v).reference = s.reference := rfl
@[simp] theorem State.raiseRecoverable_mapOk (k : DiagKind) (st : Status) (v : BitVec 16) : (s.raiseRecoverable k st v).mapOk = s.mapOk := rfl
@[simp] theorem State.raiseRecoverable_draws (k : DiagKind) (st : Status) (v : BitVec 16) : (s.raiseRecoverable k st v).draws = s.draws := rfl
@[simp] theorem State.raiseRecoverable_host (k : DiagKind) (st : Status) (v : BitVec 16) : (s.raiseRecoverable k st v).host = s.host := rfl

@[simp] theorem State.record_cfg (e : BusEvent) : (s.record e).cfg = s.cfg := rfl
@[simp] theorem State.record_led (e : BusEvent) : (s.record e).led = s.led := rfl
@[simp] theorem State.record_wave (e : BusEvent) : (s.record e).wave = s.wave := rfl
@[simp] theorem State.record_seq (e : BusEvent) : (s.record e).seq = s.seq := rfl
@[simp] theorem State.record_mapped (e : BusEvent) : (s.record e).mapped = s.mapped := rfl
@[simp] theorem State.record_initDone (e : BusEvent) : (s.record e).initDone = s.initDone := rfl
@[simp] theorem State.record_respStatus (e : BusEvent) : (s.record e).respStatus = s.respStatus := rfl
@[simp] theorem State.record_respOk (e : BusEvent) : (s.record e).respOk = s.respOk := rfl
@[simp] theorem State.record_trace (e : BusEvent) : (s.record e).trace = s.trace ++ [e] := rfl
@[simp] theorem State.record_diag (e : BusEvent) : (s.record e).diag = s.diag := rfl
@[simp] theorem State.record_faults (e : BusEvent) : (s.record e).faults = s.faults := rfl
@[simp] theorem State.record_per (e : BusEvent) : (s.record e).per = s.per := rfl
@[simp] theorem State.record_ser (e : BusEvent) : (s.record e).ser = s.ser := rfl
@[simp] theorem State.record_reference (e : BusEvent) : (s.record e).reference = s.reference := rfl
@[simp] theorem State.record_mapOk (e : BusEvent) : (s.record e).mapOk = s.mapOk := rfl
@[simp] theorem State.record_draws (e : BusEvent) : (s.record e).draws = s.draws := rfl
@[simp] theorem State.record_host (e : BusEvent) : (s.record e).host = s.host := rfl

@[simp] theorem State.delay_cfg (t : Nat) : (s.delay t).cfg = s.cfg := rfl
@[simp] theorem State.delay_led (t : Nat) : (s.delay t).led = s.led := rfl
@[simp] theorem State.delay_wave (t : Nat) : (s.delay t).wave = s.wave := rfl
@[simp] theorem State.delay_seq (t : Nat) : (s.delay t).seq = s.seq := rfl
@[simp] theorem State.delay_mapped (t : Nat) : (s.delay t).mapped = s.mapped := rfl
@[simp] theorem State.delay_initDone (t : Nat) : (s.delay t).initDone = s.initDone := rfl
@[simp] theorem State.delay_respStatus (t : Nat) : (s.delay t).respStatus = s.respStatus := rfl
@[simp] theorem State.delay_respOk (t : Nat) : (s.delay t).respOk = s.respOk := rfl
@[simp] theorem State.delay_trace (t : Nat) : (s.delay t).trace = s.trace ++ [.dly t] := rfl
@[simp] theorem State.delay_diag (t : Nat) : (s.delay t).diag = s.diag := rfl
@[simp] theorem State.delay_faults (t : Nat) : (s.delay t).faults = s.faults := rfl
@[simp] theorem State.delay_per (t : Nat) : (s.delay t).per = s.per := rfl
@[simp] theorem State.delay_ser (t : Nat) : (s.delay t).ser = s.ser := rfl
@[simp] theorem State.delay_reference (t : Nat) : (s.delay t).reference = s.reference := rfl
@[simp] theorem State.delay_mapOk (t : Nat) : (s.delay t).mapOk = s.mapOk := rfl
@[simp] theorem State.delay_draws (t : Nat) : (s.delay t).draws = s.draws := rfl
@[simp] theorem State.delay_host (t : Nat) : (s.delay t).host = s.host := rfl

@[simp] theorem State.memWrite_cfg (a v : Word) : (s.memWrite a v).cfg = s.cfg := rfl
@[simp] theorem State.memWrite_led (a v : Word) : (s.memWrite a v).led = s.led := rfl
@[simp] theorem State.memWrite_wave (a v : Word) : (s.memWrite a v).wave = s.wave := rfl
@[simp] theorem State.memWrite_seq (a v : Word) : (s.memWrite a v).seq = s.seq := rfl
@[simp] theorem State.memWrite_mapped (a v : Word) : (s.memWrite a v).mapped = s.mapped := rfl
@[simp] theorem State.memWrite_initDone (a v : Word) : (s.memWrite a v).initDone = s.initDone := rfl
@[simp] theorem State.memWrite_respStatus (a v : Word) : (s.memWrite a v).respStatus = s.respStatus := rfl
@[simp] theorem State.memWrite_respOk (a v : Word) : (s.memWrite a v).respOk = s.respOk := rfl
@[simp] theorem State.memWrite_trace (a v : Word) : (s.memWrite a v).trace = s.trace ++ [.wr a v] := rfl
@[simp] theorem State.memWrite_diag (a v : Word) : (s.memWrite a v).diag = s.diag := rfl
@[simp] theorem State.memWrite_faults (a v : Word) : (s.memWrite a v).faults = s.faults := rfl
@[simp] theorem State.memWrite_reference (a v : Word) : (s.memWrite a v).reference = s.reference := rfl
@[simp] theorem State.memWrite_mapOk (a v : Word) : (s.memWrite a v).mapOk = s.mapOk := rfl
@[simp] theorem State.memWrite_draws (a v : Word) : (s.memWrite a v).draws = s.draws := rfl
@[simp] theorem State.memWrite_host (a v : Word) : (s.memWrite a v).host = s.host := rfl

@[simp] theorem State.writeSettle_cfg (r : Reg) (v : Word) (t : Nat) : (s.writeSettle r v t).cfg = s.cfg := rfl
@[simp] theorem State.writeSettle_led (r : Reg) (v : Word) (t : Nat) : (s.writeSettle r v t).led = s.led := rfl
@[simp] theorem State.writeSettle_wave (r : Reg) (v : Word) (t : Nat) : (s.writeSettle r v t).wave = s.wave := rfl
@[simp] theorem State.writeSettle_seq (r : Reg) (v : Word) (t : Nat) : (s.writeSettle r v t).seq = s.seq := rfl
@[simp] theorem State.writeSettle_mapped (r : Reg) (v : Word) (t : Nat) : (s.writeSettle r v t).mapped = s.mapped := rfl
@[simp] theorem State.writeSettle_initDone (r : Reg) (v : Word) (t : Nat) : (s.writeSettle r v t).initDone = s.initDone := rfl
@[simp] theorem State.writeSettle_respStatus (r : Reg) (v : Word) (t : Nat) : (s.writeSettle r v t).respStatus = s.respStatus := rfl
@[simp] theorem State.writeSettle_respOk (r : Reg) (v : Word) (t : Nat) : (s.writeSettle r v t).respOk = s.respOk := rfl
@[simp] theorem State.writeSettle_trace (r : Reg) (v : Word) (t : Nat) : (s.writeSettle r v t).trace = s.trace ++ [.wr (regAddr s.cfg r) v] ++ [.dly t] := rfl
@[simp] theorem State.writeSettle_diag (r : Reg) (v : Word) (t : Nat) : (s.writeSettle r v t).diag = s.diag := rfl
@[simp] theorem State.writeSettle_faults (r : Reg) (v : Word) (t : Nat) : (s.writeSettle r v t).faults = s.faults := rfl
@[simp] theorem State.writeSettle_per (r : Reg) (v : Word) (t : Nat) : (s.writeSettle r v t).per = (s.memWrite (regAddr s.cfg r) v).per := rfl
@[simp] theorem State.writeSettle_ser (r : Reg) (v : Word) (t : Nat) : (s.writeSettle r v t).ser = (s.memWrite (regAddr s.cfg r) v).ser := rfl
@[simp] theorem State.writeSettle_reference (r : Reg) (v : Word) (t : Nat) : (s.writeSettle r v t).reference = s.reference := rfl
@[simp] theorem State.writeSettle_mapOk (r : Reg) (v : Word) (t : Nat) : (s.writeSettle r v t).mapOk = s.mapOk := rfl
@[simp] theorem State.writeSettle_draws (r : Reg) (v : Word) (t : Nat) : (s.writeSettle r v t).draws = s.draws := rfl
@[simp] theorem State.writeSettle_host (r : Reg) (v : Word) (t : Nat) : (s.writeSettle r v t).host = s.host := rfl

@[simp] theorem State.setLed_cfg (i : Nat) (c : Color) : (s.setLed i c).cfg = s.cfg := rfl
@[simp] theorem State.setLed_led (i : Nat) (c : Color) : (s.setLed i c).led = s.led.set i c := rfl
@[simp] theorem State.setLed_wave (i : Nat) (c : Color) : (s.setLed i c).wave = s.wave := rfl
@[simp] theorem State.setLed_seq (i : Nat) (c : Color) : (s.setLed i c).seq = s.seq := rfl
@[simp] theorem State.setLed_mapped (i : Nat) (c : Color) : (s.setLed i c).mapped = s.mapped := rfl
@[simp] theorem State.setLed_initDone (i : Nat) (c : Color) : (s.setLed i c).initDone = s.initDone := rfl
@[simp] theorem State.setLed_respStatus (i : Nat) (c : Color) : (s.setLed i c).respStatus = s.respStatus := rfl
@[simp] theorem State.setLed_respOk (i : Nat) (c : Color) : (s.setLed i c).respOk = s.respOk := rfl
@[simp] theorem State.setLed_trace (i : Nat) (c : Color) : (s.setLed i c).trace = s.trace := rfl
@[simp] theorem State.setLed_diag (i : Nat) (c : Color) : (s.setLed i c).diag = s.diag := rfl
@[simp] theorem State.setLed_faults (i : Nat) (c : Color) : (s.setLed i c).faults = s.faults := rfl
@[simp] theorem State.setLed_per (i : Nat) (c : Color) : (s.setLed i c).per = s.per := rfl
@[simp] theorem State.setLed_ser (i : Nat) (c : Color) : (s.setLed i c).ser = s.ser := rfl
@[simp] theorem State.setLed_reference (i : Nat) (c : Color) : (s.setLed i c).reference = s.reference := rfl
@[simp] theorem State.setLed_mapOk (i : Nat) (c : Color) : (s.setLed i c).mapOk = s.mapOk := rfl
@[simp] theorem State.setLed_draws (i : Nat) (c : Color) : (s.setLed i c).draws = s.draws := rfl
@[simp] theorem State.setLed_host (i : Nat) (c : Color) : (s.setLed i c).host = s.host := rfl

@[simp] theorem State.setWaveWord_cfg (w : Nat) (v : Word) : (s.setWaveWord w v).cfg = s.cfg := rfl
@[simp] theorem State.setWaveWord_led (w : Nat) (v : Word) : (s.setWaveWord w v).led = s.led := rfl
@[simp] theorem State.setWaveWord_wave (w : Nat) (v : Word) : (s.setWaveWord w v).wave = s.wave.set w v := rfl
@[simp] theorem State.setWaveWord_seq (w : Nat) (v : Word) : (s.setWaveWord w v).seq = s.seq := rfl
@[simp] theorem State.setWaveWord_mapped (w : Nat) (v : Word) : (s.setWaveWord w v).mapped = s.mapped := rfl
@[simp] theorem State.setWaveWord_initDone (w : Nat) (v : Word) : (s.setWaveWord w v).initDone = s.initDone := rfl
@[simp] theorem State.setWaveWord_respStatus (w : Nat) (v : Word) : (s.setWaveWord w v).respStatus = s.respStatus := rfl
@[simp] theorem State.setWaveWord_respOk (w : Nat) (v : Word) : (s.setWaveWord w v).respOk = s.respOk := rfl
@[simp] theorem State.setWaveWord_trace (w : Nat) (v : Word) : (s.setWaveWord w v).trace = s.trace := rfl
@[simp] theorem State.setWaveWord_diag (w : Nat) (v : Word) : (s.setWaveWord w v).diag = s.diag := rfl
@[simp] theorem State.setWaveWord_faults (w : Nat) (v : Word) : (s.setWaveWord w v).faults = s.faults := rfl
@[simp] theorem State.setWaveWord_per (w : Nat) (v : Word) : (s.setWaveWord w v).per = s.per := rfl
@[simp] theorem State.setWaveWord_ser (w : Nat) (v : Word) : (s.setWaveWord w v).ser = s.ser := rfl
@[simp] theorem State.setWaveWord_reference (w : Nat) (v : Word) : (s.setWaveWord w v).reference = s.reference := rfl
@[simp] theorem State.setWaveWord_mapOk (w : Nat) (v : Word) : (s.setWaveWord w v).mapOk = s.mapOk := rfl
@[simp] theorem State.setWaveWord_draws (w : Nat) (v : Word) : (s.setWaveWord w v).draws = s.draws := rfl
@[simp] theorem State.setWaveWord_host (w : Nat) (v : Word) : (s.setWaveWord w v).host = s.host := rfl

@[simp] theorem State.setFramePending_cfg : (s.setFramePending).cfg = s.cfg := rfl
@[simp] theorem State.setFramePending_led : (s.setFramePending).led = s.led := rfl
@[simp] theorem State.setFramePending_wave : (s.setFramePending).wave = s.wave := rfl
@[simp] theorem State.setFramePending_seq : (s.setFramePending).seq = s.seq := rfl
@[simp] theorem State.setFramePending_mapped : (s.setFramePending).mapped = s.mapped := rfl
@[simp] theorem State.setFramePending_initDone : (s.setFramePending).initDone = s.initDone := rfl
@[simp] theorem State.setFramePending_respStatus : (s.setFramePending).respStatus = s.respStatus := rfl
@[simp] theorem State.setFramePending_respOk : (s.setFramePending).respOk = s.respOk := rfl
@[simp] theorem State.setFramePending_trace : (s.setFramePending).trace = s.trace := rfl
@[simp] theorem State.setFramePending_diag : (s.setFramePending).diag = s.diag := rfl
@[simp] theorem State.setFramePending_faults : (s.setFramePending).faults = s.faults := rfl
@[simp] theorem State.setFramePending_per : (s.setFramePending).per = s.per := rfl
@[simp] theorem State.setFramePending_ser : (s.setFramePending).ser = { s.ser with framePending := true } := rfl
@[simp] theorem State.setFramePending_reference : (s.setFramePending).reference = s.reference := rfl
@[simp] theorem State.setFramePending_mapOk : (s.setFramePending).mapOk = s.mapOk := rfl
@[simp] theorem State.setFramePending_draws : (s.setFramePending).draws = s.draws := rfl
@[simp] theorem State.setFramePending_host : (s.setFramePending).host = s.host := rfl

@[simp] theorem State.freeStatus_cfg : (s.freeStatus).cfg = s.cfg := rfl
@[simp] theorem State.freeStatus_led : (s.freeStatus).led = s.led := rfl
@[simp] theorem State.freeStatus_wave : (s.freeStatus).wave = s.wave := rfl
@[simp] theorem State.freeStatus_seq : (s.freeStatus).seq = s.seq := rfl
@[simp] theorem State.freeStatus_mapped : (s.freeStatus).mapped = s.mapped := rfl
@[simp] theorem State.freeStatus_initDone : (s.freeStatus).initDone = s.initDone := rfl
@[simp] theorem State.freeStatus_respStatus : (s.freeStatus).respStatus = s.respStatus := rfl
@[simp] theorem State.freeStatus_respOk : (s.freeStatus).respOk = s.respOk := rfl
@[simp] theorem State.freeStatus_trace : (s.freeStatus).trace = s.trace := rfl
@[simp] theorem State.freeStatus_diag : (s.freeStatus).diag = s.diag := rfl
@[simp] theorem State.freeStatus_faults : (s.freeStatus).faults = s.faults := rfl
@[simp] theorem State.freeStatus_per : (s.freeStatus).per = { s.per with sta := Config.freeSta s.draws } := rfl
@[simp] theorem State.freeStatus_ser : (s.freeStatus).ser = s.ser := rfl
@[simp] theorem State.freeStatus_reference : (s.freeStatus).reference = s.reference := rfl
@[simp] theorem State.freeStatus_mapOk : (s.freeStatus).mapOk = s.mapOk := rfl
@[simp] theorem State.freeStatus_draws : (s.freeStatus).draws = s.draws + 1 := rfl
@[simp] theorem State.freeStatus_host : (s.freeStatus).host = s.host := rfl

@[simp] theorem State.wireFree_cfg : (s.wireFree).cfg = s.cfg := rfl
@[simp] theorem State.wireFree_led : (s.wireFree).led = s.led := rfl
@[simp] theorem State.wireFree_wave : (s.wireFree).wave = s.wave := rfl
@[simp] theorem State.wireFree_seq : (s.wireFree).seq = s.seq := rfl
@[simp] theorem State.wireFree_mapped : (s.wireFree).mapped = s.mapped := rfl
@[simp] theorem State.wireFree_initDone : (s.wireFree).initDone = s.initDone := rfl
@[simp] theorem State.wireFree_respStatus : (s.wireFree).respStatus = s.respStatus := rfl
@[simp] theorem State.wireFree_respOk : (s.wireFree).respOk = s.respOk := rfl
@[simp] theorem State.wireFree_trace : (s.wireFree).trace = s.trace := rfl
@[simp] theorem State.wireFree_diag : (s.wireFree).diag = s.diag := rfl
@[simp] theorem State.wireFree_faults : (s.wireFree).faults = s.faults := rfl
@[simp] theorem State.wireFree_per : (s.wireFree).per = { s.per with sta := Config.freeSta s.draws } := rfl
@[simp] theorem State.wireFree_ser : (s.wireFree).ser = s.ser.runFree s.draws := rfl
@[simp] theorem State.wireFree_reference : (s.wireFree).reference = s.reference := rfl
@[simp] theorem State.wireFree_mapOk : (s.wireFree).mapOk = s.mapOk := rfl
@[simp] theorem State.wireFree_draws : (s.wireFree).draws = s.draws + 1 := rfl
@[simp] theorem State.wireFree_host : (s.wireFree).host = s.host := rfl

@[simp] theorem State.wireEmit_cfg : (s.wireEmit).cfg = s.cfg := rfl
@[simp] theorem State.wireEmit_led : (s.wireEmit).led = s.led := rfl
@[simp] theorem State.wireEmit_wave : (s.wireEmit).wave = s.wave := rfl
@[simp] theorem State.wireEmit_seq : (s.wireEmit).seq = s.seq := rfl
@[simp] theorem State.wireEmit_mapped : (s.wireEmit).mapped = s.mapped := rfl
@[simp] theorem State.wireEmit_initDone : (s.wireEmit).initDone = s.initDone := rfl
@[simp] theorem State.wireEmit_respStatus : (s.wireEmit).respStatus = s.respStatus := rfl
@[simp] theorem State.wireEmit_respOk : (s.wireEmit).respOk = s.respOk := rfl
@[simp] theorem State.wireEmit_trace : (s.wireEmit).trace = s.trace := rfl
@[simp] theorem State.wireEmit_diag : (s.wireEmit).diag = s.diag := rfl
@[simp] theorem State.wireEmit_faults : (s.wireEmit).faults = s.faults := rfl
@[simp] theorem State.wireEmit_per : (s.wireEmit).per = { s.per with sta := Config.freeSta s.draws } := rfl
@[simp] theorem State.wireEmit_ser : (s.wireEmit).ser = s.ser.emitBit s.cfg.packOrder := rfl
@[simp] theorem State.wireEmit_reference : (s.wireEmit).reference = s.reference := rfl
@[simp] theorem State.wireEmit_mapOk : (s.wireEmit).mapOk = s.mapOk := rfl
@[simp] theorem State.wireEmit_draws : (s.wireEmit).draws = s.draws + 1 := rfl
@[simp] theorem State.wireEmit_host : (s.wireEmit).host = s.host := rfl

end Sys2Proof.Machine
end

