-- ==== Sys2Proof/Laws/Bus.lean ====
section
/-! SUPPORT. What the bus operations, the error entries and the conditional operations do, said once each. -/

namespace Sys2Proof.Machine

/-! Conditional operations as one record update each, so that their frame is read off. -/

theorem State.recordOverlap_eq (s : State) :
    s.recordOverlap = { s with faults := if s.ser.framePending then s.faults.add .frameOverlap else s.faults } := by
  rw [State.recordOverlap]; split <;> rfl

/-- Nothing on the wire that a stop could cut: the wire is defined and no frame is pending. -/
def State.undisturbed (s : State) : Bool := s.wireDefined && !s.ser.framePending

/-- The cut touches the wire, PWM STA and the draws, and only when there is something to cut (70_reset_and_hazards.md R301). -/
theorem State.cutFrame_eq (s : State) :
    s.cutFrame = { s with
      ser := if s.undisturbed then s.ser else s.ser.runFree s.draws
      per := { s.per with sta := if s.undisturbed then s.per.sta else Config.freeSta s.draws }
      draws := if s.undisturbed then s.draws else s.draws + 1 } := by
  rw [State.cutFrame, State.undisturbed]; split <;> rfl

theorem State.serializerTick_eq (s : State) :
    s.serializerTick = { s with
      ser := s.serializerTick.ser, per := { s.per with sta := s.serializerTick.per.sta }
      draws := s.serializerTick.draws } := by
  rw [State.serializerTick]
  split
  · split
    · split <;> rfl
    · rfl
  · rfl

theorem State.hostWaits_eq (s : State) : s.hostWaits = { s with host := s.hostWaits.host } := by
  rw [State.hostWaits]; split <;> rfl

theorem State.establishWindows_ok {s : State} (h : s.mapped = true ∨ s.mapOk = true) :
    s.establishWindows = { s with mapped := true } := by
  rcases s with ⟨⟩
  rcases h with h | h <;> simp_all [State.establishWindows]

theorem State.establishWindows_fail {s : State} (h1 : s.mapped = false) (h2 : s.mapOk = false) :
    s.establishWindows = s.raiseFatal := by
  simp [State.establishWindows, h1, h2]

/-! Transactions. -/

/-- A write that reaches a register has that register's effect and is recorded (40_register_access.md R124). -/
theorem State.memWrite_regAddr {s : State} (h : soundMap s.cfg = true) (r : Reg) (v : Word) :
    s.memWrite (regAddr s.cfg r) v =
      { s with
        trace := s.trace ++ [.wr (regAddr s.cfg r) v]
        per := s.per.write s.cfg r v
        ser := s.ser.write s.cfg r v } := by
  simp [State.memWrite, decodeAddr_regAddr h, State.record]

theorem State.writeSettle_eq {s : State} (h : soundMap s.cfg = true) (r : Reg) (v : Word) (t : Nat) :
    s.writeSettle r v t =
      { s with
        trace := s.trace ++ [.wr (regAddr s.cfg r) v, .dly t]
        per := s.per.write s.cfg r v
        ser := s.ser.write s.cfg r v } := by
  simp [State.writeSettle, State.memWrite_regAddr h, State.delay, State.record]

/-- GpioSetFunction on any map: one read, one write of the word with the field replaced (R133). -/
theorem State.gpioSetFunction_eq (s : State) (p : Nat) (f : BitVec 3) :
    s.gpioSetFunction p f =
      { s with
        trace := s.trace ++ [.rd (fselAddr s.cfg p) (s.readValue (fselAddr s.cfg p)),
          .wr (fselAddr s.cfg p) (insertField (s.readValue (fselAddr s.cfg p)) (fselShift s.cfg p) f)]
        per := (s.gpioSetFunction p f).per
        ser := (s.gpioSetFunction p f).ser
        draws := if s.readsStored (fselAddr s.cfg p) then s.draws else s.draws + 1 } := by
  simp [State.gpioSetFunction, State.memRead, State.memWrite, State.record]

/-- GpioSetFunction on a sound map: the pin's register holds the word written and the FIFO is untouched (R133). -/
theorem State.gpioSetFunction_sound {s : State} (h : soundMap s.cfg = true) {p : Nat} (hp : p / 10 ≤ 5) (f : BitVec 3) :
    (s.gpioSetFunction p f).per =
        { s.per with
          gpfsel := s.per.gpfsel.set (p / 10) (insertField (s.readValue (fselAddr s.cfg p)) (fselShift s.cfg p) f) } ∧
      (s.gpioSetFunction p f).ser = s.ser := by
  have hd : decodeAddr s.cfg (fselAddr s.cfg p) = some (.gpfsel ⟨p / 10, by omega⟩) := by
    rw [fselAddr_eq s.cfg hp]; exact decodeAddr_regAddr h _
  simp [State.gpioSetFunction, State.memRead, State.memWrite, State.record, hd, Peripherals.write, Serializer.write]

/-- What a rule decides of a read on the reference platform, on a sound map: the word the register holds (R123). -/
theorem State.storedWord_regAddr {s : State} (h : soundMap s.cfg = true) (hr : s.reference = true) (r : Reg) :
    s.storedWord (regAddr s.cfg r) = s.regWord r := by
  simp [State.storedWord, hr, decodeAddr_regAddr h]

/-- What the reference platform reads at a pin's function-select register (R123). -/
theorem State.readValue_fsel {s : State} (h : soundMap s.cfg = true) (hr : s.reference = true) {p : Nat} (hp : p / 10 ≤ 5) :
    s.readValue (fselAddr s.cfg p) = s.per.gpfsel[p / 10] := by
  rw [State.readValue, fselAddr_eq s.cfg hp, State.storedWord_regAddr h hr]
  rfl

/-- FULL1 and EMPT1 tell the state of the FIFO, every other STA bit is stored (10_state.md R44). -/
theorem State.bitGet_staWord {s : State} (h : soundMap s.cfg = true) :
    bitGet s.staWord s.cfg.layout.full1 = decide (s.cfg.fifoDepth ≤ s.ser.fifo.length) ∧
      bitGet s.staWord s.cfg.layout.empt1 = s.ser.fifo.isEmpty ∧
      ∀ n, n ≠ s.cfg.layout.full1 → n ≠ s.cfg.layout.empt1 → bitGet s.staWord n = bitGet s.per.sta n := by
  refine ⟨?_, ?_, fun n h1 h2 => ?_⟩ <;> rw [State.staWord]
  · rw [bitGet_bitPut_ne _ _ (soundMap_sta h).1, bitGet_bitPut_self]
  · rw [bitGet_bitPut_self]
  · rw [bitGet_bitPut_ne _ _ h2, bitGet_bitPut_ne _ _ h1]

/-- No register write touches frame_pending or the wire (10_state.md R50). -/
theorem Serializer.write_framePending (c : Config) (z : Serializer) (r : Reg) (v : Word) :
    (z.write c r v).framePending = z.framePending ∧ (z.write c r v).wire = z.wire := by
  cases r <;> unfold Serializer.write <;> first | exact ⟨rfl, rfl⟩ | (dsimp only; split <;> exact ⟨rfl, rfl⟩)

theorem State.memWrite_framePending (s : State) (a v : Word) :
    (s.memWrite a v).ser.framePending = s.ser.framePending ∧ (s.memWrite a v).ser.wire = s.ser.wire := by
  simp only [State.memWrite]
  split
  · exact Serializer.write_framePending _ _ _ _
  · exact ⟨rfl, rfl⟩

theorem State.gpioSetFunction_framePending (s : State) (p : Nat) (f : BitVec 3) :
    (s.gpioSetFunction p f).ser.framePending = s.ser.framePending ∧ (s.gpioSetFunction p f).ser.wire = s.ser.wire :=
  State.memWrite_framePending _ _ _

/-- The FIFO stays within its depth whatever is written (10_state.md R50). -/
theorem Serializer.write_bounded {c : Config} {z : Serializer} (h : z.fifo.length ≤ c.fifoDepth) (r : Reg) (v : Word) :
    (z.write c r v).fifo.length ≤ c.fifoDepth := by
  cases r <;> simp only [Serializer.write] <;> try exact h
  · split
    · exact Nat.zero_le _
    · exact h
  · split
    · simpa using by omega
    · exact h

end Sys2Proof.Machine
end

