-- ==== Sys2Proof/Laws/Codec.lean ====
section
/-! SUPPORT. The fields and masks of an encoded command word (30_encoding.md R90 to R95). -/

namespace Sys2Proof

theorem and_allOnes_mask (w : CmdWord) : w &&& 0xFFFFFFFFFFFFFFFF#64 = w := by
  have : 0xFFFFFFFFFFFFFFFF#64 = BitVec.allOnes 64 := by decide
  rw [this, BitVec.and_allOnes]

/-- The fields of a word read back as they were put in (R90, R92, R93). -/
theorem cmdWord_fields (op : BitVec 8) (idx : BitVec 16) (r g b : Byte) :
    (cmdWord op idx r g b).op = op ∧ (cmdWord op idx r g b).index = idx ∧ (cmdWord op idx r g b).red = r ∧
      (cmdWord op idx r g b).green = g ∧ (cmdWord op idx r g b).blue = b := by
  refine ⟨?_, ?_, ?_, ?_, ?_⟩ <;>
  · apply BitVec.eq_of_getLsbD_eq
    intro i hi
    simp only [CmdWord.op, CmdWord.index, CmdWord.red, CmdWord.green, CmdWord.blue, cmdWord,
      BitVec.getLsbD_extractLsb', BitVec.getLsbD_append]
    interval_cases i <;> simp

/-- A SET_PIXEL word matches its row whatever its operands are (R94, R95). -/
theorem setPixel_masked (idx : BitVec 16) (r g b : Byte) :
    cmdWord 0x03#8 idx r g b &&& 0xFF0000FFFF000000#64 = 0x0300000000000000#64 := by
  apply BitVec.eq_of_getLsbD_eq
  intro i hi
  simp only [cmdWord, BitVec.getLsbD_and, BitVec.getLsbD_append]
  interval_cases i <;> simp

/-- A word whose OP is SET_PIXEL's matches no other row. -/
theorem setPixel_other_rows {w : CmdWord} (h : w.op = 0x03#8) :
    initHwRow.hits w = false ∧ clearRow.hits w = false ∧ showFrameRow.hits w = false := by
  simp only [TableRow.hits, initHwRow, clearRow, showFrameRow, and_allOnes_mask, beq_eq_false_iff_ne]
  refine ⟨?_, ?_, ?_⟩ <;>
  · rintro rfl
    revert h
    decide

end Sys2Proof
end

