-- ==== Sys2Proof/Laws/Encoder.lean ====
section
/-! SUPPORT. The encoder writes exactly the frame (43_encoder.md R205 to R208), and the push loop pushes exactly the buffer
(44_show.md R235). -/

namespace Sys2Proof.Machine

/-! The waveform buffer as a list of words. -/

/-- WaveSetBit on the words alone. -/
def waveSet (o : PackOrder) (l : List Word) (k : Nat) : List Word :=
  l.set (wordIndex k) (bitSet (l.getD (wordIndex k) 0#32) (bitPos o k))

/-- WaveGetBit on the words alone. -/
def streamBit (o : PackOrder) (l : List Word) (k : Nat) : Bool := bitGet (l.getD (wordIndex k) 0#32) (bitPos o k)

theorem State.waveGetBit_eq (s : State) (k : Nat) : s.waveGetBit k = streamBit s.cfg.packOrder s.wave k := rfl

theorem waveSet_length (o : PackOrder) (l : List Word) (k : Nat) : (waveSet o l k).length = l.length := by
  simp [waveSet]

/-- Setting one stream offset sets it and leaves every other one (40_register_access.md R129). -/
theorem streamBit_waveSet (o : PackOrder) (l : List Word) {k : Nat} (h : wordIndex k < l.length) (m : Nat) :
    streamBit o (waveSet o l k) m = (streamBit o l m || decide (m = k)) := by
  by_cases hw : wordIndex m = wordIndex k
  · have : (waveSet o l k).getD (wordIndex m) 0#32 = bitSet (l.getD (wordIndex m) 0#32) (bitPos o k) := by
      simp [waveSet, hw, List.getD, h]
    rw [streamBit, this, bitGet_bitSet, streamBit]
    congr 1
    by_cases hm : m = k
    · simp [hm]
    · have : bitPos o m ≠ bitPos o k := fun hb => hm (offset_eq_of_position o hw hb)
      simp [hm, this]
  · have hm : m ≠ k := fun e => hw (e ▸ rfl)
    have : (waveSet o l k).getD (wordIndex m) 0#32 = l.getD (wordIndex m) 0#32 := by
      simp [waveSet, List.getD, List.getElem?_set_ne (Ne.symm hw)]
    rw [streamBit, this, streamBit]; simp [hm]

theorem foldl_waveSet_length (o : PackOrder) (ks : List Nat) (l : List Word) :
    (ks.foldl (waveSet o) l).length = l.length := by
  induction ks generalizing l with
  | nil => rfl
  | cons k ks ih => rw [List.foldl_cons, ih, waveSet_length]

theorem streamBit_foldl (o : PackOrder) (ks : List Nat) (l : List Word) (h : ∀ k ∈ ks, wordIndex k < l.length) (m : Nat) :
    streamBit o (ks.foldl (waveSet o) l) m = (streamBit o l m || decide (m ∈ ks)) := by
  induction ks generalizing l with
  | nil => simp
  | cons k ks ih =>
    rw [List.foldl_cons, ih _ (fun j hj => by rw [waveSet_length]; exact h j (List.mem_cons_of_mem _ hj)),
      streamBit_waveSet o l (h k List.mem_cons_self)]
    simp [Bool.or_assoc]

/-! The loops as one fold over the offsets they set. -/

/-- A loop whose every pass sets some offsets of `wave` and changes nothing else sets all of them. -/
theorem foldl_sets {α : Type} (f : State → α → State) (offs : α → List Nat) (xs : List α) (s : State)
    (h : ∀ t x, x ∈ xs → t.cfg = s.cfg → t.led = s.led →
      f t x = { t with wave := (offs x).foldl (waveSet s.cfg.packOrder) t.wave }) :
    xs.foldl f s = { s with wave := (xs.flatMap offs).foldl (waveSet s.cfg.packOrder) s.wave } := by
  induction xs generalizing s with
  | nil => rfl
  | cons x xs ih =>
    rw [List.foldl_cons, h s x List.mem_cons_self rfl rfl, ih]
    · simp [List.foldl_append]
    · intro t y hy hc hl
      exact h t y (List.mem_cons_of_mem _ hy) hc hl

theorem State.waveSetBit_eq {s : State} {k : Nat} (h : k < s.cfg.waveBits) :
    s.waveSetBit k = { s with wave := waveSet s.cfg.packOrder s.wave k } := by
  simp [State.waveSetBit, h, State.setWaveWord, waveSet, State.waveWord]

/-- The offsets one triplet sets (R206). -/
def tripletOffsets (base : Nat) (t : BitStream) : List Nat :=
  (List.range 3).flatMap fun u => if t.getD u false then [base + u] else []

theorem State.encodeTriplet_eq {s : State} {base : Nat} (t : BitStream) (h : base + 2 < s.cfg.waveBits) :
    s.encodeTriplet base t =
      { s with wave := (tripletOffsets base t).foldl (waveSet s.cfg.packOrder) s.wave } := by
  apply foldl_sets
  intro r u hu hc _
  have : u < 3 := List.mem_range.mp hu
  split
  · rw [State.waveSetBit_eq (by rw [hc]; omega), hc]; rfl
  · rfl

/-- The offsets the codeword of LED i sets (R206). -/
def ledOffsets (i : Nat) (c : Color) : List Nat :=
  (List.range 24).flatMap fun j => tripletOffsets (codewordBits * i + 3 * j) (trip ((grb c).getLsbD (23 - j)))

theorem State.encodeLed_eq {s : State} {i : Nat} (h : codewordBits * i + 71 < s.cfg.waveBits) :
    s.encodeLed i = { s with
      wave := (ledOffsets i (s.led.getD i Color.black)).foldl (waveSet s.cfg.packOrder) s.wave } := by
  apply foldl_sets
  intro t j hj hc _
  have : j < 24 := List.mem_range.mp hj
  rw [State.encodeTriplet_eq _ (by rw [hc]; omega), hc]

/-- Every offset WaveEncode sets (R206). -/
def chainOffsets (n : Nat) (led : List Color) : List Nat :=
  (List.range n).flatMap fun i => ledOffsets i (led.getD i Color.black)

/-- WaveEncode sets the offsets of the chain and changes nothing else, where the chain fits (R206, R210). -/
theorem State.waveEncode_eq {s : State} (h : codewordBits * s.cfg.numLeds ≤ s.cfg.waveBits) :
    s.waveEncode = { s with
      wave := (chainOffsets s.cfg.numLeds s.led).foldl (waveSet s.cfg.packOrder) s.wave } := by
  apply foldl_sets
  intro t i hi hc hl
  have : i < s.cfg.numLeds := List.mem_range.mp hi
  rw [State.encodeLed_eq (by rw [hc]; simp only [codewordBits] at *; omega), hc, hl]

theorem foldl_clear (n : Nat) (l : List Word) (h : n ≤ l.length) :
    (List.range n).foldl (fun l w => l.set w 0#32) l = List.replicate n 0#32 ++ l.drop n := by
  induction n with
  | zero => simp
  | succ n ih =>
    rw [List.range_succ, List.foldl_append, ih (by omega)]
    simp only [List.foldl_cons, List.foldl_nil]
    rw [List.set_append_right _ _ (by simp)]
    simp only [List.length_replicate, Nat.sub_self, List.replicate_succ']
    rw [List.append_assoc]
    congr 1
    rw [List.drop_eq_getElem_cons (by omega : n < l.length)]
    rfl

/-- WaveClear zeroes every word and changes nothing else (R205). -/
theorem State.waveClear_eq {s : State} (h : s.wave.length = s.cfg.waveWords) :
    s.waveClear = { s with wave := List.replicate s.cfg.waveWords 0#32 } := by
  have : ∀ (xs : List Nat) (t : State), xs.foldl (fun s w => s.setWaveWord w 0#32) t =
      { t with wave := xs.foldl (fun l w => l.set w 0#32) t.wave } := by
    intro xs
    induction xs with
    | nil => intro t; rfl
    | cons x xs ih => intro t; rw [List.foldl_cons, ih]; rfl
  rw [State.waveClear, this, foldl_clear _ _ (le_of_eq h.symm), ← h]
  simp

/-! The offsets set are the 1 bits of the frame. -/

/-- Element m of a concatenation of streams of one length c is element m mod c of stream m div c. -/
theorem getElem?_flatMap_const {α : Type} (f : α → BitStream) {c : Nat} (hc : 0 < c) (hf : ∀ x, (f x).length = c)
    (xs : List α) (m : Nat) : (xs.flatMap f)[m]? = xs[m / c]?.bind fun x => (f x)[m % c]? := by
  induction xs generalizing m with
  | nil => simp
  | cons x xs ih =>
    rw [List.flatMap_cons]
    by_cases h : m < c
    · rw [List.getElem?_append_left (by rw [hf]; exact h), Nat.div_eq_of_lt h, Nat.mod_eq_of_lt h]; rfl
    · have hm : c ≤ m := Nat.le_of_not_lt h
      rw [List.getElem?_append_right (by rw [hf]; exact hm), hf, ih, Nat.div_eq_sub_div hc hm, Nat.mod_eq_sub_mod hm]
      rfl

theorem trip_length (b : Bool) : (trip b).length = 3 := by cases b <;> rfl

theorem code72_length (c : Color) : (code72 c).length = 72 := by
  simp [code72, List.length_flatMap, trip_length]

theorem code72_getElem? (c : Color) (n : Nat) :
    (code72 c)[n]? = (List.range 24)[n / 3]?.bind fun j => (trip ((grb c).getLsbD (23 - j)))[n % 3]? :=
  getElem?_flatMap_const _ (by decide) (fun _ => trip_length _) _ n

theorem chain_length (led : List Color) : (led.flatMap code72).length = 72 * led.length := by
  simp [List.length_flatMap, code72_length, Nat.mul_comm]

theorem frame_length {c : Config} {led : List Color} (h : codewordBits * led.length ≤ c.waveBits) :
    (frame c led).length = c.waveBits := by
  simp only [frame, List.length_append, chain_length, List.length_replicate, codewordBits] at *
  omega

/-- Bit k of the frame: bit k mod 72 of the codeword of LED k div 72, and 0 past the chain (R204). -/
theorem frame_bit (c : Config) (led : List Color) (k : Nat) :
    (frame c led).getD k false =
      match led[k / 72]? with
      | some x => (code72 x).getD (k % 72) false
      | none => false := by
  have hf := getElem?_flatMap_const code72 (by decide : 0 < 72) code72_length led k
  simp only [List.getD, frame]
  by_cases h : k < (led.flatMap code72).length
  · rw [List.getElem?_append_left h, hf]
    cases led[k / 72]? <;> rfl
  · rw [List.getElem?_append_right (Nat.le_of_not_lt h)]
    have hk : led.length ≤ k / 72 := by rw [chain_length] at h; omega
    rw [List.getElem?_eq_none hk]
    cases hx : (List.replicate (c.waveBits - codewordBits * led.length) false)[k - (led.flatMap code72).length]? with
    | none => rfl
    | some b => simp [List.getElem?_replicate] at hx; simp [← hx.2]

theorem mem_tripletOffsets {base m : Nat} {t : BitStream} :
    m ∈ tripletOffsets base t ↔ ∃ u < 3, t.getD u false = true ∧ m = base + u := by
  simp only [tripletOffsets, List.mem_flatMap, List.mem_range]
  constructor
  · rintro ⟨u, hu, hm⟩
    split at hm
    · exact ⟨u, hu, ‹_›, by simpa using hm⟩
    · cases hm
  · rintro ⟨u, hu, ht, rfl⟩
    exact ⟨u, hu, by rw [if_pos ht]; exact List.mem_singleton_self _⟩

/-- The offsets of LED i are the 1 bits of its codeword, 72i places on (R206). -/
theorem mem_ledOffsets {i m : Nat} {c : Color} :
    m ∈ ledOffsets i c ↔ m / 72 = i ∧ (code72 c).getD (m % 72) false = true := by
  simp only [ledOffsets, List.mem_flatMap, List.mem_range, mem_tripletOffsets, codewordBits]
  have bit : ∀ j u, j < 24 → u < 3 →
      (code72 c).getD (3 * j + u) false = (trip ((grb c).getLsbD (23 - j))).getD u false := by
    intro j u hj hu
    have h1 : (3 * j + u) / 3 = j := by omega
    have h2 : (3 * j + u) % 3 = u := by omega
    simp only [List.getD]
    rw [code72_getElem?, h1, h2, List.getElem?_range hj]; rfl
  constructor
  · rintro ⟨j, hj, u, hu, ht, rfl⟩
    have h1 : (72 * i + 3 * j + u) / 72 = i := by omega
    have h2 : (72 * i + 3 * j + u) % 72 = 3 * j + u := by omega
    exact ⟨h1, by rw [h2, bit j u hj hu]; exact ht⟩
  · rintro ⟨rfl, hb⟩
    have hlt : m % 72 < 72 := Nat.mod_lt _ (by decide)
    refine ⟨m % 72 / 3, by omega, m % 72 % 3, by omega, ?_, by omega⟩
    rw [← bit _ _ (by omega) (by omega)]
    have : 3 * (m % 72 / 3) + m % 72 % 3 = m % 72 := by omega
    rw [this]; exact hb

/-- The offsets WaveEncode sets are the 1 bits of the frame (R207). -/
theorem mem_chainOffsets (c : Config) (led : List Color) (m : Nat) :
    decide (m ∈ chainOffsets led.length led) = (frame c led).getD m false := by
  rw [frame_bit, Bool.eq_iff_iff]
  simp only [chainOffsets, List.mem_flatMap, List.mem_range, mem_ledOffsets, decide_eq_true_eq]
  constructor
  · rintro ⟨i, hi, rfl, hb⟩
    rw [List.getElem?_eq_getElem hi]
    simpa [List.getD, List.getElem?_eq_getElem hi] using hb
  · intro h
    cases hx : led[m / 72]? with
    | none => rw [hx] at h; exact absurd h (by simp)
    | some x =>
      rw [hx] at h
      have hi : m / 72 < led.length := by
        by_contra hn; rw [List.getElem?_eq_none (Nat.le_of_not_lt hn)] at hx; cases hx
      exact ⟨m / 72, hi, rfl, by simpa [List.getD, hx] using h⟩

theorem streamBit_zeros (o : PackOrder) (n k : Nat) : streamBit o (List.replicate n 0#32) k = false := by
  have : (List.replicate n 0#32).getD (wordIndex k) 0#32 = 0#32 := by
    simp only [List.getD, List.getElem?_replicate]; split <;> rfl
  rw [streamBit, this]; simp [bitGet]

/-- The words steps 2 and 3 leave in the buffer: a function of the configuration and the LED buffer alone (R211). -/
def encodedWave (c : Config) (led : List Color) : List Word :=
  (chainOffsets c.numLeds led).foldl (waveSet c.packOrder) (List.replicate c.waveWords 0#32)

theorem encodedWave_length (c : Config) (led : List Color) : (encodedWave c led).length = c.waveWords := by
  rw [encodedWave, foldl_waveSet_length, List.length_replicate]

/-- Bit k of the encoded buffer is bit k of the frame (R207). -/
theorem streamBit_encodedWave {c : Config} {led : List Color} (hl : led.length = c.numLeds)
    (hc : codewordBits * c.numLeds ≤ c.waveBits) (k : Nat) :
    streamBit c.packOrder (encodedWave c led) k = (frame c led).getD k false := by
  rw [encodedWave, streamBit_foldl, streamBit_zeros, Bool.false_or, ← mem_chainOffsets c led k, hl]
  intro m hm
  simp only [chainOffsets, List.mem_flatMap, List.mem_range, mem_ledOffsets] at hm
  obtain ⟨i, hi, hmi, -⟩ := hm
  rw [List.length_replicate]
  simp only [wordIndex, Config.waveBits, codewordBits] at *
  omega

/-! The push loop. -/

/-- SHOW step 5 changes the trace and the target only, and pushes every word of the buffer in order (R235). -/
theorem State.pushWave_eq {s : State} (h : s.wave.length = s.cfg.waveWords) :
    s.pushWave = { s with
      trace := s.trace ++ s.wave.flatMap fun v => [.wr (regAddr s.cfg .pwmFif1) (rev32 v), .dly s.cfg.tFifo]
      per := s.pushWave.per
      ser := s.pushWave.ser } := by
  have loop : ∀ (n : Nat), n ≤ s.wave.length →
      ∀ t, t = (List.range n).foldl (fun s w => s.writeSettle .pwmFif1 (rev32 (s.waveWord w)) s.cfg.tFifo) s →
      t = { s with
        trace := s.trace ++ (s.wave.take n).flatMap fun v =>
          [.wr (regAddr s.cfg .pwmFif1) (rev32 v), .dly s.cfg.tFifo]
        per := t.per
        ser := t.ser } := by
    intro n
    induction n with
    | zero => intro _ t ht; subst ht; simp
    | succ n ih =>
      intro hn t ht
      rw [List.range_succ, List.foldl_append] at ht
      have := ih (by omega) _ rfl
      rw [this] at ht
      subst ht
      have hx : s.wave[n]? = some s.wave[n] := List.getElem?_eq_getElem (by omega)
      simp [State.writeSettle, State.memWrite, State.delay, State.record, State.waveWord, List.getD, hx]
      rw [List.take_add_one, hx, List.flatMap_append]; rfl
  have := loop s.wave.length le_rfl _ rfl
  rw [List.take_length, h] at this
  exact this

/-- On a sound map, with room in the FIFO, the FIFO gains the reversed words in order, and nothing else at the target changes
(R235, 70_reset_and_hazards.md R303). -/
theorem State.pushWave_sound {s : State} (hm : soundMap s.cfg = true) (h : s.wave.length = s.cfg.waveWords)
    (hf : s.ser.fifo.length + s.cfg.waveWords ≤ s.cfg.fifoDepth) :
    s.pushWave.per = s.per ∧ s.pushWave.ser = { s.ser with fifo := s.ser.fifo ++ s.wave.map rev32 } := by
  have loop : ∀ (n : Nat), n ≤ s.wave.length →
      let t := (List.range n).foldl (fun s w => s.writeSettle .pwmFif1 (rev32 (s.waveWord w)) s.cfg.tFifo) s
      t.cfg = s.cfg ∧ t.wave = s.wave ∧ t.per = s.per ∧
        t.ser = { s.ser with fifo := s.ser.fifo ++ (s.wave.take n).map rev32 } := by
    intro n
    induction n with
    | zero => intro _; simp
    | succ n ih =>
      intro hn
      obtain ⟨hc, hw, hp, hs⟩ := ih (by omega)
      simp only [List.range_succ, List.foldl_append, List.foldl_cons, List.foldl_nil]
      generalize (List.range n).foldl (fun s w => s.writeSettle .pwmFif1 (rev32 (s.waveWord w)) s.cfg.tFifo) s = t at *
      rw [State.writeSettle_eq (by rw [hc]; exact hm)]
      refine ⟨hc, hw, hp, ?_⟩
      have hroom : s.ser.fifo.length + n < s.cfg.fifoDepth := by omega
      have hmin : min n s.wave.length = n := by omega
      have hx : s.wave[n]? = some s.wave[n] := List.getElem?_eq_getElem (by omega)
      simp [Serializer.write, hc, hs, hw, State.waveWord, List.getD, hmin, hroom, hx]
      rw [List.take_add_one, List.getElem?_map, hx]; rfl
  have := loop s.wave.length le_rfl
  rw [List.take_length, h] at this
  exact ⟨this.2.2.1, this.2.2.2⟩

end Sys2Proof.Machine
end

