-- ==== Sys2Proof/Laws/Commands.lean ====
section
/-! SUPPORT. What INIT_HW and SHOW do from acceptance to completion, as one record update each
(41_init_hw.md R150, 44_show.md R230). -/

namespace Sys2Proof.Machine

/-! The PWM control words on a sound map (10_state.md R42, R43). -/

theorem bitGet_zero (n : Fin 32) : bitGet 0#32 n = false := by simp [bitGet]

theorem bitGet_ctlCfg (c : Config) (n : Fin 32) :
    bitGet (ctlCfg c) n = (decide (n = c.layout.mode1) || decide (n = c.layout.usef1)) := by
  rw [ctlCfg, bitGet_or, bitGet_bitMask, bitGet_bitMask]

theorem bitGet_ctlRun (c : Config) (n : Fin 32) :
    bitGet (ctlRun c) n =
      (decide (n = c.layout.mode1) || decide (n = c.layout.usef1) || decide (n = c.layout.pwen1)) := by
  rw [ctlRun, bitGet_or, bitGet_ctlCfg, bitGet_bitMask]

/-- The control-word positions that CTL_CFG and CTL_RUN leave 0. -/
theorem soundMap_ctl {c : Config} (h : soundMap c = true) :
    bitGet (ctlCfg c) c.layout.clrf1 = false ∧ bitGet (ctlClrf c) c.layout.clrf1 = true ∧
      bitGet (ctlRun c) c.layout.clrf1 = false ∧ bitGet (ctlCfg c) c.layout.pwen1 = false ∧
      bitGet (ctlRun c) c.layout.rptl1 = false ∧ bitGet (ctlRun c) c.layout.sbit1 = false ∧
      bitGet (ctlRun c) c.layout.pola1 = false := by
  have hn := soundMap_ctlNodup h
  simp only [List.nodup_cons, List.mem_cons, List.not_mem_nil, or_false, not_or] at hn
  obtain ⟨⟨a1, a2, a3, a4, a5, a6, a7⟩, ⟨b1, b2, b3, b4, b5, b6⟩, ⟨c1, c2, c3, c4, c5⟩, ⟨d1, d2, d3, d4⟩, ⟨e1, e2, e3⟩,
    ⟨f1, f2⟩, -⟩ := hn
  simp only [bitGet_ctlCfg, bitGet_ctlRun, ctlClrf, bitGet_or, bitGet_bitMask, decide_true, Bool.or_true, Bool.or_eq_false_iff,
    decide_eq_false_iff_not]
  exact ⟨⟨Ne.symm b5, Ne.symm f1⟩, trivial, ⟨⟨Ne.symm b5, Ne.symm f1⟩, Ne.symm a6⟩, ⟨a1, a5⟩, ⟨⟨Ne.symm b1, c3⟩, Ne.symm a2⟩,
    ⟨⟨Ne.symm b2, d2⟩, Ne.symm a3⟩, ⟨⟨Ne.symm b3, e1⟩, Ne.symm a4⟩⟩

theorem bitClear_of_clear {v : Word} {n : Fin 32} (h : bitGet v n = false) : bitClear v n = v := by
  apply word_ext
  intro m
  rw [bitGet_bitClear]
  by_cases hm : m = n
  · subst hm; simp [h]
  · simp [hm]

theorem bitClear_ctlClrf {c : Config} (h : soundMap c = true) : bitClear (ctlClrf c) c.layout.clrf1 = ctlCfg c := by
  apply word_ext
  intro m
  have := (soundMap_ctl h).1
  rw [bitGet_bitClear, ctlClrf, bitGet_or, bitGet_bitMask]
  by_cases hm : m = c.layout.clrf1
  · subst hm; simp [this]
  · simp [hm]

/-- The faults INIT_HW and SHOW leave when the chain fits (R150, R230). -/
def overlapFaults (s : State) : FaultRecord := if s.ser.framePending then s.faults.add .frameOverlap else s.faults

/-! SHOW. -/

/-- What an elaborated configuration meets (70_reset_and_hazards.md R295, 20_memory.md R72, R75, 00_scope.md R10). -/
theorem elaborates_parts {c : Config} (h : elaborates c = true) :
    codewordBits * c.numLeds ≤ c.waveBits ∧ c.waveWords ≤ c.fifoDepth ∧ c.pin / 10 ≤ 5 ∧ c.bitsPerLed = codewordBits ∧
      c.windowBytes = 4096 := by
  simp only [elaborates, capacityOk, fifoOk, pinOk, fixedOk, Bool.and_eq_true, decide_eq_true_eq] at h
  obtain ⟨⟨⟨⟨⟨⟨⟨⟨-, h1⟩, h2⟩, -⟩, h3⟩, -⟩, -⟩, -⟩, ⟨h4, h5⟩, -⟩ := h
  exact ⟨h4 ▸ h1, h2, h3, h4, h5⟩

theorem Sized_capacity {s : State} (h : s.Sized) : codewordBits * s.cfg.numLeds ≤ s.cfg.waveBits :=
  (elaborates_parts h.2.2).1

/-- The draws counter where SHOW makes PWM STA any value: a cut frame has drawn its own values (R301). -/
def drawsAfterCut (s : State) : Nat := if s.undisturbed then s.draws else s.draws + 1

/-- SHOW on a sized state (R230): what it leaves in every field, the target left open. -/
theorem runShowFrame_eq {s : State} (h : s.Sized) :
    s.runShowFrame = { s with
      wave := encodedWave s.cfg s.led
      seq := .idle
      respStatus := 0x00#8
      respOk := true
      trace := s.trace ++ showFrameTrace s.cfg (encodedWave s.cfg s.led)
      faults := overlapFaults s
      per := s.runShowFrame.per
      ser := s.runShowFrame.ser
      draws := drawsAfterCut s + 1 } := by
  have key : ∀ t, t = s.runShowFrame → t = { s with
      wave := encodedWave s.cfg s.led
      seq := .idle
      respStatus := 0x00#8
      respOk := true
      trace := s.trace ++ showFrameTrace s.cfg (encodedWave s.cfg s.led)
      faults := overlapFaults s
      per := t.per
      ser := t.ser
      draws := drawsAfterCut s + 1 } := by
    intro t ht
    simp only [State.runShowFrame, runSequencer, sequencerStep, showStep, State.goto_seq] at ht
    rw [State.cutFrame_eq, State.recordOverlap_eq] at ht
    rw [State.waveClear_eq (by simpa using h.2.1)] at ht
    rw [State.waveEncode_eq (by simpa using Sized_capacity h)] at ht
    rw [State.pushWave_eq (by simp [foldl_waveSet_length])] at ht
    subst ht
    simp [State.complete, State.respond, State.goto, State.setFramePending, State.memWrite, State.record, State.writeSettle,
      State.delay, showFrameTrace, encodedWave, overlapFaults, Status.code, Status.success, State.undisturbed,
      State.wireDefined, drawsAfterCut]
  exact key _ rfl

/-- SHOW at the target, on a sound map with a deep enough FIFO (R231 to R236): CTL ends as CTL_RUN and nothing else in the
registers changes but PWM STA, which is any value; the FIFO holds exactly the reversed words; a frame is pending. -/
theorem runShowFrame_target {s : State} (h : s.Sized) (hm : soundMap s.cfg = true) :
    s.runShowFrame.per = { s.per with
        ctl := ctlRun s.cfg
        sta := Config.freeSta (drawsAfterCut s) } ∧
      s.runShowFrame.ser =
        { fifo := (encodedWave s.cfg s.led).map rev32
          shift := []
          framePending := true
          wire := (if s.undisturbed then s.ser else s.ser.runFree s.draws).wire } := by
  obtain ⟨z1, z2, z3, -⟩ := soundMap_ctl hm
  have hfifo : s.cfg.waveWords ≤ s.cfg.fifoDepth := (elaborates_parts h.2.2).2.1
  have four : showStep .stopAndFlush (showStep .waveEncode (showStep .waveClear (showStep .reassert
      (s.recordOverlap.goto (.showFrame .reassert))))) =
      { s with
        wave := encodedWave s.cfg s.led
        seq := .showFrame .push
        trace := s.trace ++ [.wr (regAddr s.cfg .pwmCtl) (ctlCfg s.cfg), .dly s.cfg.tSettle,
          .wr (regAddr s.cfg .pwmCtl) (ctlCfg s.cfg), .dly s.cfg.tSettle,
          .wr (regAddr s.cfg .pwmCtl) (ctlClrf s.cfg), .dly s.cfg.tSettle]
        faults := overlapFaults s
        per := { s.per with
          ctl := ctlCfg s.cfg
          sta := if s.undisturbed then s.per.sta else Config.freeSta s.draws }
        ser := { (if s.undisturbed then s.ser else s.ser.runFree s.draws) with fifo := [], shift := [] }
        draws := drawsAfterCut s } := by
    simp only [showStep]
    rw [State.cutFrame_eq, State.recordOverlap_eq]
    rw [State.waveClear_eq (by simpa using h.2.1)]
    rw [State.waveEncode_eq (by simpa using Sized_capacity h)]
    simp [State.goto, State.memWrite, State.record, State.writeSettle, State.delay, decodeAddr_regAddr hm, Peripherals.write,
      Serializer.write, z1, z2, bitClear_ctlClrf hm, encodedWave, overlapFaults, State.undisturbed, State.wireDefined,
      drawsAfterCut]
  have run : s.runShowFrame = showStep .enable (showStep .push (showStep .stopAndFlush (showStep .waveEncode
      (showStep .waveClear (showStep .reassert (s.recordOverlap.goto (.showFrame .reassert))))))) := by
    simp only [State.runShowFrame, runSequencer, sequencerStep, showStep, State.goto_seq]
  rw [run, four]
  simp only [showStep]
  generalize hs4 : ({ s with
        wave := encodedWave s.cfg s.led
        seq := .showFrame .push
        trace := s.trace ++ [.wr (regAddr s.cfg .pwmCtl) (ctlCfg s.cfg), .dly s.cfg.tSettle,
          .wr (regAddr s.cfg .pwmCtl) (ctlCfg s.cfg), .dly s.cfg.tSettle,
          .wr (regAddr s.cfg .pwmCtl) (ctlClrf s.cfg), .dly s.cfg.tSettle]
        faults := overlapFaults s
        per := { s.per with
          ctl := ctlCfg s.cfg
          sta := if s.undisturbed then s.per.sta else Config.freeSta s.draws }
        ser := { (if s.undisturbed then s.ser else s.ser.runFree s.draws) with fifo := [], shift := [] }
        draws := drawsAfterCut s } : State) = s4
  have hw4 : s4.wave.length = s4.cfg.waveWords := by subst hs4; exact encodedWave_length _ _
  have hm4 : soundMap s4.cfg = true := by subst hs4; exact hm
  have hp := State.pushWave_sound hm4 hw4 (by subst hs4; simpa using hfifo)
  rw [State.pushWave_eq hw4, hp.1, hp.2]
  subst hs4
  simp [State.goto, State.memWrite, State.record, State.complete, State.respond, State.setFramePending,
    decodeAddr_regAddr hm, Peripherals.write, Serializer.write, z3, bitClear_of_clear z3, drawsAfterCut]

/-! INIT_HW. -/

/-- The state INIT_HW stands in after its step 1 has succeeded (R150, R151). -/
def establishedState (s : State) : State :=
  { s with seq := .initHw .pinFunction, mapped := true, faults := overlapFaults s }

/-- Step 1 changes nothing a read depends on (R123). -/
theorem establishedState_storedWord (s : State) (a : Word) : (establishedState s).storedWord a = s.storedWord a := rfl

theorem runInitHw_established {s : State} (h : s.mapped = true ∨ s.mapOk = true) :
    s.runInitHw = runSequencer 9 (establishedState s) := by
  have : initStep .establish (s.recordOverlap.goto (.initHw .establish)) = establishedState s := by
    have he : (s.recordOverlap.goto (.initHw .establish)).establishWindows =
        { s.recordOverlap.goto (.initHw .establish) with mapped := true } :=
      State.establishWindows_ok (by rw [State.recordOverlap_eq]; exact h)
    simp only [initStep]
    rw [he, State.recordOverlap_eq]
    rfl
  show runSequencer 9 (initStep .establish (s.recordOverlap.goto (.initHw .establish))) = _
  rw [this]

/-- The draws counter after INIT_HW step 2: a read no rule decides has drawn its value (R123). -/
def drawsAfterRead (s : State) : Nat := if s.readsStored (fselAddr s.cfg s.cfg.pin) then s.draws else s.draws + 1

/-- The draws counter after INIT_HW. -/
def initHwDraws (s : State) : Nat := if s.undisturbed then drawsAfterRead s else drawsAfterRead s + 1

/-- INIT_HW steps 4 to 10, then the response (R154 to R160, R150): every field but the target. -/
theorem runSequencer_configure_eq {t : State} (hq : t.seq = .initHw .dmaOff) :
    runSequencer 7 t = { t with
      seq := .idle
      initDone := true
      respStatus := 0x00#8
      respOk := true
      trace := t.trace ++
        [.wr (regAddr t.cfg .pwmDmac) dmacOff, .dly t.cfg.tSettle,
         .wr (regAddr t.cfg .cmPwmdiv) (cmDivWord t.cfg), .dly t.cfg.tSettle,
         .wr (regAddr t.cfg .cmPwmctl) (cmRunWord t.cfg), .dly t.cfg.tSettle,
         .wr (regAddr t.cfg .pwmCtl) ctlZero, .dly t.cfg.tSettle,
         .wr (regAddr t.cfg .pwmRng1) t.cfg.rangeBits, .dly t.cfg.tSettle,
         .wr (regAddr t.cfg .pwmSta) t.cfg.staClear, .dly t.cfg.tSettle,
         .wr (regAddr t.cfg .pwmCtl) (ctlCfg t.cfg), .dly t.cfg.tSettle]
      per := (runSequencer 7 t).per
      ser := (runSequencer 7 t).ser } := by
  generalize hu : runSequencer 7 t = u
  simp only [runSequencer, sequencerStep, initStep, State.goto_seq, hq] at hu
  subst hu
  simp [State.complete, State.respond, State.goto, State.memWrite, State.record, State.writeSettle, State.delay, Status.code,
    Status.success]

/-- INIT_HW step 3 (R153, 70_reset_and_hazards.md R301): every field but the target. -/
theorem initStep_clockKill_eq (t : State) :
    initStep .clockKill t = { t with
      seq := .initHw .dmaOff
      trace := t.trace ++ [.wr (regAddr t.cfg .cmPwmctl) (cmKillWord t.cfg), .dly t.cfg.tClkStop]
      per := (initStep .clockKill t).per
      ser := (initStep .clockKill t).ser
      draws := if t.undisturbed then t.draws else t.draws + 1 } := by
  generalize hu : initStep .clockKill t = u
  simp only [initStep] at hu
  rw [State.cutFrame_eq] at hu
  subst hu
  simp [State.goto, State.memWrite, State.record, State.writeSettle, State.delay]

/-- INIT_HW step 2 after step 1 (R152): every field but the target, and that a frame pending is still pending. -/
theorem initStep_pinFunction_eq (s : State) :
    initStep .pinFunction (establishedState s) = { s with
      seq := .initHw .clockKill
      mapped := true
      faults := overlapFaults s
      trace := s.trace ++ [.rd (fselAddr s.cfg s.cfg.pin) (s.readValue (fselAddr s.cfg s.cfg.pin)),
        .wr (fselAddr s.cfg s.cfg.pin) (fselWritten s.cfg (s.readValue (fselAddr s.cfg s.cfg.pin))), .dly s.cfg.tSettle]
      per := (initStep .pinFunction (establishedState s)).per
      ser := (initStep .pinFunction (establishedState s)).ser
      draws := drawsAfterRead s } ∧
    (initStep .pinFunction (establishedState s)).undisturbed = s.undisturbed := by
  have hf : (initStep .pinFunction (establishedState s)).ser.framePending = s.ser.framePending :=
    (State.gpioSetFunction_framePending (establishedState s) _ _).1
  refine ⟨?_, by rw [State.undisturbed, hf]; rfl⟩
  generalize hu : initStep .pinFunction (establishedState s) = u
  simp only [initStep] at hu
  rw [State.gpioSetFunction_eq, State.readValue, State.readsStored, establishedState_storedWord] at hu
  subst hu
  simp [State.goto, State.delay, State.record, establishedState, fselWritten, State.readValue, drawsAfterRead,
    State.readsStored]
  rfl

/-- INIT_HW when the windows can be established (R150): what it leaves in every field, the target left open. -/
theorem runInitHw_eq {s : State} (h : s.mapped = true ∨ s.mapOk = true) :
    s.runInitHw = { s with
      seq := .idle
      mapped := true
      initDone := true
      respStatus := 0x00#8
      respOk := true
      trace := s.trace ++ initHwTrace s.cfg (s.readValue (fselAddr s.cfg s.cfg.pin))
      faults := overlapFaults s
      per := s.runInitHw.per
      ser := s.runInitHw.ser
      draws := initHwDraws s } := by
  obtain ⟨e2, u2⟩ := initStep_pinFunction_eq s
  generalize h2 : initStep .pinFunction (establishedState s) = t2 at e2 u2
  have e3 := initStep_clockKill_eq t2
  generalize h3 : initStep .clockKill t2 = t3 at e3
  have run : s.runInitHw = runSequencer 7 t3 := by
    rw [runInitHw_established h]
    have r1 : sequencerStep (establishedState s) = t2 := h2
    have q2 : t2.seq = .initHw .clockKill := by rw [e2]
    have r2 : sequencerStep t2 = t3 := by rw [sequencerStep, q2]; exact h3
    rw [runSequencer, r1, runSequencer, r2]
  have e4 := runSequencer_configure_eq (t := t3) (by rw [e3])
  rw [← run] at e4
  generalize s.runInitHw = u at *
  rw [e4, e3, u2, e2]
  simp [initHwTrace, initHwDraws]

/-- INIT_HW when the windows cannot be established: FATAL, and nothing else but the recorded overlap (60_exceptions.md
R262). -/
theorem runInitHw_fatal {s : State} (h1 : s.mapped = false) (h2 : s.mapOk = false) :
    s.runInitHw = { s with
      seq := .fatal
      respStatus := 0x03#8
      respOk := false
      faults := overlapFaults s } := by
  have : initStep .establish (s.recordOverlap.goto (.initHw .establish)) = { s with
      seq := .fatal
      respStatus := 0x03#8
      respOk := false
      faults := overlapFaults s } := by
    have he : (s.recordOverlap.goto (.initHw .establish)).establishWindows =
        (s.recordOverlap.goto (.initHw .establish)).raiseFatal :=
      State.establishWindows_fail (by rw [State.recordOverlap_eq]; exact h1) (by rw [State.recordOverlap_eq]; exact h2)
    simp only [initStep]
    rw [he, State.recordOverlap_eq]
    rfl
  show runSequencer 9 (initStep .establish (s.recordOverlap.goto (.initHw .establish))) = _
  rw [this]
  rfl

/-- INIT_HW steps 4 to 10 at the target, on a sound map (R154 to R160). -/
theorem runSequencer_configure {t : State} (hm : soundMap t.cfg = true) (hq : t.seq = .initHw .dmaOff) :
    (runSequencer 7 t).per =
        { t.per with
          ctl := ctlCfg t.cfg
          sta := t.per.sta &&& ~~~ (t.cfg.staClear &&& staErrorMask t.cfg)
          dmac := dmacOff
          rng1 := t.cfg.rangeBits
          cmCtl := cmCtlWritten t.cfg (cmRunWord t.cfg)
          cmDiv := cmDivWord t.cfg } ∧
      (runSequencer 7 t).ser = t.ser := by
  obtain ⟨z1, -, -, -⟩ := soundMap_ctl hm
  simp only [runSequencer, sequencerStep, initStep, State.goto_seq, hq]
  simp [State.complete, State.respond, State.goto, State.memWrite, State.record, State.writeSettle, State.delay,
    decodeAddr_regAddr hm, Peripherals.write, Serializer.write, z1, bitClear_of_clear z1, ctlZero, bitGet_zero,
    bitClear_of_clear (bitGet_zero _), cmRunWord, cmDivWord, passwordOk_cmWord]

/-- INIT_HW step 3 at the target, on a sound map (R153, 70_reset_and_hazards.md R301). -/
theorem initStep_clockKill {t : State} (hm : soundMap t.cfg = true) :
    (initStep .clockKill t).cfg = t.cfg ∧ (initStep .clockKill t).seq = .initHw .dmaOff ∧
      (initStep .clockKill t).per =
        { t.per with
          sta := if t.undisturbed then t.per.sta else Config.freeSta t.draws
          cmCtl := cmCtlWritten t.cfg (cmKillWord t.cfg) } ∧
      (initStep .clockKill t).ser = if t.undisturbed then t.ser else t.ser.runFree t.draws := by
  simp only [initStep]
  rw [State.cutFrame_eq, State.writeSettle_eq (by exact hm)]
  simp [State.goto, Peripherals.write, Serializer.write, cmKillWord, passwordOk_cmWord]

/-- INIT_HW at the target, on a sound map (R152 to R160). -/
theorem runInitHw_target {s : State} (h : s.mapped = true ∨ s.mapOk = true) (hm : soundMap s.cfg = true)
    (hp : s.cfg.pin / 10 ≤ 5) :
    s.runInitHw.per =
        { gpfsel := s.per.gpfsel.set (s.cfg.pin / 10) (fselWritten s.cfg (s.readValue (fselAddr s.cfg s.cfg.pin)))
          ctl := ctlCfg s.cfg
          sta := (if s.undisturbed then s.per.sta else Config.freeSta (drawsAfterRead s)) &&&
            ~~~ (s.cfg.staClear &&& staErrorMask s.cfg)
          dmac := dmacOff
          rng1 := s.cfg.rangeBits
          cmCtl := cmCtlWritten s.cfg (cmRunWord s.cfg)
          cmDiv := cmDivWord s.cfg } ∧
      s.runInitHw.ser = if s.undisturbed then s.ser else s.ser.runFree (drawsAfterRead s) := by
  -- the state after step 2
  have two : ∃ t, initStep .pinFunction (establishedState s) = t ∧ t.cfg = s.cfg ∧ t.seq = .initHw .clockKill ∧
      t.per = { s.per with
        gpfsel := s.per.gpfsel.set (s.cfg.pin / 10) (fselWritten s.cfg (s.readValue (fselAddr s.cfg s.cfg.pin))) } ∧
      t.ser = s.ser ∧ t.draws = drawsAfterRead s ∧ t.undisturbed = s.undisturbed := by
    have hg := State.gpioSetFunction_sound (s := establishedState s) hm (p := s.cfg.pin) hp (altFsel s.cfg.alt)
    have g := State.gpioSetFunction_eq (establishedState s) s.cfg.pin (altFsel s.cfg.alt)
    rw [hg.1, hg.2] at g
    refine ⟨_, rfl, ?_⟩
    show (((establishedState s).gpioSetFunction s.cfg.pin (altFsel s.cfg.alt)).delay s.cfg.tSettle).cfg = s.cfg ∧ _ ∧
      (((establishedState s).gpioSetFunction s.cfg.pin (altFsel s.cfg.alt)).delay s.cfg.tSettle).per = _ ∧
      (((establishedState s).gpioSetFunction s.cfg.pin (altFsel s.cfg.alt)).delay s.cfg.tSettle).ser = _ ∧
      (((establishedState s).gpioSetFunction s.cfg.pin (altFsel s.cfg.alt)).delay s.cfg.tSettle).draws = _ ∧
      (((establishedState s).gpioSetFunction s.cfg.pin (altFsel s.cfg.alt)).delay s.cfg.tSettle).undisturbed = _
    rw [g]
    exact ⟨rfl, rfl, rfl, rfl, rfl, rfl⟩
  obtain ⟨t, ht, c2, q2, p2, r2, d2, u2⟩ := two
  -- the state after step 3
  obtain ⟨c3, q3, p3, r3⟩ := initStep_clockKill (t := t) (by rw [c2]; exact hm)
  have run : s.runInitHw = runSequencer 7 (initStep .clockKill t) := by
    rw [runInitHw_established h]
    have h1 : sequencerStep (establishedState s) = t := ht
    have h2 : sequencerStep t = initStep .clockKill t := by rw [sequencerStep, q2]
    rw [runSequencer, h1, runSequencer, h2]
  -- steps 4 to 10
  have conf := runSequencer_configure (t := initStep .clockKill t) (by rw [c3, c2]; exact hm) q3
  rw [run, conf.1, conf.2, p3, r3, c3, c2, p2, r2, d2, u2]
  exact ⟨rfl, rfl⟩

end Sys2Proof.Machine
end

