-- ==== Sys2Proof/Laws/PerInstr.lean ====
section
/-! SUPPORT. Statements about every command as syntax: it is well formed, and its word matches exactly one row of the table of
30_encoding.md R95. -/

namespace Sys2Proof.Laws

/-- Every command is well formed: its operands have the widths of the encoding (30_encoding.md R92, R93, R97). -/
theorem instr_wf (i : Instr) : i.WellFormed := by
  cases i with
  | setPixel idx r g b =>
    have := idx.isLt
    have := r.isLt
    have := g.isLt
    have := b.isLt
    simpa [Instr.WellFormed, Instr.toAsm, AsmLine.wf, and_assoc] using by omega
  | _ => rfl

/-- The command is well formed and its word matches exactly one row (R95). -/
def OneRow.Statement (i : Instr) : Prop :=
  i.WellFormed ∧ (opcodeRows.filter fun r => r.hits (encode i)).length = 1

theorem OneRow.initHw : OneRow.Statement .initHw := by
  unfold OneRow.Statement; exact ⟨instr_wf _, by decide⟩

theorem OneRow.clear : OneRow.Statement .clear := by
  unfold OneRow.Statement; exact ⟨instr_wf _, by decide⟩

theorem OneRow.setPixel (idx : BitVec 16) (r g b : Byte) : OneRow.Statement (.setPixel idx r g b) := by
  obtain ⟨h1, h2, h3⟩ := setPixel_other_rows (cmdWord_fields 0x03#8 idx r g b).1
  have h4 : setPixelRow.hits (cmdWord 0x03#8 idx r g b) = true := by
    simp [TableRow.hits, setPixelRow, setPixel_masked]
  exact ⟨instr_wf _, by simp [opcodeRows, encode, h1, h2, h3, h4]⟩

theorem OneRow.showFrame : OneRow.Statement .showFrame := by
  unfold OneRow.Statement; exact ⟨instr_wf _, by decide⟩

end Sys2Proof.Laws
end

