-- ==== Sys2Proof/Laws/Serializer.lean ====
section
/-! SUPPORT. What the serializer does in one bit period, and when it runs (44_show.md R238, 60_exceptions.md R278). -/

namespace Sys2Proof.Machine

/-- The serializer is drained exactly when no bit remains. -/
theorem Serializer.drained_iff (o : PackOrder) (z : Serializer) : z.drained = true ↔ z.remaining o = [] := by
  have hl := shiftOrder_length o
  simp only [Serializer.drained, Serializer.remaining, Bool.and_eq_true, List.isEmpty_iff, List.append_eq_nil_iff,
    List.flatMap_eq_nil_iff]
  constructor
  · rintro ⟨hf, hs⟩
    exact ⟨hs, by simp [hf]⟩
  · rintro ⟨hs, hf⟩
    refine ⟨List.eq_nil_iff_forall_not_mem.mpr fun w hw => ?_, hs⟩
    have := hl w
    rw [hf w hw] at this
    cases this

/-- Shifting a bit out puts the next remaining bit on the wire, and does nothing when none remains (R278(d)). -/
theorem Serializer.shiftOut_remaining (o : PackOrder) (z : Serializer) :
    (∀ b rest, z.remaining o = b :: rest →
      (z.shiftOut o).wire = z.wire ++ [.bit b] ∧ (z.shiftOut o).remaining o = rest ∧
        (z.shiftOut o).framePending = z.framePending) ∧
    (z.remaining o = [] → z.shiftOut o = z) := by
  rcases z with ⟨fifo, shift, pending, wire⟩
  cases shift with
  | cons b rest => simp [Serializer.remaining, Serializer.shiftOut]
  | nil =>
    cases fifo with
    | nil => simp [Serializer.remaining, Serializer.shiftOut]
    | cons w ws =>
      have hl := shiftOrder_length o w
      cases hs : shiftOrder o w with
      | nil => rw [hs] at hl; cases hl
      | cons b rest => simp [Serializer.remaining, Serializer.shiftOut, hs]

/-- What the stop does, as one record update. -/
theorem Serializer.stopIfDrained_eq (o : PackOrder) (z : Serializer) :
    z.stopIfDrained = { z with
      framePending := z.framePending && !(z.remaining o).isEmpty
      wire := z.wire ++ if z.remaining o = [] then [.low] else [] } := by
  rw [Serializer.stopIfDrained]
  by_cases h : z.remaining o = []
  · rw [if_pos ((z.drained_iff o).mpr h)]; simp [h]
  · rw [if_neg fun hd => h ((z.drained_iff o).mp hd)]
    cases hr : z.remaining o with
    | nil => exact absurd hr h
    | cons b rest => simp

/-- One bit period of emission, said once: the next remaining bit goes on the wire, and the stop with the last one. -/
theorem Serializer.emitBit_remaining (o : PackOrder) (z : Serializer) :
    (∀ b rest, z.remaining o = b :: rest →
      (z.emitBit o).wire = z.wire ++ .bit b :: (if rest = [] then [.low] else []) ∧ (z.emitBit o).remaining o = rest ∧
        (z.emitBit o).framePending = (z.framePending && !rest.isEmpty)) ∧
    (z.remaining o = [] → z.emitBit o = { z with framePending := false, wire := z.wire ++ [.low] }) := by
  obtain ⟨hb, hn⟩ := z.shiftOut_remaining o
  constructor
  · intro b rest h
    obtain ⟨hw, hr, hp⟩ := hb b rest h
    rw [Serializer.emitBit, Serializer.stopIfDrained_eq o, hr, hw, hp]
    exact ⟨by simp, hr, rfl⟩
  · intro h
    rw [Serializer.emitBit, hn h, Serializer.stopIfDrained_eq o, h]
    simp

/-- The wire only grows in a bit period. -/
theorem Serializer.emitBit_wire (o : PackOrder) (z : Serializer) : z.wire <+: (z.emitBit o).wire := by
  obtain ⟨hb, hn⟩ := z.emitBit_remaining o
  cases h : z.remaining o with
  | nil => rw [hn h]; exact List.prefix_append _ _
  | cons b rest => rw [(hb b rest h).1]; exact List.prefix_append _ _

/-- Shifting a bit out takes at most the first FIFO word and leaves frame_pending alone. -/
theorem Serializer.shiftOut_keeps (o : PackOrder) (z : Serializer) :
    (z.shiftOut o).fifo <:+ z.fifo ∧ (z.shiftOut o).framePending = z.framePending := by
  rcases z with ⟨fifo, shift, pending, wire⟩
  cases shift with
  | cons b rest => exact ⟨List.suffix_refl _, rfl⟩
  | nil =>
    cases fifo with
    | nil => exact ⟨List.suffix_refl _, rfl⟩
    | cons w ws => simp only [Serializer.shiftOut]; split <;> exact ⟨List.suffix_cons _ _, rfl⟩

/-- In a bit period FIFO words only leave, from the front, and frame_pending is only cleared (10_state.md R50). -/
theorem Serializer.emitBit_keeps (o : PackOrder) (z : Serializer) :
    (z.emitBit o).fifo <:+ z.fifo ∧ ((z.emitBit o).framePending = true → z.framePending = true) := by
  rw [Serializer.emitBit, Serializer.stopIfDrained_eq o, (z.shiftOut_keeps o).2]
  exact ⟨(z.shiftOut_keeps o).1, fun h => ((Bool.and_eq_true _ _).mp h).1⟩

/-- The FIFO only shrinks in a bit period. -/
theorem Serializer.emitBit_fifo (o : PackOrder) (z : Serializer) : (z.emitBit o).fifo.length ≤ z.fifo.length :=
  (z.emitBit_keeps o).1.length_le

/-- A free move too only takes words from the front, extends the wire and clears frame_pending (44_show.md R240). -/
theorem Serializer.runFree_keeps (n : Nat) (z : Serializer) :
    (z.runFree n).fifo <:+ z.fifo ∧ z.wire <+: (z.runFree n).wire ∧ ((z.runFree n).framePending = true → z.framePending = true) :=
  ⟨List.drop_suffix _ _, List.prefix_append _ _, fun h => ((Bool.and_eq_true _ _).mp h).1⟩

/-- What the serializer's move can do to its own state, in every mode; where nothing is emitted on a defined wire, nothing. -/
theorem State.serializerTick_drains (s : State) :
    s.serializerTick.ser.fifo <:+ s.ser.fifo ∧ s.ser.wire <+: s.serializerTick.ser.wire ∧
      (s.serializerTick.ser.framePending = true → s.ser.framePending = true) ∧
      (s.wireDefined = true → (s.ser.framePending && s.channelRuns) = false → s.serializerTick = s) := by
  have hf : s.wireFree.ser = s.ser.runFree s.draws := rfl
  have he : s.wireEmit.ser = s.ser.emitBit s.cfg.packOrder := rfl
  obtain ⟨f1, f2, f3⟩ := s.ser.runFree_keeps s.draws
  obtain ⟨e1, e2⟩ := s.ser.emitBit_keeps s.cfg.packOrder
  rw [State.serializerTick]
  split
  · split
    · rename_i h
      split
      · rw [he]; exact ⟨e1, Serializer.emitBit_wire _ _, e2, fun _ h' => absurd h' (by simp [h])⟩
      · rw [hf]; exact ⟨f1, f2, f3, fun _ h' => absurd h' (by simp [h])⟩
    · exact ⟨List.suffix_refl _, List.prefix_refl _, id, fun _ _ => rfl⟩
  · rename_i h
    rw [hf]; exact ⟨f1, f2, f3, fun h' => absurd h' h⟩

/-- Where a frame is no longer pending after a bit period in which it was, the last event is the stop (R238, R278(e)). -/
theorem Serializer.emitBit_low (o : PackOrder) (z : Serializer) (hp : z.framePending = true)
    (h : (z.emitBit o).framePending = false) : (z.emitBit o).wire.getLast? = some .low := by
  obtain ⟨hb, hn⟩ := z.emitBit_remaining o
  cases hr : z.remaining o with
  | nil => rw [hn hr]; simp
  | cons b rest =>
    obtain ⟨hw, -, hq⟩ := hb b rest hr
    rw [h, hp] at hq
    cases rest with
    | nil => rw [hw]; simp
    | cons _ _ => simp at hq

theorem Serializer.runFree_fifo (n : Nat) (z : Serializer) : (z.runFree n).fifo.length ≤ z.fifo.length := by
  simp [Serializer.runFree]

/-- When the serializer emits a bit (R278(c), (d)). -/
theorem State.serializerTick_emits {s : State} (hw : s.wireDefined = true) (hp : s.ser.framePending = true)
    (hc : s.channelRuns = true) (hm : s.serializerMode = true) : s.serializerTick = s.wireEmit := by
  simp [State.serializerTick, hw, hp, hc, hm]

/-- When it does nothing (R278(c)). -/
theorem State.serializerTick_still {s : State} (hw : s.wireDefined = true)
    (h : (s.ser.framePending && s.channelRuns) = false) : s.serializerTick = s := by
  simp [State.serializerTick, hw, h]

/-- Routing on a sound map, as the function-select field of the pin (R278(f)). -/
theorem State.pinRouted_eq {s : State} (hm : soundMap s.cfg = true) (hp : s.cfg.pin / 10 ≤ 5) :
    s.pinRouted = (s.per.gpfsel[s.cfg.pin / 10].extractLsb' (fselShift s.cfg s.cfg.pin) 3 == altFsel s.cfg.alt) := by
  have hd : decodeAddr s.cfg (fselAddr s.cfg s.cfg.pin) = some (.gpfsel ⟨s.cfg.pin / 10, by omega⟩) := by
    rw [fselAddr_eq s.cfg hp]; exact decodeAddr_regAddr hm _
  simp only [State.pinRouted, hd]; rfl

theorem busyMask_getLsbD (c : Config) (n : Nat) : (busyMask c).getLsbD n = decide (n = c.layout.busy.val) := by
  have hb := c.layout.busy.isLt
  simp only [busyMask]
  generalize c.layout.busy.val = b at *
  rw [BitVec.getLsbD_shiftLeft]
  by_cases h : n < 32
  · by_cases h2 : n < b
    · have : n ≠ b := by omega
      simp [h2, this]
    · simp [h, h2]
      omega
  · have : n ≠ b := by omega
    simp [h, this]

/-- CM_RUN sets ENAB and leaves KILL at 0, on a sound map (41_init_hw.md R156). -/
theorem cmRunWord_bits {c : Config} (h : soundMap c = true) :
    (cmRunWord c).getLsbD c.layout.enab.val = true ∧ (cmRunWord c).getLsbD c.layout.kill.val = false := by
  obtain ⟨⟨hne, -, -⟩, hsrc⟩ := soundMap_clock h
  have hk := hsrc _ (.inl rfl)
  have e1 := c.layout.enab.isLt
  have e2 := c.layout.kill.isLt
  rw [cmRunWord, cmWord_getLsbD _ _ e1, cmWord_getLsbD _ _ e2]
  simp only [BitVec.getLsbD_or, BitVec.getLsbD_shiftLeft, BitVec.truncate_eq_setWidth, BitVec.getLsbD_setWidth]
  generalize c.layout.enab.val = e at *
  generalize c.layout.kill.val = k at *
  generalize c.layout.src.val = p at *
  constructor
  · simp [e1]
  · have hc : ¬ k < p → c.clkSrc.getLsbD (k - p) = false := fun hp => BitVec.getLsbD_of_ge _ _ (by omega)
    simp [e2]
    exact ⟨by omega, fun hp _ => hc (by omega)⟩

/-- The clock runs after CM_RUN and not after CM_KILL (R153, R156). -/
theorem clockRuns_cmRunWord {c : Config} (h : soundMap c = true) : clockRuns c (cmRunWord c) = true := by
  simp [clockRuns, cmRunWord_bits h]

/-- A CM_PWMCTL write leaves every bit but BUSY as written, and BUSY tells whether the clock runs (R47). -/
theorem cmCtlWritten_getLsbD (c : Config) (v : Word) (n : Nat) :
    (cmCtlWritten c v).getLsbD n = if n = c.layout.busy.val then clockRuns c v else v.getLsbD n := by
  have hb := c.layout.busy.isLt
  rw [cmCtlWritten]
  cases clockRuns c v
  · rw [if_neg (by decide), BitVec.getLsbD_and, BitVec.getLsbD_not, busyMask_getLsbD]
    by_cases h : n = c.layout.busy.val
    · simp [h]
    · by_cases h2 : n < 32
      · simp [h, h2]
      · simp [h, BitVec.getLsbD_of_ge v n (by omega)]
  · rw [if_pos rfl, BitVec.getLsbD_or, busyMask_getLsbD]
    by_cases h : n = c.layout.busy.val <;> simp [h]

/-- BUSY is no input of the clock (R47, R77). -/
theorem clockRuns_cmCtlWritten {c : Config} (h : soundMap c = true) (v : Word) :
    clockRuns c (cmCtlWritten c v) = clockRuns c v := by
  obtain ⟨⟨-, hk, he⟩, -⟩ := soundMap_clock h
  simp only [clockRuns, cmCtlWritten_getLsbD, if_neg hk, if_neg he]

/-- A field inserted twice is inserted once (40_register_access.md R133). -/
theorem insertField_twice (v : Word) {sh : Nat} (f : BitVec 3) (h : sh ≤ 29) :
    insertField (insertField v sh f) sh f = insertField v sh f := by
  apply BitVec.eq_of_getLsbD_eq
  intro i _
  rw [insertField_getLsbD _ _ _ h]
  split
  · rw [insertField_getLsbD _ _ _ h, if_pos ‹_›]
  · rfl

end Sys2Proof.Machine
end

