-- ==== Sys2Proof/Tests/Slice0.lean ====
section
/-! SUPPORT. Tests. Expected values are those of spec/95_test_vectors.md (L1, L2, P1 to P6) or of the rule a comment names.
Then, for every statement with hypotheses, a state and operands that meet them all. -/

namespace Sys2Proof.Machine.Tests

/-! One test after another, so that few threads run. -/
set_option Elab.async false

/-! Small states. -/

/-- The reference profile with n LEDs; T_SETTLE 1000 ns, T_CLK_STOP 2000 ns, FIFO_DEPTH 16. -/
def cfg (n : Nat) : Config := Config.referenceProfile n 1000 2000 16

/-- Every register 0, but GPFSEL1 as given. -/
def per (g : Word) : Peripherals where
  gpfsel := #v[0, g, 0, 0, 0, 0]
  ctl := 0
  sta := 0
  dmac := 0
  rng1 := 0
  cmCtl := 0
  cmDiv := 0

/-- A new instance with n LEDs on the reference platform, MAP_OK = 1. -/
def start (n : Nat) (g : Word) : State := State.construct (cfg n) (per g) [] [] true true

/-- The same with MAP_OK = 0. -/
def unmappable : State := State.construct (cfg 1) (per 0) [] [] true false

/-- After a failed INIT_HW (L2.9). -/
def fatalState : State := { unmappable with seq := .fatal }

/-- The peripherals INIT_HW leaves, with CTL as given (L2.7). -/
def configured (ctl : Word) : Peripherals where
  gpfsel := #v[0, 0x02000000, 0, 0, 0, 0]
  ctl := ctl
  sta := 0
  dmac := 0
  rng1 := 0x20
  cmCtl := 0x5A000091
  cmDiv := 0x5A008000

/-- An instance with n LEDs, all black, after INIT_HW, nothing on the wire yet. -/
def ready (n : Nat) : State :=
  { start n 0 with mapped := true, initDone := true, respOk := true, per := configured 0x22 }

/-- `ready 1` with these words in the FIFO, this word half shifted, and a frame pending. -/
def pending (fifo : List Word) (shift : BitStream) : State :=
  { ready 1 with
    per := configured 0x23
    ser := { fifo := fifo, shift := shift, framePending := true, wire := [] } }

/-- `s` with this word on the command port. -/
def offering (s : State) (w : CmdWord) : State := { s with host := [.offer w] }

/-- The state a step answers. -/
def answer (o : Host.Outcome State Fault Refusal) : Option State :=
  match o with
  | .next t => some t
  | .fault _ => none
  | .refused _ => none

/-- The state after one accepted word. -/
def after (s : State) (w : CmdWord) : Option State := answer (step (offering s w))

/-! Decoding (L2.1, R90): the words written out from the encoding, OP, INDEX, RSV, R, G, B. -/

theorem test_decode_initHw :
    decode (0b00000001#8 ++ 0b0000000000000000#16 ++ 0b0000000000000000#16 ++ 0b00000000#8 ++ 0b00000000#8 ++ 0b00000000#8) =
      .ok .initHw := by decide +kernel
theorem test_decode_clear :
    decode (0b00000010#8 ++ 0b0000000000000000#16 ++ 0b0000000000000000#16 ++ 0b00000000#8 ++ 0b00000000#8 ++ 0b00000000#8) =
      .ok .clear := by decide +kernel
theorem test_decode_setPixel :
    decode (0b00000011#8 ++ 0b0000000000000110#16 ++ 0b0000000000000000#16 ++ 0b10000000#8 ++ 0b01000000#8 ++ 0b00100001#8) =
      .ok (.setPixel 6 0x80 0x40 0x21) := by decide +kernel
theorem test_decode_showFrame :
    decode (0b00000100#8 ++ 0b0000000000000000#16 ++ 0b0000000000000000#16 ++ 0b00000000#8 ++ 0b00000000#8 ++ 0b00000000#8) =
      .ok .showFrame := by decide +kernel
theorem test_decode_red : decode 0x0300000000FF0000#64 = .ok (.setPixel 0 255 0 0) := by decide +kernel
theorem test_decode_illegal :
    [0x0000000000000000#64, 0x0500000000000000#64, 0xFF00000000000000#64, 0x0100000000000001#64, 0x0400010000000000#64,
      0x0200000000FF0000#64, 0x0300000001000000#64, 0x0300008000000000#64].map decode =
    [.error (.reservedOperation 0x00), .error (.reservedOperation 0x05), .error (.reservedOperation 0xFF),
      .error (.reservedBits 0x01), .error (.reservedBits 0x04), .error (.reservedBits 0x02), .error (.reservedBits 0x03),
      .error (.reservedBits 0x03)] := by decide +kernel
theorem test_decodeTableWord : decodeTableWord 64 0x03FFFF0000123456 = some (.setPixel 65535 0x12 0x34 0x56) := by
  decide +kernel

/-! Ill-formed terms, one for each check of WellFormed (R97). -/

theorem test_wf_refuses_index : (AsmLine.setPixel 65536 0 0 0).wf = false := by decide
theorem test_wf_refuses_red : (AsmLine.setPixel 0 256 0 0).wf = false := by decide
theorem test_wf_refuses_green : (AsmLine.setPixel 0 0 256 0).wf = false := by decide
theorem test_wf_refuses_blue : (AsmLine.setPixel 0 0 0 256).wf = false := by decide
theorem test_wf_accepts_limits : (AsmLine.setPixel 65535 255 255 255).wf = true := by decide

/-! The assembler (R97, R98, P1). -/

theorem test_assemble_line :
    assembleText 1 ['S', 'E', 'T', '_', 'P', 'I', 'X', 'E', 'L', ' ', '0', ',', ' ', '0', 'x', 'F', 'F', ',', '0', ',', ' ', '0',
      ' ', ';', ' ', 'r', 'e', 'd'] = .ok [0x0300000000FF0000#64] := by decide +kernel
theorem test_assemble_program :
    assemble 1 [['.', 'c', 'h', 'a', 'i', 'n', ' ', '1'], ['I', 'N', 'I', 'T', '_', 'H', 'W'], [';', ' ', 'x'],
      ['S', 'H', 'O', 'W']] = .ok [0x0100000000000000#64, 0x0400000000000000#64] := by decide +kernel
theorem test_assemble_refuses :
    assembleText 1 ['.', 'c', 'h', 'a', 'i', 'n', ' ', '2'] = .error .chainMismatch ∧
    assembleText 1 ['S', 'E', 'T', '_', 'P', 'I', 'X', 'E', 'L', ' ', '0', ',', '2', '5', '6', ',', '0', ',', '0'] =
      .error .operandRange ∧
    assembleText 1 ['s', 'h', 'o', 'w'] = .error .badLine := by decide +kernel

/-! Elaboration (L2.10; the last two are R295(6) and R75). -/

theorem test_elab_accepts : elabError (cfg 7) = none ∧ elabError (cfg 0) = none ∧
    elabError { cfg 8 with waveWords := 18, fifoDepth := 18 } = none := by decide +kernel
theorem test_elab_capacity : elabError (cfg 8) = some .capacity := by decide +kernel
theorem test_elab_fifoDepth : elabError { cfg 1 with fifoDepth := 8 } = some .fifoDepth := by decide +kernel
theorem test_elab_divisor : elabError { cfg 1 with fBit := 20000000 } = some .divisor ∧
    elabError { cfg 1 with fBit := 4000 } = some .divisor := by decide +kernel
theorem test_elab_pin : elabError { cfg 1 with pin := 60 } = some .pin := by decide +kernel
theorem test_elab_window : elabError { cfg 1 with periBase := 0x3F000800 } = some .window := by decide +kernel
theorem test_elab_delay : elabError { cfg 1 with tClkStop := 999 } = some .delay := by decide +kernel
theorem test_elab_fixed : elabError { cfg 1 with bitsPerLed := 24 } = some .fixedParameter ∧
    elabError { cfg 1 with indexWidth := 8 } = some .fixedParameter := by decide +kernel
theorem test_elab_offset :
    elabError { cfg 1 with layout := { Layout.reference with rng1Off := 0x11 } } = some .offset := by decide +kernel

/-! Bit helpers, layout, GPIO and clock words (L2.2 to L2.4). -/

theorem test_bit_helpers : bitSet 0x00000000 31 = 0x80000000#32 ∧ bitSet 0x00000024 2 = 0x00000024#32 ∧
    bitClear 0xFFFFFFFF 0 = 0xFFFFFFFE#32 ∧ bitClear 0 5 = 0#32 ∧ bitGet 0x00000024 3 = false ∧
    bitGet 0x80000000 31 = true := by decide +kernel
theorem test_waveSetBit : ((start 1 0).waveSetBit 31).waveWord 0 = 0x80000000#32 ∧
    ((start 1 0).waveSetBit 32).waveWord 1 = 0x00000001#32 ∧ ((start 1 0).waveSetBit 72).waveWord 2 = 0x00000100#32 ∧
    ((start 1 0).waveSetBit 511).waveWord 15 = 0x80000000#32 := by decide +kernel
theorem test_waveSetBit_msbFirst :
    ({ start 1 0 with cfg := { cfg 1 with packOrder := .msbFirst } }.waveSetBit 72).waveWord 2 = 0x00800000#32 := by
  decide +kernel
theorem test_waveSetBit_overrun : ((start 1 0).waveSetBit 512).faults.waveOverrun = true ∧
    ((start 1 0).waveSetBit 512).wave = (start 1 0).wave := by decide +kernel
theorem test_fsel : [0, 9, 10, 18, 53].map (fun p => (fselAddr (cfg 1) p, fselShift (cfg 1) p)) =
    [(0x3F200000#32, 0), (0x3F200000#32, 27), (0x3F200004#32, 0), (0x3F200004#32, 24), (0x3F200014#32, 9)] := by
  decide +kernel
theorem test_insertField : insertField 0xFFFFFFFF 24 (altFsel 5) = 0xFAFFFFFF#32 ∧
    insertField 0x01249249 24 (altFsel 5) = 0x02249249#32 ∧ insertField 0x07000000 24 (altFsel 0) = 0x04000000#32 := by
  decide +kernel
theorem test_altFsel : (List.range 8).map altFsel = [4#3, 5#3, 6#3, 7#3, 3#3, 2#3, 2#3, 2#3] := by decide +kernel
theorem test_divisor : cmDivWord { cfg 1 with fBit := 3000000 } = 0x5A006199#32 ∧
    cmDivWord { cfg 1 with fBit := 800000 } = 0x5A018000#32 := by decide +kernel

/-- R40: a position that a layout moves moves the word. -/
theorem test_layout :
    cmRunWord { cfg 1 with layout := { Layout.reference with src := 12, mash := 0, flip := 2 } } = 0x5A001010#32 ∧
    fselShift { cfg 1 with layout := { Layout.reference with fselPos := #v[29, 3, 6, 9, 12, 15, 18, 21, 24, 0] } } 20 = 29 := by
  decide +kernel
/-- R44: EMPT1 is bit 1 and FULL1 bit 0 of STA, with 0, 1 and 16 words in a FIFO of 16. -/
theorem test_staWord : (ready 1).staWord = 0x00000002#32 ∧ (pending [1] []).staWord = 0#32 ∧
    (pending (List.replicate 16 1) []).staWord = 0x00000001#32 := by decide +kernel
/-- R47: BUSY follows the clock. -/
theorem test_busy : cmCtlWritten (cfg 1) (cmRunWord (cfg 1)) = 0x5A000091#32 ∧
    cmCtlWritten (cfg 1) (cmKillWord (cfg 1)) = 0x5A000020#32 ∧ cmCtlWritten (cfg 1) 0x5A0000B1#32 = 0x5A000031#32 := by
  decide +kernel

/-! The encoder (L2.5). -/

theorem test_code72 : (code72 { r := 1, g := 0x80, b := 0 }).count true = 26 ∧
    (code72 { r := 0x12, g := 0x34, b := 0x56 }).count true = 33 ∧
    (code72 { r := 0x12, g := 0x34, b := 0x56 }).take 15 =
      [true, false, false, true, false, false, true, true, false, true, true, false, true, false, false] := by
  decide +kernel

/-! The commands, one step each. -/

/-- L2.7, with P3's GPFSEL1. -/
theorem test_initHw_trace : (after (start 7 0x00040000) 0x0100000000000000#64).map (·.trace) =
    some [.rd 0x3F200004 0x00040000, .wr 0x3F200004 0x02040000, .dly 1000, .wr 0x3F1010A0 0x5A000020, .dly 2000,
      .wr 0x3F20C008 0x00000000, .dly 1000, .wr 0x3F1010A4 0x5A008000, .dly 1000, .wr 0x3F1010A0 0x5A000011, .dly 1000,
      .wr 0x3F20C000 0x00000000, .dly 1000, .wr 0x3F20C010 0x00000020, .dly 1000, .wr 0x3F20C004 0x000001FC, .dly 1000,
      .wr 0x3F20C000 0x00000022, .dly 1000] := by decide +kernel
/-- L2.7, MAP_OK = 0. -/
theorem test_initHw_fatal : (after unmappable 0x0100000000000000#64).map
    (fun t => (t.trace, t.seq, t.respStatus, t.respOk, t.mapped, t.initDone)) =
    some ([], .fatal, 0x03#8, false, false, false) := by decide +kernel
/-- L2.6. -/
theorem test_clear : (after { start 2 0 with led := [{ r := 1, g := 2, b := 3 }, { r := 4, g := 5, b := 6 }] }
    0x0200000000000000#64).map (fun t => (t.led, t.respStatus, t.respOk)) =
    some ([{ r := 0, g := 0, b := 0 }, { r := 0, g := 0, b := 0 }], 0x00#8, true) := by decide +kernel
/-- L2.6, the last slot. -/
theorem test_setPixel_last : (after (start 7 0) 0x0300060000010203#64).map (fun t => (t.led[6]?, t.respOk, t.diag)) =
    some (some { r := 1, g := 2, b := 3 }, true, []) := by decide +kernel
/-- L2.6, one past the last slot. -/
theorem test_setPixel_past : (after (start 7 0) 0x0300070000010203#64).map (fun t => (t.led, t.respStatus, t.respOk, t.diag)) =
    some ((start 7 0).led, 0x01#8, false, [{ kind := .indexOutOfRange, value := 7 }]) := by decide +kernel
/-- L1.6, P1: one red LED. -/
theorem test_showFrame_red : (after { ready 1 with led := [{ r := 255, g := 0, b := 0 }] } 0x0400000000000000#64).map
    (fun t => (t.wave.take 3, t.ser.fifo.take 3, t.trace.length, t.ser.framePending)) =
    some ([0xDB249249#32, 0x92496DB6#32, 0x00000024#32], [0x924924DB#32, 0x6DB69249#32, 0x24000000#32], 39, true) := by
  decide +kernel
/-- L2.5, N = 2: the second codeword crosses word boundaries; MSB_FIRST for N = 1. -/
theorem test_showFrame_layouts :
    ((after { ready 2 with led := [{ r := 0, g := 0, b := 0 }, { r := 0x12, g := 0x34, b := 0x56 }] }
      0x0400000000000000#64).map (·.wave.take 5) =
      some [0x49249249#32, 0x92492492#32, 0x2596C924#32, 0x592C9649#32, 0x00002D96#32]) ∧
    ((after { ready 1 with cfg := { cfg 1 with packOrder := .msbFirst }, led := [{ r := 255, g := 0, b := 0 }] }
      0x0400000000000000#64).map (fun t => (t.wave.take 3, t.ser.fifo.take 2)) =
      some ([0x924924DB#32, 0x6DB69249#32, 0x24000000#32], [0xDB249249#32, 0x92496DB6#32])) := by decide +kernel
/-- P4, words 1 and 2: illegal words. -/
theorem test_illegal_word : (after (start 1 0) 0x0500000000000000#64).map (fun t => (t.diag, t.respStatus, t.respOk, t.trace)) =
    some ([{ kind := .illegalCommand, value := 0x05 }], 0x02#8, false, []) ∧
    (after (start 1 0) 0x0100000000000001#64).map (fun t => (t.diag, t.mapped)) =
      some ([{ kind := .illegalCommand, value := 0x01 }], false) := by decide +kernel
/-- P5: SHOW with a frame pending records FRAME_OVERLAP and runs. -/
theorem test_frame_overlap : (after (pending [1] []) 0x0400000000000000#64).map (fun t => (t.faults.frameOverlap, t.respOk)) =
    some (true, true) := by decide +kernel
/-- L2.9: FATAL accepts nothing. -/
theorem test_fatal_stands : (after fatalState 0x0400000000000000#64).map (fun t => (t.seq, t.respOk, t.host)) =
    some (.fatal, false, [.offer 0x0400000000000000#64]) := by decide +kernel
/-- R107, R278(d): the most significant bit of a FIFO word leaves first, and the next word follows with no gap; R301: the frame is
over with its last bit. -/
theorem test_bit_period : (answer (step (pending [0x80000000, 1] []))).map (fun t => (t.ser.wire, t.ser.fifo, t.ser.shift.length)) =
    some ([.bit true], [1#32], 31) ∧
    (answer (step (pending [1] [true]))).map (fun t => (t.ser.wire, t.ser.fifo)) = some ([.bit true], [1#32]) ∧
    (answer (step (pending [] [true]))).map (fun t => (t.ser.wire, t.ser.framePending)) = some ([.bit true, .low], false) ∧
    (answer (step (pending [] []))).map (fun t => (t.ser.wire, t.ser.framePending)) = some ([.low], false) := by
  decide +kernel
/-- The word of each row runs as the first instruction after reset (log entry 24). -/
theorem test_first_word : step (State.reset.withFetchWord 64 0x0400000000000000) = exec .showFrame State.reset := rfl

/-! A state that meets the hypotheses of each statement. -/

theorem witness_encodeDecode : decode 0x03FFFF0000FFFFFF#64 = .ok (.setPixel 65535 255 255 255) := by decide +kernel

theorem witness_legalWords : setPixelRow ∈ opcodeRows ∧ setPixelRow.hits 0x03FFFF0000FFFFFF#64 = true := by decide +kernel

theorem witness_illegalCommand : (start 1 0).seq = .idle ∧
    (offering (start 1 0) 0x0000000000000000#64).host = .offer 0x0000000000000000#64 :: [] ∧
    (decode 0x0000000000000000#64, decode 0x0500000000000000#64, decode 0x0400000000000001#64, decode 0x0300000001000000#64) =
      (.error (.reservedOperation 0), .error (.reservedOperation 5), .error (.reservedBits 4), .error (.reservedBits 3)) := by
  decide +kernel

theorem witness_assembler : 65535 < 65536 ∧ 255 < 256 := by decide

/-- A line of each kind of numeral, and a program of it (P1 with another spelling). -/
theorem witness_assemblerText :
    (SourceLine.setPixel (.decimal 0 []) (.hex { value := 15, upper := true } [{ value := 15, upper := false }]) (.decimal 0 [0])
      (.hex { value := 0, upper := false } [])).text =
      ['S', 'E', 'T', '_', 'P', 'I', 'X', 'E', 'L', ' ', '0', ',', ' ', '0', 'x', 'F', 'f', ',', ' ', '0', '0', ',', ' ', '0', 'x',
        '0'] ∧
    (SourceLine.setPixel (.decimal 6 [5, 5, 3, 6]) (.decimal 0 []) (.decimal 0 []) (.decimal 0 [])).spelled =
      .setPixel 65536 0 0 0 ∧
    assemble 1 [SourceLine.showFrame.text ++ lineEnd 2 (some ['x', ';'])] = .ok [0x0400000000000000#64] ∧
    assemble 1 [SourceLine.showFrame.text, ['x']] = .error .badLine := by decide +kernel

theorem witness_stepRuns : (offering (start 1 0) 0x0200000000000000#64).seq = .idle ∧
    (offering (start 1 0) 0x0200000000000000#64).host = .offer 0x0200000000000000#64 :: [] ∧
    decode 0x0200000000000000#64 = .ok .clear := by decide +kernel

/-- The state inside a command. -/
theorem witness_insideCommand : { ready 1 with seq := .initHw .divisor }.seq = .initHw .divisor ∧
    { ready 1 with seq := .showFrame .waveClear }.seq = .showFrame .waveClear := ⟨rfl, rfl⟩

theorem witness_oneBitPeriod : (ready 1).AtRest ∧ (∀ w rest, (ready 1).host = .offer w :: rest → (ready 1).seq = .fatal) ∧
    fatalState.AtRest ∧ fatalState.seq = .fatal :=
  ⟨.inl rfl, fun _ _ h => absurd h (by simp [ready, start, State.construct]), .inr rfl, rfl⟩

/-- At rest with no word accepted: a waiting host, an emitting period, a wire that is not defined, an offer in FATAL. -/
theorem witness_bitPeriodFrame :
    ({ ready 1 with host := [.wait] }.AtRest ∧ { ready 1 with host := [.wait] }.host = [.wait] ∧
      { ready 1 with host := [.wait] }.wireDefined = true ∧ { ready 1 with host := [.wait] }.ser.framePending = false) ∧
    ((pending [1] []).AtRest ∧ (pending [1] []).host = [] ∧ (pending [1] []).wireDefined = true ∧
      ((pending [1] []).ser.framePending && (pending [1] []).channelRuns) = true) ∧
    ((start 1 0).AtRest ∧ (start 1 0).host = [] ∧ (start 1 0).wireDefined = false) ∧
    (offering fatalState 0x0400000000000000#64).AtRest ∧ (offering fatalState 0x0400000000000000#64).seq = .fatal := by
  decide +kernel

theorem witness_notAccepted : { ready 1 with seq := .fatal }.cmdReady = false ∧
    { ready 1 with seq := .showFrame .push }.cmdReady = false := by decide +kernel

theorem witness_sequencer :
    ({ unmappable with seq := .initHw .establish }.mapped = false ∧ { unmappable with seq := .initHw .establish }.mapOk = false) ∧
    { start 1 0 with seq := .initHw .establish }.mapOk = true ∧ { start 1 0 with seq := .initHw .ctlConfig }.seq = .initHw .ctlConfig ∧
    { start 1 0 with seq := .showFrame .push }.seq = .showFrame .push ∧
    { start 1 0 with seq := .showFrame .enable }.seq = .showFrame .enable ∧ (start 1 0).seq = .idle := by decide +kernel

/-- Each case of the response: both cases of INIT_HW, both sides of the bound, CLEAR, SHOW, an illegal word. -/
theorem witness_response :
    (after (start 1 0) 0x0100000000000000#64).map (·.respStatus) = some 0x00#8 ∧
    (after unmappable 0x0100000000000000#64).map (·.respStatus) = some 0x03#8 ∧
    (after (start 1 0) 0x0200000000000000#64).map (·.respStatus) = some 0x00#8 ∧
    (after (start 1 0) 0x0300000000000000#64).map (·.respStatus) = some 0x00#8 ∧
    (after (start 1 0) 0x0300010000000000#64).map (·.respStatus) = some 0x01#8 ∧
    (after (start 1 0) 0x0400000000000000#64).map (·.respStatus) = some 0x00#8 ∧
    (after (start 1 0) 0x0600000000000000#64).map (·.respStatus) = some 0x02#8 := by decide +kernel

theorem witness_fatalEnv : unmappable.seq = .idle ∧ unmappable.mapped = false ∧ unmappable.mapOk = false ∧
    fatalState.seq = .fatal := by decide +kernel

theorem witness_establish : (ready 1).mapped = true ∧ (start 1 0).mapped = false ∧ (start 1 0).mapOk = true ∧
    unmappable.mapped = false ∧ unmappable.mapOk = false := by decide +kernel

theorem witness_bitHelpers : (31 : Fin 32) ≠ 0 := by decide

theorem witness_waveBit : (start 1 0).wave.length = (start 1 0).cfg.waveWords ∧ 511 < (start 1 0).cfg.waveBits ∧
    (0 : Nat) ≠ 511 ∧ (start 1 0).cfg.waveBits ≤ 512 ∧ (start 1 0).cfg.packOrder = .lsbFirst ∧
    72 < (start 1 0).cfg.waveBits ∧ (start 1 0).waveWord 2 = 0#32 := by decide +kernel

theorem witness_altFsel : 5 ≤ 5 := by decide

theorem witness_gpio : soundMap (start 1 0).cfg = true ∧ (start 1 0).reference = true ∧ 18 / 10 ≤ 5 ∧ 59 / 10 ≤ 5 ∧ 0 / 10 ≤ 5 ∧
    23 < fselShift (start 1 0).cfg 18 ∧ fselShift (start 1 0).cfg 18 + 3 ≤ 27 ∧ (start 1 0).cfg.layout = Layout.reference ∧
    (start 1 0x01249249).readValue (fselAddr (start 1 0x01249249).cfg 18) = 0x01249249#32 ∧
    (start 1 0).readValue (fselAddr (start 1 0).cfg 18) = 0#32 := by decide +kernel

theorem witness_targetRegisters : soundMap (start 1 0).cfg = true ∧
    (start 1 0).ser.fifo.length + 1 < (start 1 0).cfg.fifoDepth ∧ bitGet 0x62 (start 1 0).cfg.layout.clrf1 = true ∧
    passwordOk (start 1 0).cfg 0x00000020 = false ∧ passwordOk (start 1 0).cfg 0x5A000020 = true ∧
    (0x5A000020#32).getLsbD (start 1 0).cfg.layout.kill.val = true ∧ Reg.pwmCtl ≠ .pwmFif1 := by decide +kernel

/-- The push into the last free slot, and a push into a full FIFO. -/
theorem witness_fifoBoundaries :
    soundMap (pending (List.replicate 15 1) []).cfg = true ∧
    (pending (List.replicate 15 1) []).ser.fifo.length < (pending (List.replicate 15 1) []).cfg.fifoDepth ∧
    ¬ (pending (List.replicate 15 1) []).ser.fifo.length + 1 < (pending (List.replicate 15 1) []).cfg.fifoDepth ∧
    (pending (List.replicate 14 1) []).ser.fifo.length + 1 < (pending (List.replicate 14 1) []).cfg.fifoDepth ∧
    (pending (List.replicate 16 1) []).cfg.fifoDepth ≤ (pending (List.replicate 16 1) []).ser.fifo.length := by decide +kernel

theorem witness_fifoFlags : soundMap (start 1 0).cfg = true ∧ 0 < (start 1 0).cfg.fifoDepth ∧
    bitGet 0x62 (start 1 0).cfg.layout.clrf1 = true ∧ (2 : Fin 32) ≠ (start 1 0).cfg.layout.full1 ∧
    (2 : Fin 32) ≠ (start 1 0).cfg.layout.empt1 := by decide +kernel

theorem witness_reads : soundMap (ready 1).cfg = true ∧ (ready 1).reference = true ∧
    (ready 1).regWord .cmPwmctl = some 0x5A000091#32 ∧ (ready 1).regWord (.gpfsel 1) = some 0x02000000#32 ∧
    (ready 1).regWord .pwmFif1 = none ∧ (Reg.gpfsel 5 = .pwmDmac ∨ Reg.gpfsel 5 = .pwmRng1 ∨ ∃ n, Reg.gpfsel 5 = .gpfsel n) :=
  ⟨by decide +kernel, rfl, rfl, rfl, rfl, .inr (.inr ⟨5, rfl⟩)⟩

theorem witness_divisor : soundMap (cfg 1) = true ∧ (1 ≤ divI (cfg 1) ∧ divI (cfg 1) ≤ 4095 ∧ divF (cfg 1) ≤ 4095) ∧
    divI { cfg 1 with fBit := 19200000 } = 1 ∧ divI { cfg 1 with fBit := 4688 } = 4095 := by decide +kernel

theorem witness_password : soundMap (cfg 1) = true ∧ fselAddr (cfg 1) (cfg 1).pin ≠ regAddr (cfg 1) .cmPwmctl ∧
    fselAddr (cfg 1) (cfg 1).pin ≠ regAddr (cfg 1) .cmPwmdiv ∧
    BusEvent.wr (regAddr (cfg 1) .cmPwmctl) (cmKillWord (cfg 1)) ∈ initHwTrace (cfg 1) 0 ∧
    BusEvent.wr (regAddr (cfg 1) .cmPwmdiv) (cmDivWord (cfg 1)) ∈ initHwTrace (cfg 1) 0 := by decide +kernel

theorem witness_initHw : (start 1 0).seq = .idle ∧ ((start 1 0).mapped = true ∨ (start 1 0).mapOk = true) ∧
    (ready 1).seq = .idle ∧ ((ready 1).mapped = true ∨ (ready 1).mapOk = true) := by decide +kernel

theorem witness_initHw_target : (ready 1).seq = .idle ∧ ((ready 1).mapped = true ∨ (ready 1).mapOk = true) ∧
    elaborates (ready 1).cfg = true ∧ soundMap (ready 1).cfg = true ∧ (ready 1).reference = true ∧
    (ready 1).wireDefined = true ∧ (ready 1).ser.framePending = false ∧ (0 : Fin 6).val ≠ (ready 1).cfg.pin / 10 ∧
    (1 : Fin 6).val = (ready 1).cfg.pin / 10 ∧ 23 < fselShift (ready 1).cfg (ready 1).cfg.pin ∧ fselShift (ready 1).cfg (ready 1).cfg.pin + 3 ≤ 27 := by
  decide +kernel

theorem witness_secondInitHw : (start 1 0).seq = .idle ∧ ((start 1 0).mapped = true ∨ (start 1 0).mapOk = true) ∧
    elaborates (start 1 0).cfg = true ∧ soundMap (start 1 0).cfg = true ∧ (start 1 0).reference = true ∧
    (start 1 0).ser.framePending = false := by decide +kernel

theorem witness_setPixel : (start 7 0).seq = .idle ∧ (6#16).toNat < (start 7 0).cfg.numLeds ∧
    (start 7 0).cfg.numLeds ≤ (7#16).toNat ∧ (start 0 0).cfg.numLeds ≤ (0#16).toNat := by decide +kernel

theorem witness_writeBehind : (pending [1] []).seq = .idle ∧
    (Instr.clear = .clear ∨ ∃ idx r g b, Instr.clear = .setPixel idx r g b) ∧
    (Instr.setPixel 1 2 3 4 = .clear ∨ ∃ idx r g b, Instr.setPixel 1 2 3 4 = .setPixel idx r g b) :=
  ⟨rfl, .inl rfl, .inr ⟨1, 2, 3, 4, rfl⟩⟩

theorem witness_oneCodeword : (start 7 0).seq = .idle ∧ (start 7 0).Sized ∧ (start 7 0).cfg.numLeds ≤ (7#16).toNat ∧
    (6#16).toNat < (start 7 0).cfg.numLeds ∧ 71 < 72 ∧ 431 < (start 7 0).cfg.waveBits ∧ 431 / 72 ≠ (6#16).toNat ∧
    511 / 72 ≠ (6#16).toNat := by decide +kernel

theorem witness_codeword : 23 < 24 ∧ 31 < 32 := by decide

theorem witness_offsets : wordIndex 511 = wordIndex 511 ∧ bitPos .msbFirst 511 = bitPos .msbFirst 511 ∧
    bitPos .msbFirst 511 ≠ bitPos .msbFirst 510 := by decide +kernel

theorem witness_show : (start 7 0).seq = .idle ∧ (start 7 0).Sized ∧ (start 0 0).Sized ∧ soundMap (start 7 0).cfg = true ∧
    511 < (start 7 0).cfg.waveBits := by decide +kernel

theorem witness_show_target : (ready 7).seq = .idle ∧ (ready 7).Sized ∧ soundMap (ready 7).cfg = true ∧
    (ready 7).wireDefined = true ∧ (ready 7).ser.framePending = false := by decide +kernel

/-- Two states that differ in the waveform buffer and agree in the LED buffer. -/
theorem witness_render : (ready 1).seq = .idle ∧ (pending [1] []).seq = .idle ∧ (ready 1).Sized ∧
    ((ready 1).setWaveWord 0 5).Sized ∧ ((ready 1).setWaveWord 0 5).cfg = (ready 1).cfg ∧
    ((ready 1).setWaveWord 0 5).led = (ready 1).led ∧ ((ready 1).setWaveWord 0 5).wave ≠ (ready 1).wave := by decide +kernel

theorem witness_cleared : (start 0 0).seq = .idle ∧ (start 0 0).Sized ∧ (start 7 0).Sized ∧ 503 < (start 7 0).cfg.waveBits := by
  decide +kernel

theorem witness_overlap : (pending [1] []).seq = .idle ∧ (pending [1] []).Sized ∧ (pending [1] []).ser.framePending = true ∧
    (ready 1).Sized ∧ (ready 1).ser.framePending = false := by decide +kernel

theorem witness_delays : (start 1 0).seq = .idle ∧ (start 1 0).Sized ∧ ((start 1 0).mapped = true ∨ (start 1 0).mapOk = true) := by
  decide +kernel

theorem witness_serializer : (pending [1] []).seq = .idle ∧ (pending [1] []).host = [] ∧ (pending [1] []).wireDefined = true ∧
    (pending [1] []).ser.framePending = true ∧ (pending [1] []).channelRuns = true ∧ (pending [1] []).serializerMode = true ∧
    ((pending [1] []).ser.remaining .lsbFirst).length = 32 ∧ (pending [] [true]).ser.remaining .lsbFirst = [true] ∧
    (pending [] []).ser.remaining .lsbFirst = [] := by decide +kernel

/-- An instance at rest after a frame has been emitted: the channel is still enabled. -/
def drained : State :=
  { ready 1 with
    per := configured 0x23
    ser := { fifo := [], shift := [], framePending := false, wire := [.bit true, .low] } }

theorem witness_disabled : (ready 1).AtRest ∧ (ready 1).host = [] ∧ (ready 1).wireDefined = true ∧
    ((ready 1).ser.framePending && (ready 1).channelRuns) = false ∧
    bitGet (ready 1).per.ctl (ready 1).cfg.layout.pwen1 = false ∧ drained.AtRest ∧ drained.host = [] ∧
    drained.wireDefined = true ∧ drained.channelRuns = true ∧ (drained.ser.framePending && drained.channelRuns) = false ∧
    { pending [1] [] with per := configured 0x22 }.ser.framePending = true ∧
    ({ pending [1] [] with per := configured 0x22 }.ser.framePending &&
      { pending [1] [] with per := configured 0x22 }.channelRuns) = false := by decide +kernel

theorem witness_betweenFrames : drained.Inv ∧ drained.host = [] ∧ drained.cfg.rangeBits = 32#32 ∧ drained.wireDefined = true ∧
    drained.ser.framePending = false ∧ drained.channelRuns = true :=
  ⟨⟨by decide +kernel, .inl rfl, by decide +kernel, (nomatch ·), fun _ => rfl, by decide +kernel, fun _ => by decide +kernel,
    by decide +kernel⟩, rfl, rfl, by decide +kernel, rfl, by decide +kernel⟩

theorem witness_wire : (ready 7).seq = .idle ∧ (ready 7).host = [] ∧ (ready 7).Sized ∧ soundMap (ready 7).cfg = true ∧
    (ready 7).wireDefined = true ∧ (ready 7).Configured ∧ (ready 7).cfg.rangeBits = 32#32 ∧
    (ready 7).ser.framePending = false := by decide +kernel

theorem witness_history : (start 1 0).Sized ∧ fatalState.Sized ∧ (pending [1] []).mapped = true ∧
    (pending [1] []).initDone = true ∧ ((ready 1).recordFault .frameOverlap).faults.has .frameOverlap = true := by
  decide +kernel

/-- A step that changes the LED buffer, and one that changes the waveform buffer. -/
theorem witness_bufferWriters : (offering (ready 1) 0x0300000000FF0000#64).AtRest ∧
    (after (ready 1) 0x0300000000FF0000#64).map (·.led) ≠ some (ready 1).led ∧
    (after (ready 1) 0x0400000000000000#64).map (·.wave) ≠ some (ready 1).wave := by decide +kernel

theorem witness_elaborates : elaborates (cfg 7) = true ∧ (cfg 7).waveWords = 16 ∧ (cfg 7).numLeds = (cfg 7).nMax := by
  decide +kernel

theorem witness_inv : (ready 7).Inv ∧ step (ready 7) = .next (ready 7) :=
  ⟨⟨by decide +kernel, .inl rfl, by decide +kernel, (nomatch ·), fun _ => rfl, by decide +kernel, fun _ => by decide +kernel,
    by decide +kernel⟩,
    congrArg Host.Outcome.next (by decide +kernel : (ready 7).advance = ready 7)⟩

end Sys2Proof.Machine.Tests
end

section
/-! What a step is, by what stands on the command port (00_scope.md R5, 30_encoding.md R90), and the statements of
00_scope.md. -/

namespace Sys2Proof.Machine

/-! The command port: which word is accepted. -/

theorem State.cmdReady_iff (s : State) : s.cmdReady = true ↔ s.seq = .idle := by simp [State.cmdReady]

/-- With cmd_ready = 1 the word offered is accepted and leaves the port (R90, R274). -/
theorem State.fetch_offer {s : State} {w : CmdWord} {rest : List HostMove} (hq : s.seq = .idle)
    (hh : s.host = .offer w :: rest) : s.fetch = some (w, { s with host := rest }) := by
  simp [State.fetch, s.cmdReady_iff.mpr hq, hh]

/-- No word is accepted exactly when none is offered or cmd_ready = 0 (R274, 60_exceptions.md R268(1)). -/
theorem State.fetch_eq_none_iff (s : State) :
    s.fetch = none ↔ ∀ w rest, s.host = .offer w :: rest → s.seq ≠ .idle := by
  constructor
  · intro hn w rest hh hq
    rw [State.fetch_offer hq hh] at hn
    cases hn
  · intro h
    rw [State.fetch]
    split
    · rename_i hr hh
      exact absurd (s.cmdReady_iff.mp hr) (h _ _ hh)
    · rfl

theorem State.fetch_eq_none_of_not_idle {s : State} (h : s.seq ≠ .idle) : s.fetch = none :=
  s.fetch_eq_none_iff.mpr fun _ _ _ => h

/-! The step, by the word accepted. -/

/-- A word that spells a command runs it on the state without that word (R5, R268). -/
theorem step_of_fetch_decode {s s' : State} {w : CmdWord} {i : Instr} (hf : s.fetch = some (w, s'))
    (hd : decode w = .ok i) : step s = exec i s' := by
  simp [step, hf, hd]

theorem step_of_fetch_none {s : State} (h : s.fetch = none) : step s = .next s.advance := by simp [step, h]

/-! The step in which no word is accepted. -/

theorem State.advance_atRest {s : State} (h : s.AtRest) : s.advance = s.hostWaits.serializerTick := by
  rcases h with hq | hq <;> simp [State.advance, hq]

theorem State.advance_initHw {s : State} {k : InitStep} (h : s.seq = .initHw k) : s.advance = initStep k s := by
  simp [State.advance, sequencerStep, h]

theorem State.advance_showFrame {s : State} {k : ShowStep} (h : s.seq = .showFrame k) : s.advance = showStep k s := by
  simp [State.advance, sequencerStep, h]

/-- At rest with no word accepted, the step is one bit period (R5, 44_show.md R238; log entry 7). -/
theorem step_atRest {s : State} (h : s.AtRest) (hn : ∀ w rest, s.host = .offer w :: rest → s.seq = .fatal) :
    step s = .next s.hostWaits.serializerTick := by
  have hf : s.fetch = none := s.fetch_eq_none_iff.mpr fun w rest hh hq => by
    rw [hn w rest hh] at hq
    cases hq
  rw [step_of_fetch_none hf, State.advance_atRest h]

/-! What the host's wait and the serializer's move leave unchanged. -/

/-- A wait that stood first is over (R268(1); log entry 7). -/
theorem State.hostWaits_host_of_wait {s : State} {rest : List HostMove} (h : s.host = .wait :: rest) :
    s.hostWaits.host = rest := by
  simp [State.hostWaits, h]

/-- With no wait in front, the host's list stays: a word held on the port is still there (R268(1)). -/
theorem State.hostWaits_of_no_wait {s : State} (h : ∀ rest, s.host ≠ .wait :: rest) : s.hostWaits = s := by
  rw [State.hostWaits]
  split
  · rename_i rest hh
    exact absurd hh (h rest)
  · rfl

@[simp] theorem State.hostWaits_ser (s : State) : s.hostWaits.ser = s.ser := by rw [s.hostWaits_eq]
@[simp] theorem State.hostWaits_per (s : State) : s.hostWaits.per = s.per := by rw [s.hostWaits_eq]
@[simp] theorem State.hostWaits_draws (s : State) : s.hostWaits.draws = s.draws := by rw [s.hostWaits_eq]
@[simp] theorem State.hostWaits_wireDefined (s : State) : s.hostWaits.wireDefined = s.wireDefined := by
  rw [s.hostWaits_eq]; rfl
@[simp] theorem State.hostWaits_channelRuns (s : State) : s.hostWaits.channelRuns = s.channelRuns := by
  rw [s.hostWaits_eq]; rfl

@[simp] theorem State.serializerTick_host (s : State) : s.serializerTick.host = s.host := by
  rw [s.serializerTick_eq]

/-- A bit period changes the serializer, PWM STA, the draws and the host's list, and nothing else. -/
theorem State.bitPeriod_eq (s : State) :
    s.hostWaits.serializerTick = { s with
      ser := s.hostWaits.serializerTick.ser
      per := { s.per with sta := s.hostWaits.serializerTick.per.sta }
      draws := s.hostWaits.serializerTick.draws
      host := s.hostWaits.serializerTick.host } := by
  calc s.hostWaits.serializerTick
    _ = { s.hostWaits with
          ser := s.hostWaits.serializerTick.ser
          per := { s.hostWaits.per with sta := s.hostWaits.serializerTick.per.sta }
          draws := s.hostWaits.serializerTick.draws } := s.hostWaits.serializerTick_eq
    _ = _ := by rw [s.hostWaits.serializerTick_host, s.hostWaits_eq]

/-! The statements. -/

/-- Settles O8: the port hands over the word, and the step runs the command it spells. -/
theorem stepRunsDecodedInstruction : Obligations.StepRunsDecodedInstruction := by
  intro s w rest i hq hh hd
  exact step_of_fetch_decode (State.fetch_offer hq hh) hd

/-- Settles O9, by where the sequencer stands. -/
theorem stepWithoutCommandIsOneBitPeriod : Obligations.StepWithoutCommandIsOneBitPeriod := by
  refine ⟨fun s h hn => step_atRest h hn, fun s k hq => ?_, fun s k hq => ?_⟩
  · rw [step_of_fetch_none (State.fetch_eq_none_of_not_idle (by simp [hq])), State.advance_initHw hq]
  · rw [step_of_fetch_none (State.fetch_eq_none_of_not_idle (by simp [hq])), State.advance_showFrame hq]

/-- Settles O53, from the capacity check of R295(1) with 72 bits per LED. -/
theorem elaboratedChainFits : Obligations.ElaboratedChainFits := by
  intro c h
  obtain ⟨hcap, -, -, hbits, -⟩ := elaborates_parts h
  have hmax : c.nMax = c.waveBits / 72 := congrArg (c.waveBits / ·) hbits
  refine ⟨?_, hmax, fun h16 => ?_⟩
  · rw [hmax, Nat.le_div_iff_mul_le (by decide), Nat.mul_comm]
    exact hcap
  · rw [hmax, Config.waveBits, h16]

/-- Settles O58: the step is a wait of the host and one move of the serializer, and each has its frame. -/
theorem bitPeriodFrame : Obligations.BitPeriodFrame := by
  intro s hrest hn
  obtain ⟨hfifo, hgrows, hpending, hstill⟩ := s.hostWaits.serializerTick_drains
  simp only [State.hostWaits_ser, State.hostWaits_wireDefined, State.hostWaits_channelRuns] at hfifo hgrows hpending hstill
  refine ⟨_, step_atRest hrest hn, s.bitPeriod_eq, ?_, hfifo, hgrows, hpending, fun hw hp => ?_⟩
  · rw [State.serializerTick_host]
    split
    · exact State.hostWaits_host_of_wait ‹_›
    · rw [State.hostWaits_of_no_wait ‹_›]
  · rw [hstill hw hp]
    exact ⟨s.hostWaits_ser, s.hostWaits_per, s.hostWaits_draws⟩

end Sys2Proof.Machine
end

section
/-! What a step can do, said once, and what every step keeps (10_state.md R30 to R54). -/

namespace Sys2Proof.Machine

/-! The commands as functions of the state in which they are accepted. -/

/-- What a command does from its acceptance on (30_encoding.md R91). -/
def runCommand : Instr → State → State
  | .initHw => State.runInitHw
  | .clear => State.runClear
  | .setPixel idx r g b => State.runSetPixel idx { r := r, g := g, b := b }
  | .showFrame => State.runShowFrame

theorem exec_eq_accept (i : Instr) (s : State) : exec i s = .next (s.accept (runCommand i)) := by
  cases i <;> rfl

theorem exec_of_idle {s : State} (h : s.seq = .idle) (i : Instr) : exec i s = .next (runCommand i s) := by
  rw [exec_eq_accept, State.accept, if_pos (s.cmdReady_iff.mpr h)]

theorem runCommand_initHw (s : State) : runCommand .initHw s = s.runInitHw := rfl
theorem runCommand_showFrame (s : State) : runCommand .showFrame s = s.runShowFrame := rfl

/-- SHOW is its six steps in order (44_show.md R230). -/
theorem State.runShowFrame_eq_steps (s : State) :
    s.runShowFrame = showStep .enable (showStep .push (showStep .stopAndFlush (showStep .waveEncode
      (showStep .waveClear (showStep .reassert (s.recordOverlap.goto (.showFrame .reassert))))))) := by
  simp only [State.runShowFrame, runSequencer, sequencerStep, showStep, State.goto_seq]

/-! The moves of the machine. -/

/-- Every way a step can go, with where the sequencer stands and what is on the port (00_scope.md R5). -/
inductive Move (s : State) : State → Prop
  /-- A command word is accepted and its command runs whole (60_exceptions.md R268). -/
  | command {w : CmdWord} {rest : List HostMove} {i : Instr} (hq : s.seq = .idle) (hh : s.host = .offer w :: rest)
      (hd : decode w = .ok i) : Move s (runCommand i { s with host := rest })
  /-- A word that spells no command is accepted (60_exceptions.md R264). -/
  | illegal {w : CmdWord} {rest : List HostMove} {e : DecodeError} (hq : s.seq = .idle) (hh : s.host = .offer w :: rest)
      (hd : decode w = .error e) : Move s (State.illegalCommand w { s with host := rest })
  /-- At rest with no word accepted, one bit period passes (44_show.md R238). -/
  | bitPeriod (hr : s.AtRest) : Move s s.hostWaits.serializerTick
  /-- Inside INIT_HW, its next step (10_state.md R34). -/
  | initHw {k : InitStep} (hq : s.seq = .initHw k) : Move s (initStep k s)
  /-- Inside SHOW, its next step (10_state.md R34). -/
  | showFrame {k : ShowStep} (hq : s.seq = .showFrame k) : Move s (showStep k s)

theorem State.fetch_eq_some {s s' : State} {w : CmdWord} (h : s.fetch = some (w, s')) :
    ∃ rest, s.seq = .idle ∧ s.host = .offer w :: rest ∧ s' = { s with host := rest } := by
  rw [State.fetch] at h
  split at h
  · rename_i hr hh
    cases h
    exact ⟨_, s.cmdReady_iff.mp hr, hh, rfl⟩
  · cases h

/-- A word that spells no command is answered with ILLEGAL_COMMAND (60_exceptions.md R264). -/
theorem step_of_fetch_illegal {s s' : State} {w : CmdWord} {e : DecodeError} (hf : s.fetch = some (w, s'))
    (hd : decode w = .error e) : step s = .next (s'.illegalCommand w) := by
  simp [step, hf, hd]

/-- A step without an accepted word is a bit period at rest, or the command's next step inside one. -/
theorem State.move_advance (s : State) : Move s s.advance := by
  cases hq : s.seq with
  | idle => rw [State.advance_atRest (.inl hq)]; exact .bitPeriod (.inl hq)
  | fatal => rw [State.advance_atRest (.inr hq)]; exact .bitPeriod (.inr hq)
  | initHw k => rw [State.advance_initHw hq]; exact .initHw hq
  | showFrame k => rw [State.advance_showFrame hq]; exact .showFrame hq

/-- Every step is one of these moves. -/
theorem step_move (s : State) : ∃ t, step s = .next t ∧ Move s t := by
  cases hf : s.fetch with
  | none => exact ⟨_, step_of_fetch_none hf, s.move_advance⟩
  | some p =>
    obtain ⟨w, s'⟩ := p
    obtain ⟨rest, hq, hh, rfl⟩ := State.fetch_eq_some hf
    cases hd : decode w with
    | ok i =>
      have hrun := exec_of_idle (s := { s with host := rest }) hq i
      exact ⟨_, (step_of_fetch_decode hf hd).trans hrun, .command hq hh hd⟩
    | error e => exact ⟨_, step_of_fetch_illegal hf hd, .illegal hq hh hd⟩

theorem move_of_step {s t : State} (h : step s = .next t) : Move s t := by
  obtain ⟨u, hu, hm⟩ := step_move s
  cases hu.symm.trans h
  exact hm

/-! What every operation keeps. -/

/-- What no operation of the machine undoes, with what it may add to the trace: the configuration and the premises stay,
the three histories grow, the bus trace by listed transactions only (10_state.md R49), the flags and recorded faults stay
set, and the sizes of the buffers and the bound of the FIFO are kept. -/
structure State.Grows (s t : State) : Prop where
  cfg : t.cfg = s.cfg
  reference : t.reference = s.reference
  mapOk : t.mapOk = s.mapOk
  trace : ∃ new, t.trace = s.trace ++ new ∧ ∀ e ∈ new, listedEvent s.cfg e
  diag : s.diag <+: t.diag
  wire : s.ser.wire <+: t.ser.wire
  mapped : s.mapped = true → t.mapped = true
  initDone : s.initDone = true → t.initDone = true
  faults : ∀ f, s.faults.has f = true → t.faults.has f = true
  sized : s.Sized → t.Sized
  fifo : s.FifoBounded → t.FifoBounded

namespace State.Grows

theorem refl (s : State) : s.Grows s where
  cfg := rfl
  reference := rfl
  mapOk := rfl
  trace := ⟨[], by simp, by simp⟩
  diag := List.prefix_refl _
  wire := List.prefix_refl _
  mapped := id
  initDone := id
  faults := fun _ => id
  sized := id
  fifo := id

theorem trans {s t u : State} (h : s.Grows t) (g : t.Grows u) : s.Grows u where
  cfg := g.cfg.trans h.cfg
  reference := g.reference.trans h.reference
  mapOk := g.mapOk.trans h.mapOk
  trace := by
    obtain ⟨new, hn, hl⟩ := h.trace
    obtain ⟨more, gn, gl⟩ := g.trace
    refine ⟨new ++ more, by rw [gn, hn, List.append_assoc], fun e he => ?_⟩
    rcases List.mem_append.mp he with he | he
    · exact hl e he
    · exact h.cfg ▸ gl e he
  diag := h.diag.trans g.diag
  wire := h.wire.trans g.wire
  mapped := g.mapped ∘ h.mapped
  initDone := g.initDone ∘ h.initDone
  faults := fun f => g.faults f ∘ h.faults f
  sized := g.sized ∘ h.sized
  fifo := g.fifo ∘ h.fifo

/-- A loop grows the state when every pass does. -/
theorem foldl {α : Type} {f : State → α → State} (h : ∀ (t : State) x, t.Grows (f t x)) (xs : List α) (s : State) :
    s.Grows (xs.foldl f s) :=
  List.foldlRecOn xs f (refl s) fun t ht x _ => ht.trans (h t x)

end State.Grows

/-! One lemma per operation. -/

theorem State.grows_goto (s : State) (q : Seq) : s.Grows (s.goto q) := { State.Grows.refl s with }
theorem State.grows_respond (s : State) (st : Status) : s.Grows (s.respond st) := { State.Grows.refl s with }
theorem State.grows_complete (s : State) (st : Status) : s.Grows (s.complete st) := { State.Grows.refl s with }
theorem State.grows_freeStatus (s : State) : s.Grows s.freeStatus := { State.Grows.refl s with }

theorem State.grows_setFramePending (s : State) : s.Grows s.setFramePending := { State.Grows.refl s with }

theorem State.grows_emitDiag (s : State) (k : DiagKind) (v : BitVec 16) : s.Grows (s.emitDiag k v) :=
  { State.Grows.refl s with diag := List.prefix_append _ _ }

theorem State.grows_raiseRecoverable (s : State) (k : DiagKind) (st : Status) (v : BitVec 16) :
    s.Grows (s.raiseRecoverable k st v) :=
  (s.grows_emitDiag k v).trans (State.grows_complete _ _)

/-- A recorded fault joins the set and removes none (60_exceptions.md R267). -/
theorem FaultRecord.has_add (f g : Fault) (r : FaultRecord) : (r.add f).has g = (r.has g || decide (g = f)) := by
  cases f <;> cases g <;> simp [FaultRecord.add, FaultRecord.has]

theorem State.grows_recordFault (s : State) (f : Fault) : s.Grows (s.recordFault f) :=
  { State.Grows.refl s with
    faults := fun g h => by rw [State.recordFault_faults, FaultRecord.has_add, h, Bool.true_or] }

theorem State.grows_recordOverlap (s : State) : s.Grows s.recordOverlap := by
  rw [State.recordOverlap]
  split
  · exact s.grows_recordFault _
  · exact .refl s

/-- A recorded entry grows the trace when it is listed (10_state.md R38, R49). -/
theorem State.grows_record {s : State} {e : BusEvent} (h : listedEvent s.cfg e) : s.Grows (s.record e) :=
  { State.Grows.refl s with trace := ⟨[e], rfl, by simpa using h⟩ }

theorem State.grows_delay (s : State) (t : Nat) : s.Grows (s.delay t) := State.grows_record (e := .dly t) trivial

theorem State.memWrite_fifoBounded {s : State} (h : s.FifoBounded) (a v : Word) : (s.memWrite a v).FifoBounded := by
  simp only [State.FifoBounded, State.memWrite]
  split
  · exact Serializer.write_bounded h _ _
  · exact h

theorem State.grows_memWrite {s : State} {a v : Word} (h : listedWrite s.cfg a v) : s.Grows (s.memWrite a v) :=
  { State.grows_record (e := .wr a v) h with
    wire := (s.memWrite_framePending a v).2 ▸ List.prefix_refl _
    fifo := fun hf => State.memWrite_fifoBounded hf a v }

theorem State.grows_writeSettle {s : State} {r : Reg} {v : Word} (h : listedWrite s.cfg (regAddr s.cfg r) v) (t : Nat) :
    s.Grows (s.writeSettle r v t) :=
  (State.grows_memWrite h).trans (State.grows_delay _ t)

/-- The function-select write of INIT_HW step 2 is listed: the pin's field holds the code written (40_register_access.md
R133). -/
theorem listedWrite_fsel (c : Config) (v : Word) :
    listedWrite c (fselAddr c c.pin) (insertField v (fselShift c c.pin) (altFsel c.alt)) :=
  .inl ⟨rfl, insertField_extract v _ (fselShift_le c c.pin)⟩

theorem State.grows_memRead {s : State} {a : Word} (h : a = fselAddr s.cfg s.cfg.pin) : s.Grows (s.memRead a).2 :=
  { State.grows_record (e := .rd a (s.readValue a)) h with }

theorem State.grows_gpioSetFunction (s : State) : s.Grows (s.gpioSetFunction s.cfg.pin (altFsel s.cfg.alt)) :=
  (State.grows_memRead rfl).trans (State.grows_memWrite (listedWrite_fsel s.cfg _))

theorem State.grows_establishWindows (s : State) : s.Grows s.establishWindows := by
  rw [State.establishWindows]
  split
  · exact .refl s
  · split
    · exact { State.Grows.refl s with mapped := fun _ => rfl }
    · exact (s.grows_respond _).trans (State.grows_goto _ _)

theorem State.grows_wireFree (s : State) : s.Grows s.wireFree :=
  { s.grows_freeStatus with
    wire := (s.ser.runFree_keeps s.draws).2.1
    fifo := (s.ser.runFree_fifo s.draws).trans }

theorem State.grows_wireEmit (s : State) : s.Grows s.wireEmit :=
  { s.grows_freeStatus with
    wire := s.ser.emitBit_wire _
    fifo := (s.ser.emitBit_fifo _).trans }

theorem State.grows_cutFrame (s : State) : s.Grows s.cutFrame := by
  rw [State.cutFrame]
  split
  · exact .refl s
  · exact s.grows_wireFree

theorem State.grows_serializerTick (s : State) : s.Grows s.serializerTick := by
  rw [State.serializerTick]
  split
  · split
    · split
      · exact s.grows_wireEmit
      · exact s.grows_wireFree
    · exact .refl s
  · exact s.grows_wireFree

theorem State.grows_host (s : State) (moves : List HostMove) : s.Grows { s with host := moves } :=
  { State.Grows.refl s with }

theorem State.grows_hostWaits (s : State) : s.Grows s.hostWaits := by
  rw [s.hostWaits_eq]
  exact s.grows_host _

theorem State.grows_setWaveWord (s : State) (w : Nat) (v : Word) : s.Grows (s.setWaveWord w v) :=
  { State.Grows.refl s with sized := fun ⟨hl, hw, he⟩ => ⟨hl, List.length_set.trans hw, he⟩ }

theorem State.grows_waveSetBit (s : State) (k : Nat) : s.Grows (s.waveSetBit k) := by
  rw [State.waveSetBit]
  split
  · exact s.grows_setWaveWord _ _
  · exact s.grows_recordFault _

theorem State.grows_waveClear (s : State) : s.Grows s.waveClear :=
  State.Grows.foldl (fun t w => t.grows_setWaveWord w _) _ s

theorem State.grows_encodeTriplet (s : State) (base : Nat) (t : BitStream) : s.Grows (s.encodeTriplet base t) := by
  refine State.Grows.foldl (fun r u => ?_) _ s
  split
  · exact r.grows_waveSetBit _
  · exact .refl r

theorem State.grows_waveEncode (s : State) : s.Grows s.waveEncode :=
  State.Grows.foldl (fun t _ => State.Grows.foldl (fun r _ => r.grows_encodeTriplet _ _) _ t) _ s

theorem State.grows_pushWave (s : State) : s.Grows s.pushWave :=
  State.Grows.foldl (fun _ _ => State.grows_writeSettle (.inr (.inr rfl)) _) _ s

/-! The sequencer's steps. -/

@[simp] theorem State.cutFrame_cfg (s : State) : s.cutFrame.cfg = s.cfg := s.grows_cutFrame.cfg

theorem State.grows_initDone (s : State) : s.Grows { s with initDone := true } :=
  { State.Grows.refl s with initDone := fun _ => rfl }

theorem initStep_grows (k : InitStep) (s : State) : s.Grows (initStep k s) := by
  cases k with
  | establish =>
    simp only [initStep]
    split
    · exact s.grows_establishWindows
    · exact s.grows_establishWindows.trans (State.grows_goto _ _)
  | pinFunction => exact (s.grows_gpioSetFunction.trans (State.grows_delay _ _)).trans (State.grows_goto _ _)
  | clockKill =>
    exact (s.grows_cutFrame.trans (State.grows_writeSettle (by simp [listedWrite]) _)).trans (State.grows_goto _ _)
  | ctlConfig =>
    exact ((State.grows_writeSettle (by simp [listedWrite]) _).trans (State.grows_initDone _)).trans
      (State.grows_complete _ _)
  | _ => exact (State.grows_writeSettle (by simp [listedWrite]) _).trans (State.grows_goto _ _)

theorem showStep_grows (k : ShowStep) (s : State) : s.Grows (showStep k s) := by
  cases k with
  | reassert =>
    exact (s.grows_cutFrame.trans (State.grows_writeSettle (by simp [listedWrite]) _)).trans (State.grows_goto _ _)
  | waveClear => exact s.grows_waveClear.trans (State.grows_goto _ _)
  | waveEncode => exact s.grows_waveEncode.trans (State.grows_goto _ _)
  | stopAndFlush =>
    exact ((State.grows_writeSettle (by simp [listedWrite]) _).trans
      (State.grows_writeSettle (by simp [listedWrite]) _)).trans (State.grows_goto _ _)
  | push => exact (s.grows_pushWave.trans (State.grows_freeStatus _)).trans (State.grows_goto _ _)
  | enable =>
    exact ((State.grows_memWrite (by simp [listedWrite])).trans (State.grows_setFramePending _)).trans
      (State.grows_complete _ _)

theorem sequencerStep_grows (s : State) : s.Grows (sequencerStep s) := by
  rw [sequencerStep]
  split
  · exact .refl s
  · exact initStep_grows _ s
  · exact showStep_grows _ s
  · exact .refl s

theorem runSequencer_grows (n : Nat) (s : State) : s.Grows (runSequencer n s) := by
  induction n generalizing s with
  | zero => exact .refl s
  | succ n ih => exact (sequencerStep_grows s).trans (ih _)

theorem runCommand_grows (i : Instr) (s : State) : s.Grows (runCommand i s) := by
  cases i with
  | initHw => exact (s.grows_recordOverlap.trans (State.grows_goto _ _)).trans (runSequencer_grows 10 _)
  | clear =>
    exact { State.Grows.refl s with sized := fun ⟨_, hw, he⟩ => ⟨List.length_replicate, hw, he⟩ }
  | setPixel idx r g b =>
    simp only [runCommand, State.runSetPixel]
    split
    · exact s.grows_raiseRecoverable _ _ _
    · exact { State.Grows.refl s with sized := fun ⟨hl, hw, he⟩ => ⟨List.length_set.trans hl, hw, he⟩ }
  | showFrame => exact (s.grows_recordOverlap.trans (State.grows_goto _ _)).trans (runSequencer_grows 6 _)

/-- Every move of the machine keeps and grows what every operation does. -/
theorem Move.grows {s t : State} (h : Move s t) : s.Grows t := by
  cases h with
  | command hq hh hd => exact (s.grows_host _).trans (runCommand_grows _ _)
  | illegal hq hh hd => exact (s.grows_host _).trans (State.grows_raiseRecoverable _ _ _ _)
  | bitPeriod hr => exact s.grows_hostWaits.trans (State.grows_serializerTick _)
  | initHw hq => exact initStep_grows _ s
  | showFrame hq => exact showStep_grows _ s

/-- FATAL is never left: no word is accepted there, and a bit period does not move the sequencer (60_exceptions.md R262). -/
theorem Move.fatal {s t : State} (h : Move s t) (hf : s.seq = .fatal) : t.seq = .fatal := by
  cases h with
  | command hq hh hd => rw [hf] at hq; cases hq
  | illegal hq hh hd => rw [hf] at hq; cases hq
  | bitPeriod hr => rw [s.bitPeriod_eq]; exact hf
  | initHw hq => rw [hf] at hq; cases hq
  | showFrame hq => rw [hf] at hq; cases hq

/-! The statements about every step. -/

/-- Settles O49: every move grows the trace by listed entries only. -/
theorem onlyListedTransactions : Obligations.OnlyListedTransactions := by
  intro s _
  obtain ⟨t, ht, hm⟩ := step_move s
  obtain ⟨new, hn, hl⟩ := hm.grows.trace
  exact ⟨t, new, ht, hn, hl⟩

/-- Settles O50: every move grows the state, and none leaves FATAL. -/
theorem historyOnlyGrows : Obligations.HistoryOnlyGrows := by
  intro s _
  obtain ⟨t, ht, hm⟩ := step_move s
  have hg := hm.grows
  obtain ⟨new, hn, -⟩ := hg.trace
  exact ⟨t, ht, hg.cfg, hg.reference, hg.mapOk, ⟨new, hn.symm⟩, hg.diag, hg.wire, hg.mapped, hg.initDone, hg.faults,
    hm.fatal⟩

/-- Settles O11: `exec` runs a command only through the handshake. -/
theorem commandNotAcceptedUnlessReady : Obligations.CommandNotAcceptedUnlessReady := by
  intro i s h
  rw [exec_eq_accept, State.accept, if_neg (by simp [h])]

/-- Settles O55: construction sets every engine field. -/
theorem resetValues : Obligations.ResetValues :=
  ⟨rfl, rfl, rfl, rfl, rfl, rfl, rfl, rfl, rfl, rfl, rfl, rfl⟩

end Sys2Proof.Machine
end

section
/-! Where the sequencer goes, who writes the buffers, and the two FIFO flags (10_state.md R31, R32, R34, R44). -/

namespace Sys2Proof.Machine

/-! The sequencer's next position (R34). -/

theorem sequencerStep_initHw {s : State} {k : InitStep} (h : s.seq = .initHw k) : sequencerStep s = initStep k s := by
  simp [sequencerStep, h]

theorem sequencerStep_showFrame {s : State} {k : ShowStep} (h : s.seq = .showFrame k) :
    sequencerStep s = showStep k s := by
  simp [sequencerStep, h]

/-- INIT(1) that can establish the windows goes on to INIT(2) (40_register_access.md R122). -/
theorem initStep_establish_ok {s : State} (hq : s.seq ≠ .fatal) (h : s.mapped = true ∨ s.mapOk = true) :
    (initStep .establish s).seq = .initHw .pinFunction := by
  simp [initStep, State.establishWindows_ok h, hq]

/-- INIT(1) that cannot ends in FATAL (R122, 60_exceptions.md R262). -/
theorem initStep_establish_fail {s : State} (h1 : s.mapped = false) (h2 : s.mapOk = false) :
    (initStep .establish s).seq = .fatal := by
  simp [initStep, State.establishWindows_fail h1 h2]

theorem runCommand_seq (i : Instr) (s : State) :
    (runCommand i s).seq = .idle ∨ (i = .initHw ∧ (runCommand i s).seq = .fatal) := by
  cases i with
  | initHw =>
    rw [runCommand_initHw]
    by_cases h : s.mapped = true ∨ s.mapOk = true
    · exact .inl (by rw [runInitHw_eq h])
    · simp only [not_or, Bool.not_eq_true] at h
      exact .inr ⟨rfl, by rw [runInitHw_fatal h.1 h.2]⟩
  | clear => exact .inl rfl
  | setPixel idx r g b =>
    simp only [runCommand, State.runSetPixel]
    split <;> exact .inl rfl
  | showFrame => exact .inl (by rw [runCommand_showFrame, State.runShowFrame_eq_steps]; rfl)

/-- Settles O12: each step names the next position; only INIT(1) has two. -/
theorem sequencerMovesForwardOnly : Obligations.SequencerMovesForwardOnly := by
  refine ⟨fun s k hq => ?_, fun s k hq => ?_, fun s hq => ?_, fun s i hq => ?_⟩
  · rw [sequencerStep_initHw hq]
    cases k with
    | establish =>
      by_cases h : s.mapped = true ∨ s.mapOk = true
      · have hn : ¬ (InitStep.establish.number = 1 ∧ s.mapped = false ∧ s.mapOk = false) := by
          rintro ⟨-, h1, h2⟩
          simp [h1, h2] at h
        exact .inr (.inl ⟨hn, by decide, _, initStep_establish_ok (by simp [hq]) h, rfl⟩)
      · simp only [not_or, Bool.not_eq_true] at h
        exact .inl ⟨rfl, h.1, h.2, initStep_establish_fail h.1 h.2⟩
    | ctlConfig => exact .inr (.inr ⟨rfl, rfl⟩)
    | _ => exact .inr (.inl ⟨by simp [InitStep.number], by decide, _, rfl, rfl⟩)
  · rw [sequencerStep_showFrame hq]
    cases k with
    | enable => exact .inr ⟨rfl, rfl⟩
    | _ => exact .inl ⟨by decide, _, rfl, rfl⟩
  · rcases hq with hq | hq <;> simp [sequencerStep, hq]
  · exact ⟨_, exec_of_idle hq i, runCommand_seq i s⟩

/-! Who writes the buffers. -/

theorem State.waveSetBit_led (s : State) (k : Nat) : (s.waveSetBit k).led = s.led := by
  rw [State.waveSetBit]
  split <;> rfl

/-- A loop leaves the LED buffer alone when every pass does. -/
theorem foldl_led {α : Type} {f : State → α → State} (h : ∀ t x, (f t x).led = t.led) (xs : List α) (s : State) :
    (xs.foldl f s).led = s.led :=
  List.foldlRecOn (motive := fun t : State => t.led = s.led) xs f rfl fun t ht x _ => (h t x).trans ht

theorem State.encodeTriplet_led (s : State) (base : Nat) (t : BitStream) : (s.encodeTriplet base t).led = s.led := by
  refine foldl_led (fun r u => ?_) _ s
  split
  · exact r.waveSetBit_led _
  · rfl

theorem State.encodeLed_led (s : State) (i : Nat) : (s.encodeLed i).led = s.led :=
  foldl_led (fun t _ => t.encodeTriplet_led _ _) _ s

theorem State.waveEncode_led (s : State) : s.waveEncode.led = s.led := foldl_led State.encodeLed_led _ s

theorem State.waveClear_led (s : State) : s.waveClear.led = s.led :=
  foldl_led (fun t w => t.setWaveWord_led w _) _ s

theorem State.pushWave_led (s : State) : s.pushWave.led = s.led :=
  foldl_led (fun t _ => t.writeSettle_led _ _ _) _ s

/-- SHOW reads the LED buffer and never writes it (R31, 44_show.md R230), whatever the sizes of the buffers. -/
theorem showStep_led (k : ShowStep) (s : State) : (showStep k s).led = s.led := by
  cases k with
  | reassert => rw [showStep, State.goto_led, State.writeSettle_led, s.cutFrame_eq]
  | waveClear => rw [showStep, State.goto_led, State.waveClear_led]
  | waveEncode => rw [showStep, State.goto_led, State.waveEncode_led]
  | stopAndFlush => rw [showStep, State.goto_led, State.writeSettle_led, State.writeSettle_led]
  | push => rw [showStep, State.goto_led, State.freeStatus_led, State.pushWave_led]
  | enable => rw [showStep, State.complete_led, State.setFramePending_led, State.memWrite_led]

theorem runShowFrame_led (s : State) : s.runShowFrame.led = s.led := by
  rw [State.runShowFrame_eq_steps]
  simp only [showStep_led]
  rw [State.goto_led, State.recordOverlap_eq]

theorem runInitHw_buffers (s : State) : s.runInitHw.led = s.led ∧ s.runInitHw.wave = s.wave := by
  by_cases h : s.mapped = true ∨ s.mapOk = true
  · rw [runInitHw_eq h]
    exact ⟨rfl, rfl⟩
  · simp only [not_or, Bool.not_eq_true] at h
    rw [runInitHw_fatal h.1 h.2]
    exact ⟨rfl, rfl⟩

theorem runSetPixel_wave (s : State) (idx : BitVec 16) (c : Color) : (s.runSetPixel idx c).wave = s.wave := by
  rw [State.runSetPixel]
  split <;> rfl

/-- Settles O51, by the move: of the commands CLEAR and SET_PIXEL keep the waveform buffer, SHOW the LED buffer, INIT_HW both;
an illegal word and a bit period keep both. -/
theorem bufferWriters : Obligations.BufferWriters := by
  intro s hrest
  obtain ⟨t, ht, hm⟩ := step_move s
  refine ⟨t, ht, ?_⟩
  cases hm with
  | @command w rest i hq hh hd =>
    cases i with
    | initHw =>
      obtain ⟨hl, hw⟩ := runInitHw_buffers { s with host := rest }
      exact ⟨fun h => absurd hl h, fun h => absurd hw h⟩
    | clear => exact ⟨fun _ => ⟨w, rest, hq, hh, .inl hd⟩, fun h => absurd rfl h⟩
    | setPixel idx r g b =>
      exact ⟨fun _ => ⟨w, rest, hq, hh, .inr ⟨idx, r, g, b, hd⟩⟩, fun h => absurd (runSetPixel_wave _ _ _) h⟩
    | showFrame => exact ⟨fun h => absurd (runShowFrame_led _) h, fun _ => ⟨w, rest, hq, hh, hd⟩⟩
  | illegal hq hh hd => exact ⟨fun h => absurd rfl h, fun h => absurd rfl h⟩
  | bitPeriod hr =>
    rw [s.bitPeriod_eq]
    exact ⟨fun h => absurd rfl h, fun h => absurd rfl h⟩
  | initHw hq => simp [State.AtRest, hq] at hrest
  | showFrame hq => simp [State.AtRest, hq] at hrest

/-! FULL1 and EMPT1 after a write (R44, 60_exceptions.md R278). -/

/-- A FIF1 write leaves a word in the FIFO unless the FIFO has no room at all. -/
theorem Serializer.write_fif1_ne_nil {c : Config} (h : 0 < c.fifoDepth) (z : Serializer) (v : Word) :
    (z.write c .pwmFif1 v).fifo ≠ [] := by
  simp only [Serializer.write]
  split
  · simp
  · rename_i hfull
    intro hz
    rw [hz] at hfull
    exact hfull h

/-- After a FIF1 write the FIFO is full exactly when one more word fills it. -/
theorem Serializer.write_fif1_full (c : Config) (z : Serializer) (v : Word) :
    c.fifoDepth ≤ (z.write c .pwmFif1 v).fifo.length ↔ c.fifoDepth ≤ z.fifo.length + 1 := by
  simp only [Serializer.write]
  split
  · simp
  · omega

theorem Serializer.write_clrf1_fifo {c : Config} {v : Word} (h : bitGet v c.layout.clrf1 = true) (z : Serializer) :
    (z.write c .pwmCtl v).fifo = [] := by
  simp [Serializer.write, h]

/-- The two flags after a write that reaches its register are those of the FIFO the write leaves. -/
theorem State.bitGet_staWord_memWrite {s : State} (h : soundMap s.cfg = true) (r : Reg) (v : Word) :
    bitGet (s.memWrite (regAddr s.cfg r) v).staWord s.cfg.layout.full1 =
        decide (s.cfg.fifoDepth ≤ (s.ser.write s.cfg r v).fifo.length) ∧
      bitGet (s.memWrite (regAddr s.cfg r) v).staWord s.cfg.layout.empt1 = (s.ser.write s.cfg r v).fifo.isEmpty := by
  obtain ⟨hfull, hempty, -⟩ := State.bitGet_staWord (s := s.memWrite (regAddr s.cfg r) v) h
  rw [State.memWrite_cfg] at hfull hempty
  have hser : (s.memWrite (regAddr s.cfg r) v).ser = s.ser.write s.cfg r v := by rw [State.memWrite_regAddr h]
  rw [hser] at hfull hempty
  exact ⟨hfull, hempty⟩

/-- Settles O22, from the two flags as functions of the FIFO, and what each write leaves in it. -/
theorem fifoFlagsFollowTheFifo : Obligations.FifoFlagsFollowTheFifo := by
  intro s v hm
  obtain ⟨hfull, hempty, hother⟩ := State.bitGet_staWord hm
  refine ⟨hfull, ?_, hother, fun hd => ?_, ?_, fun hc => ?_, ?_, ?_⟩
  · rw [hempty, Bool.eq_iff_iff, List.isEmpty_iff, decide_eq_true_iff]
  · rw [(State.bitGet_staWord_memWrite hm .pwmFif1 v).2, List.isEmpty_eq_false_iff]
    exact Serializer.write_fif1_ne_nil hd _ v
  · rw [(State.bitGet_staWord_memWrite hm .pwmFif1 v).1]
    exact decide_eq_decide.mpr (Serializer.write_fif1_full s.cfg s.ser v)
  · rw [(State.bitGet_staWord_memWrite hm .pwmCtl v).2, Serializer.write_clrf1_fifo hc, List.isEmpty_nil]
  · rw [(State.bitGet_staWord_memWrite hm .pwmSta v).1, hfull]
    rfl
  · rw [(State.bitGet_staWord_memWrite hm .pwmSta v).2, hempty]
    rfl

end Sys2Proof.Machine
end

section
/-! The machine's invariant: it holds at reset and every step keeps it (10_state.md R53, R34, R35, R50,
44_show.md R238). -/

namespace Sys2Proof.Machine

/-! At construction. -/

/-- The reference profile elaborates with every OPEN parameter in its legal range (70_reset_and_hazards.md R295). -/
theorem elaborates_referenceProfile {numLeds tSettle tClkStop fifoDepth : Nat} (hn : numLeds ≤ 7) (hs : 0 < tSettle)
    (hc : tSettle ≤ tClkStop) (hd : 16 ≤ fifoDepth) :
    elaborates (Config.referenceProfile numLeds tSettle tClkStop fifoDepth) = true := by
  have capacity : capacityOk (Config.referenceProfile numLeds tSettle tClkStop fifoDepth) = true :=
    Bool.and_eq_true_iff.mpr
      ⟨decide_eq_true (by decide : 1 ≤ 16), decide_eq_true (by omega : 72 * numLeds ≤ 32 * 16)⟩
  have fifo : fifoOk (Config.referenceProfile numLeds tSettle tClkStop fifoDepth) = true := decide_eq_true hd
  have delays : delaysOk (Config.referenceProfile numLeds tSettle tClkStop fifoDepth) = true :=
    Bool.and_eq_true_iff.mpr ⟨Bool.and_eq_true_iff.mpr ⟨decide_eq_true hs, decide_eq_true hc⟩,
      decide_eq_true (by decide : 0 < 1000000)⟩
  -- the other checks read no OPEN parameter
  rw [elaborates, capacity, fifo, delays]
  change (true && true && divisorOk (Config.referenceProfile 0 0 0 0) && pinOk (Config.referenceProfile 0 0 0 0) &&
    windowsOk (Config.referenceProfile 0 0 0 0) && true && offsetsOk (Config.referenceProfile 0 0 0 0) &&
    fixedOk (Config.referenceProfile 0 0 0 0)) = true
  decide

theorem elaborates_built : elaborates Config.built = true :=
  elaborates_referenceProfile (Nat.le_of_lt_succ Config.openNumLeds.isLt) (by omega) (by omega) (by omega)

/-- A new engine of an elaborated configuration meets the invariant, whatever the platform holds (R290, R54). -/
theorem State.construct_inv {c : Config} (h : elaborates c = true) (per : Peripherals) (fifo : List Word)
    (shift : BitStream) (reference mapOk : Bool) : (State.construct c per fifo shift reference mapOk).Inv where
  sized := ⟨List.length_replicate, List.length_replicate, h⟩
  atRest := .inl rfl
  response := ⟨Nat.zero_le _, nofun⟩
  fatal := nofun
  done := nofun
  fifo := List.length_take_le _ _
  configured := fun _ => nofun
  low := fun _ hw => by simp [State.wireDefined, State.construct] at hw

/-- Settles O56. -/
theorem invariantAtReset : Obligations.InvariantAtReset :=
  State.construct_inv elaborates_built _ _ _ _ _

/-! Moves that leave the target alone. -/

/-- Every response of 30_encoding.md R96 is legal. -/
theorem Status.response_legal (st : Status) : st.code.toNat ≤ 3 ∧ (st.success = true → st.code = Status.ok.code) := by
  cases st <;> decide

/-- The invariant asks of the engine's own fields only the size of the LED buffer, a legal response, and a resting position
that is FATAL only before mapping. -/
theorem State.Inv.setEngine {s : State} (h : s.Inv) {led : List Color} {seq : Seq} {status : Byte} {ok : Bool}
    {diag : List DiagEvent} {faults : FaultRecord} {host : List HostMove} (hled : led.length = s.cfg.numLeds)
    (hresp : status.toNat ≤ 3 ∧ (ok = true → status = Status.ok.code))
    (hseq : seq = .idle ∨ (seq = .fatal ∧ s.mapped = false)) :
    ({ s with
      led := led, seq := seq, respStatus := status, respOk := ok, diag := diag, faults := faults, host := host } :
      State).Inv where
  sized := ⟨hled, h.sized.2⟩
  atRest := hseq.imp id And.left
  response := hresp
  fatal := fun hf => by
    obtain ⟨-, hmap⟩ := hseq.resolve_left fun hi => Seq.noConfusion (hi.symm.trans hf)
    exact ⟨hmap, Bool.eq_false_iff.mpr fun hd => Bool.eq_false_iff.mp hmap (h.done hd)⟩
  done := h.done
  fifo := h.fifo
  configured := h.configured
  low := h.low

theorem State.Inv.setHost {s : State} (h : s.Inv) (host : List HostMove) : ({ s with host := host } : State).Inv :=
  { h with }

theorem State.Inv.runClear {s : State} (h : s.Inv) : s.runClear.Inv :=
  h.setEngine List.length_replicate (Status.response_legal .ok) (.inl rfl)

theorem State.Inv.raiseRecoverable {s : State} (h : s.Inv) (k : DiagKind) (st : Status) (v : BitVec 16) :
    (s.raiseRecoverable k st v).Inv :=
  h.setEngine h.sized.1 (Status.response_legal st) (.inl rfl)

theorem State.Inv.runSetPixel {s : State} (h : s.Inv) (idx : BitVec 16) (c : Color) : (s.runSetPixel idx c).Inv := by
  rw [State.runSetPixel]
  split
  · exact h.raiseRecoverable _ _ _
  · exact h.setEngine (List.length_set.trans h.sized.1) (Status.response_legal .ok) (.inl rfl)

/-! INIT_HW. -/

/-- After INIT_HW the peripherals hold the bring-up configuration, on a sound map (41_init_hw.md R152 to R160). -/
theorem runInitHw_configured {s : State} (h : s.mapped = true ∨ s.mapOk = true) (hm : soundMap s.cfg = true)
    (hp : s.cfg.pin / 10 ≤ 5) : s.runInitHw.Configured := by
  intro _
  obtain ⟨hper, -⟩ := runInitHw_target h hm hp
  have hmapped : s.runInitHw.mapped = true := by rw [runInitHw_eq h]
  have hcfg : s.runInitHw.cfg = s.cfg := by rw [runInitHw_eq h]
  have hrouted : s.runInitHw.pinRouted = true := by
    rw [State.pinRouted_eq (by rw [hcfg]; exact hm) (by rw [hcfg]; exact hp)]
    simp [hper, hcfg, fselWritten, insertField_extract _ _ (fselShift_le _ _)]
  rw [hper, hcfg]
  exact ⟨hmapped, rfl, rfl, rfl, rfl, .inl rfl, hrouted⟩

/-- CTL_CFG keeps the channel off, so the line is low (10_state.md R43, 60_exceptions.md R278(c)). -/
theorem State.outputLevel_of_ctlCfg {s : State} (hm : soundMap s.cfg = true) (h : s.per.ctl = ctlCfg s.cfg) :
    s.outputLevel = false := by
  obtain ⟨-, -, -, hoff, -⟩ := soundMap_ctl hm
  rw [State.outputLevel, h, hoff, Bool.false_and]

theorem State.soundMap_of_wireDefined {s : State} (h : s.wireDefined = true) : soundMap s.cfg = true := by
  simp only [State.wireDefined, Bool.and_eq_true] at h
  exact h.1.2

theorem State.Inv.runInitHw {s : State} (h : s.Inv) : s.runInitHw.Inv := by
  by_cases hmap : s.mapped = true ∨ s.mapOk = true
  · have hg := runCommand_grows .initHw s
    have e := runInitHw_eq hmap
    have hcfg : s.runInitHw.cfg = s.cfg := hg.cfg
    have hseq : s.runInitHw.seq = .idle := by rw [e]
    have hp := (elaborates_parts h.sized.2.2).2.2.1
    exact {
      sized := hg.sized h.sized
      atRest := .inl hseq
      response := by rw [e]; exact Status.response_legal .ok
      fatal := fun hf => by rw [hseq] at hf; cases hf
      done := fun _ => by rw [e]
      fifo := hg.fifo h.fifo
      configured := fun hm => runInitHw_configured hmap (hcfg ▸ hm) hp
      low := fun _ hw _ => by
        have hm := State.soundMap_of_wireDefined hw
        refine State.outputLevel_of_ctlCfg hm ?_
        rw [hcfg] at hm ⊢
        rw [(runInitHw_target hmap hm hp).1] }
  · simp only [not_or, Bool.not_eq_true] at hmap
    rw [runInitHw_fatal hmap.1 hmap.2]
    exact h.setEngine h.sized.1 (Status.response_legal .fatalEnv) (.inr ⟨rfl, hmap.1⟩)

/-! SHOW. -/

theorem State.Inv.runShowFrame {s : State} (h : s.Inv) : s.runShowFrame.Inv := by
  have hg := runCommand_grows .showFrame s
  have e := runShowFrame_eq h.sized
  have hcfg : s.runShowFrame.cfg = s.cfg := hg.cfg
  have hseq : s.runShowFrame.seq = .idle := by rw [e]
  have hmapped : s.runShowFrame.mapped = s.mapped := by rw [e]
  have hdone : s.runShowFrame.initDone = s.initDone := by rw [e]
  exact {
    sized := hg.sized h.sized
    atRest := .inl hseq
    response := by rw [e]; exact Status.response_legal .ok
    fatal := fun hf => by rw [hseq] at hf; cases hf
    done := fun hd => by rw [hmapped]; exact h.done (hdone ▸ hd)
    fifo := hg.fifo h.fifo
    configured := fun hm hd => by
      rw [hcfg] at hm
      obtain ⟨hper, -⟩ := runShowFrame_target h.sized hm
      obtain ⟨c1, c2, c3, c4, c5, -, c7⟩ := h.configured hm (hdone ▸ hd)
      have hrouted : s.runShowFrame.pinRouted = s.pinRouted := by rw [State.pinRouted, hcfg, hper]; rfl
      rw [hmapped, hper, hcfg, hrouted]
      exact ⟨c1, c2, c3, c4, c5, .inr rfl, c7⟩
    low := fun _ hw hpend => by
      have hm := State.soundMap_of_wireDefined hw
      rw [hcfg] at hm
      rw [(runShowFrame_target h.sized hm).2] at hpend
      cases hpend }

/-! A bit period. -/

/-- In the bring-up configuration, with 32 bits a word, a channel that runs is in the mode that R278(d), (e) and (f)
describe. -/
theorem State.serializerMode_of_configured {s : State} (hm : soundMap s.cfg = true) (hr : s.cfg.rangeBits = 32#32)
    (hd : s.initDone = true) (hc : s.Configured) (hrun : s.channelRuns = true) : s.serializerMode = true := by
  obtain ⟨-, hrng, -, -, -, hctl, hpin⟩ := hc hd
  obtain ⟨-, -, -, hoff, hrptl, hsbit, hpola⟩ := soundMap_ctl hm
  have hon : bitGet s.per.ctl s.cfg.layout.pwen1 = true := ((Bool.and_eq_true _ _).mp hrun).1
  have hctl : s.per.ctl = ctlRun s.cfg := hctl.resolve_left fun he => by rw [he, hoff] at hon; cases hon
  have hmode : bitGet (ctlRun s.cfg) s.cfg.layout.mode1 = true := by simp [bitGet_ctlRun]
  have husef : bitGet (ctlRun s.cfg) s.cfg.layout.usef1 = true := by simp [bitGet_ctlRun]
  simp [State.serializerMode, hctl, hmode, husef, hrng, hr, hrptl, hsbit, hpola, hpin]

/-- The line is low between frames after a bit period too: the period that ends the frame ends with the stop (R238,
R278(e)). -/
theorem State.Inv.low_serializerTick {s : State} (h : s.Inv) : s.serializerTick.LowBetweenFrames := by
  intro hr hw hp
  have hcfg : s.serializerTick.cfg = s.cfg := s.grows_serializerTick.cfg
  rw [hcfg] at hr
  have hw : s.wireDefined = true := by rw [s.serializerTick_eq] at hw; exact hw
  have hm := State.soundMap_of_wireDefined hw
  have hd : s.initDone = true := ((Bool.and_eq_true _ _).mp hw).2
  cases hrun : s.ser.framePending && s.channelRuns with
  | false =>
    rw [State.serializerTick_still hw hrun] at hp ⊢
    exact h.low hr hw hp
  | true =>
    obtain ⟨hpend, hchan⟩ := (Bool.and_eq_true _ _).mp hrun
    have hmode := State.serializerMode_of_configured hm hr hd (h.configured hm) hchan
    rw [State.serializerTick_emits hw hpend hchan hmode] at hp ⊢
    rw [State.outputLevel, State.wireEmit_ser, Serializer.emitBit_low _ _ hpend hp, Bool.and_false]

theorem State.Inv.serializerTick {s : State} (h : s.Inv) : s.serializerTick.Inv := by
  have hg := s.grows_serializerTick
  have hlow := h.low_serializerTick
  rw [s.serializerTick_eq] at hg hlow ⊢
  exact { h with fifo := hg.fifo h.fifo, low := hlow }

/-! Every step. -/

theorem State.Inv.runCommand {s : State} (h : s.Inv) (i : Instr) : (runCommand i s).Inv := by
  cases i with
  | initHw => exact h.runInitHw
  | clear => exact h.runClear
  | setPixel idx r g b => exact h.runSetPixel idx _
  | showFrame => exact h.runShowFrame

/-- Settles O57, by the move: a command, an illegal word, or a bit period; the invariant puts the sequencer at rest, so no
step continues inside a command. -/
theorem invariantKeptByEveryStep : Obligations.InvariantKeptByEveryStep := by
  intro s t h ht
  cases move_of_step ht with
  | command hq hh hd => exact (h.setHost _).runCommand _
  | illegal hq hh hd => exact (h.setHost _).raiseRecoverable _ _ _
  | bitPeriod hr =>
    rw [s.hostWaits_eq]
    exact (h.setHost _).serializerTick
  | initHw hq => exact absurd h.atRest (by simp [State.AtRest, hq])
  | showFrame hq => exact absurd h.atRest (by simp [State.AtRest, hq])

end Sys2Proof.Machine
end

section
/-! The target registers and their addresses: what one write leaves at the target, and the windows the addresses stand in
(20_memory.md R71, R72, R75, R77, R78, 60_exceptions.md R278). -/

namespace Sys2Proof.Machine

/-! One write on a register's own storage. -/

/-- A FIF1 write appends its word while the FIFO has room (R278(b)). -/
theorem Serializer.write_fif1_room {c : Config} {z : Serializer} (h : z.fifo.length < c.fifoDepth) (v : Word) :
    z.write c .pwmFif1 v = { z with fifo := z.fifo ++ [v] } := if_pos h

/-- A FIF1 write into a full FIFO is lost (R278(b)). -/
theorem Serializer.write_fif1_overflow {c : Config} {z : Serializer} (h : c.fifoDepth ≤ z.fifo.length) (v : Word) :
    z.write c .pwmFif1 v = z := if_neg (Nat.not_lt.mpr h)

/-- CLRF1 reads as 0 whatever was written (R77). -/
theorem Peripherals.write_ctl_clrf1 (c : Config) (p : Peripherals) (v : Word) :
    bitGet (p.write c .pwmCtl v).ctl c.layout.clrf1 = false := by
  simp [Peripherals.write, bitGet_bitClear]

/-- An STA write clears exactly the error flags written with 1 (R77). -/
theorem Peripherals.bitGet_write_sta (c : Config) (p : Peripherals) (v : Word) (n : Fin 32) :
    bitGet (p.write c .pwmSta v).sta n = (bitGet p.sta n && !(bitGet v n && bitGet (staErrorMask c) n)) := by
  simp [Peripherals.write, bitGet]

/-- A clock-manager write without the password is ignored (R77). -/
theorem Peripherals.write_clock_ignored {c : Config} {v : Word} (h : passwordOk c v = false) (p : Peripherals) :
    p.write c .cmPwmctl v = p ∧ p.write c .cmPwmdiv v = p := by
  simp [Peripherals.write, h]

/-- A CM_PWMCTL write with the password is stored, BUSY apart (10_state.md R47). -/
theorem Peripherals.write_cmPwmctl_accepted {c : Config} {v : Word} (h : passwordOk c v = true) (p : Peripherals) :
    p.write c .cmPwmctl v = { p with cmCtl := cmCtlWritten c v } := if_pos h

/-- The peripheral registers take a write twice as they take it once (R77). -/
theorem Peripherals.write_twice (c : Config) (r : Reg) (v : Word) (p : Peripherals) :
    (p.write c r v).write c r v = p.write c r v := by
  cases r with
  | gpfsel n => simp [Peripherals.write, Vector.set_set]
  | pwmSta => simp [Peripherals.write, BitVec.and_assoc]
  | cmPwmctl => cases h : passwordOk c v <;> simp [Peripherals.write, h]
  | cmPwmdiv => cases h : passwordOk c v <;> simp [Peripherals.write, h]
  | _ => rfl

/-- The FIFO takes a write twice as it takes it once, FIF1 apart, where each write pushes (R77, R278(a), (b)). -/
theorem Serializer.write_twice (c : Config) {r : Reg} (hr : r ≠ .pwmFif1) (v : Word) (z : Serializer) :
    (z.write c r v).write c r v = z.write c r v := by
  cases r with
  | pwmFif1 => exact absurd rfl hr
  | pwmCtl => cases h : bitGet v c.layout.clrf1 <;> simp [Serializer.write, h]
  | _ => rfl

/-! The same at the bus, on a sound map. -/

theorem State.memWrite_regAddr_per {s : State} (h : soundMap s.cfg = true) (r : Reg) (v : Word) :
    (s.memWrite (regAddr s.cfg r) v).per = s.per.write s.cfg r v := by rw [State.memWrite_regAddr h]

theorem State.memWrite_regAddr_ser {s : State} (h : soundMap s.cfg = true) (r : Reg) (v : Word) :
    (s.memWrite (regAddr s.cfg r) v).ser = s.ser.write s.cfg r v := by rw [State.memWrite_regAddr h]

/-- Two writes of one word to one register act at the target one after the other (R78). -/
theorem State.memWrite_regAddr_twice {s : State} (h : soundMap s.cfg = true) (r : Reg) (v : Word) :
    ((s.memWrite (regAddr s.cfg r) v).memWrite (regAddr s.cfg r) v).per =
        (s.per.write s.cfg r v).write s.cfg r v ∧
      ((s.memWrite (regAddr s.cfg r) v).memWrite (regAddr s.cfg r) v).ser =
        (s.ser.write s.cfg r v).write s.cfg r v := by
  have hper := State.memWrite_regAddr_per (s := s.memWrite (regAddr s.cfg r) v) h r v
  have hser := State.memWrite_regAddr_ser (s := s.memWrite (regAddr s.cfg r) v) h r v
  rw [State.memWrite_cfg] at hper hser
  rw [hper, hser, State.memWrite_regAddr_per h, State.memWrite_regAddr_ser h]
  exact ⟨rfl, rfl⟩

/-- A read has no effect at the target (R77). -/
theorem State.memRead_target (s : State) (a : Word) : (s.memRead a).2.per = s.per ∧ (s.memRead a).2.ser = s.ser :=
  ⟨rfl, rfl⟩

/-- An accepted CM_PWMCTL write with KILL = 1 stops the clock, and with it the channel (R77, 60_exceptions.md R278(c)). -/
theorem State.channelRuns_of_kill {s : State} (h : soundMap s.cfg = true) {v : Word} (hpw : passwordOk s.cfg v = true)
    (hk : v.getLsbD s.cfg.layout.kill.val = true) : (s.memWrite (regAddr s.cfg .cmPwmctl) v).channelRuns = false := by
  have hstopped : clockRuns s.cfg v = false := by simp [clockRuns, hk]
  rw [State.channelRuns, State.memWrite_regAddr_per h, Peripherals.write_cmPwmctl_accepted hpw, State.memWrite_cfg,
    clockRuns_cmCtlWritten h, hstopped, Bool.and_false]

/-- Settles O21: each clause is what one write leaves at the target, read through the sound map. -/
theorem targetRegisterSideEffects : Obligations.TargetRegisterSideEffects := by
  intro s v hm
  have hper (r : Reg) := State.memWrite_regAddr_per hm r v
  have hser (r : Reg) := State.memWrite_regAddr_ser hm r v
  have htwice (r : Reg) := State.memWrite_regAddr_twice hm r v
  refine ⟨fun hroom => ?append, fun hroom => ?appendTwo, fun hfull => ?full, fun hclr => ?flush, ?clrf1, fun n => ?sta,
    fun hpw => ?ignored, fun hpw hkill => State.channelRuns_of_kill hm hpw hkill, fun hpw => ?busy,
    fun _ => State.memRead_target s _, fun r hr => ?twice⟩
  case append => rw [hser, Serializer.write_fif1_room hroom]
  case appendTwo =>
    have hone := Serializer.write_fif1_room (Nat.lt_of_succ_lt hroom) v
    rw [(htwice _).2, hone, Serializer.write_fif1_room (by simpa using hroom)]
    simp
  case full => rw [hser, Serializer.write_fif1_overflow hfull]
  case flush => rw [hser, Serializer.write_clrf1_fifo hclr]
  case clrf1 => rw [hper, Peripherals.write_ctl_clrf1]
  case sta => rw [hper, Peripherals.bitGet_write_sta]
  case ignored =>
    rw [hper, hper]
    exact Peripherals.write_clock_ignored hpw s.per
  case busy =>
    rw [hper, Peripherals.write_cmPwmctl_accepted hpw, cmCtlWritten_getLsbD, if_pos rfl, clockRuns]
  case twice =>
    rw [(htwice r).1, (htwice r).2, hper, hser]
    exact ⟨Peripherals.write_twice _ _ _ _, Serializer.write_twice _ hr _ _⟩

/-! Addresses of an elaborated configuration. -/

/-- Every window is 4096-aligned and ends inside the 32-bit space (70_reset_and_hazards.md R295(5)). -/
theorem windowBase_of_elaborates {c : Config} (h : elaborates c = true) (w : Window) :
    windowBase c w % 4096 = 0 ∧ windowBase c w + 4095 ≤ 0xFFFFFFFF := by
  obtain ⟨-, -, -, -, hbytes⟩ := elaborates_parts h
  simp only [elaborates, windowsOk, Bool.and_eq_true] at h
  obtain ⟨⟨⟨⟨-, ⟨⟨hgpio, hpwm⟩, hclk⟩, hdma⟩, -⟩, -⟩, -⟩ := h
  have hfits : windowFits c w = true := by
    cases w with
    | gpio => exact hgpio
    | pwm => exact hpwm
    | clk => exact hclk
    | dma => exact hdma
  simpa [windowFits, hbytes] using hfits

/-- Every register offset is a multiple of 4 inside its window (R72, R75). -/
theorem regOffset_of_elaborates {c : Config} (h : elaborates c = true) (r : Reg) :
    regOffset c r % 4 = 0 ∧ regOffset c r < 4096 := by
  obtain ⟨-, -, -, -, hbytes⟩ := elaborates_parts h
  simp only [elaborates, Bool.and_eq_true] at h
  obtain ⟨⟨-, hoffsets⟩, -⟩ := h
  simpa [hbytes] using List.all_eq_true.mp hoffsets r (Reg.mem_all r)

/-- The address of a register is its window's base plus its offset, without wrapping (R72). -/
theorem regAddr_toNat {c : Config} (h : elaborates c = true) (r : Reg) :
    (regAddr c r).toNat = windowBase c r.window + regOffset c r := by
  obtain ⟨-, hend⟩ := windowBase_of_elaborates h r.window
  obtain ⟨-, hinside⟩ := regOffset_of_elaborates h r
  rw [regAddr, BitVec.toNat_ofNat, Nat.mod_eq_of_lt (by omega)]

/-- Settles O54, from the windows and the offsets that elaboration checks. -/
theorem addressesAlignedInsideWindows : Obligations.AddressesAlignedInsideWindows := by
  intro c r h
  obtain ⟨hbase, -⟩ := windowBase_of_elaborates h r.window
  obtain ⟨haligned, hinside⟩ := regOffset_of_elaborates h r
  rw [regAddr_toNat h]
  exact ⟨rfl, by omega, by omega, by omega⟩

end Sys2Proof.Machine
end

section
/-! Which words are legal, and what each spells (30_encoding.md R90 to R95). -/

namespace Sys2Proof

/-! The rows of the table, by the fields of the word. -/

/-- A 64-bit word is its six fields, the reserved CMD[39:24] among them (R90). -/
theorem CmdWord.append_fields (w : CmdWord) :
    w.op ++ w.index ++ w.extractLsb' 24 16 ++ w.red ++ w.green ++ w.blue = w := by
  simp only [CmdWord.op, CmdWord.index, CmdWord.red, CmdWord.green, CmdWord.blue]
  iterate 5 rw [BitVec.extractLsb'_append_extractLsb'_eq_extractLsb' (by rfl)]
  exact BitVec.extractLsb'_eq_self

/-- A row whose mask covers OP fixes it (R95). -/
theorem TableRow.op_of_hits {r : TableRow} {w : CmdWord} (hm : r.mask.op = BitVec.allOnes 8) (h : r.hits w = true) :
    w.op = r.pattern.op := by
  calc w.op
    _ = w.op &&& r.mask.op := by rw [hm, BitVec.and_allOnes]
    _ = (w &&& r.mask).op := BitVec.extractLsb'_and.symm
    _ = r.pattern.op := by rw [eq_of_beq h]

theorem initHwRow_hits (w : CmdWord) : initHwRow.hits w = true ↔ w = encode .initHw := by
  simp only [TableRow.hits, initHwRow, and_allOnes_mask, beq_iff_eq]
  rfl

theorem clearRow_hits (w : CmdWord) : clearRow.hits w = true ↔ w = encode .clear := by
  simp only [TableRow.hits, clearRow, and_allOnes_mask, beq_iff_eq]
  rfl

theorem showFrameRow_hits (w : CmdWord) : showFrameRow.hits w = true ↔ w = encode .showFrame := by
  simp only [TableRow.hits, showFrameRow, and_allOnes_mask, beq_iff_eq]
  rfl

/-- The SET_PIXEL row leaves exactly the operand fields open (R92 to R95). -/
theorem setPixelRow_hits (w : CmdWord) :
    setPixelRow.hits w = true ↔ w = encode (.setPixel w.index w.red w.green w.blue) := by
  constructor
  · intro h
    have hop : w.op = 0x03#8 := TableRow.op_of_hits (r := setPixelRow) (by decide) h
    have hrsv : w.extractLsb' 24 16 = 0#16 := by
      calc w.extractLsb' 24 16
        _ = w.extractLsb' 24 16 &&& setPixelRow.mask.extractLsb' 24 16 := BitVec.and_allOnes.symm
        _ = (w &&& setPixelRow.mask).extractLsb' 24 16 := BitVec.extractLsb'_and.symm
        _ = 0#16 := by rw [eq_of_beq h]; rfl
    rw [encode, cmdWord, ← hop, ← hrsv, w.append_fields]
  · intro h
    rw [h, encode, TableRow.hits]
    exact beq_iff_eq.mpr (setPixel_masked _ _ _ _)

/-- A word spells exactly the command whose word it is (R90, R91, R95). -/
theorem decode_eq_ok_iff (w : CmdWord) (i : Instr) : decode w = .ok i ↔ w = encode i := by
  constructor
  · intro h
    rw [decode] at h
    split at h
    · cases h; exact (initHwRow_hits w).mp ‹_›
    split at h
    · cases h; exact (clearRow_hits w).mp ‹_›
    split at h
    · cases h; exact (setPixelRow_hits w).mp ‹_›
    split at h
    · cases h; exact (showFrameRow_hits w).mp ‹_›
    · cases h
  · rintro rfl
    cases i with
    | setPixel idx r g b =>
      obtain ⟨hop, hidx, hr, hg, hb⟩ := cmdWord_fields 0x03#8 idx r g b
      obtain ⟨hinit, hclear, -⟩ := setPixel_other_rows hop
      have hrow : setPixelRow.hits (cmdWord 0x03#8 idx r g b) = true := beq_iff_eq.mpr (setPixel_masked idx r g b)
      simp [decode, encode, hinit, hclear, hrow, hidx, hr, hg, hb]
    | _ => rfl

/-- A word that spells a command matches a row, and the other way round (R95). -/
theorem exists_decode_iff (w : CmdWord) : (∃ i, decode w = .ok i) ↔ ∃ r ∈ opcodeRows, r.hits w = true := by
  simp only [decode_eq_ok_iff, opcodeRows, List.mem_cons, List.not_mem_nil, or_false, exists_eq_or_imp, exists_eq_left,
    initHwRow_hits, clearRow_hits, setPixelRow_hits, showFrameRow_hits]
  constructor
  · rintro ⟨i, rfl⟩
    cases i with
    | initHw => exact .inl rfl
    | clear => exact .inr (.inl rfl)
    | setPixel idx r g b =>
      obtain ⟨-, hidx, hr, hg, hb⟩ := cmdWord_fields 0x03#8 idx r g b
      exact .inr (.inr (.inl (by simp [encode, hidx, hr, hg, hb])))
    | showFrame => exact .inr (.inr (.inr rfl))
  · rintro (h | h | h | h) <;> exact ⟨_, h⟩

/-- The OP a row asks for names the row (R91, R95). -/
theorem row_eq_of_op : ∀ r ∈ opcodeRows, ∀ q ∈ opcodeRows, r.pattern.op = q.pattern.op → r = q := by decide

theorem row_mask_op : ∀ r ∈ opcodeRows, r.mask.op = BitVec.allOnes 8 := by decide

/-! The statements. -/

/-- Settles O1: the word of a command spells it. -/
theorem decodeEncodeRoundTrip : Obligations.DecodeEncodeRoundTrip :=
  fun i => (decode_eq_ok_iff (encode i) i).mpr rfl

/-- Settles O2: a word spells no command but the one whose word it is. -/
theorem encodeDecodeRoundTrip : Obligations.EncodeDecodeRoundTrip :=
  fun w i h => ((decode_eq_ok_iff w i).mp h).symm

/-- Settles O3: the decoder tries the four rows, and OP tells them apart. -/
theorem legalWordsAreTheTableRows : Obligations.LegalWordsAreTheTableRows := by
  refine ⟨fun w => ?_, fun w r q hr hq hrw hqw => row_eq_of_op r hr q hq ?_⟩
  · rw [exists_decode_iff]
    simp [opcodeRows, TableRow.hits, initHwRow, clearRow, setPixelRow, showFrameRow]
  · rw [← TableRow.op_of_hits (row_mask_op r hr) hrw, TableRow.op_of_hits (row_mask_op q hq) hqw]

/-- Settles O4, by evaluation. -/
theorem decodedTestWords : Obligations.DecodedTestWords := by
  unfold Obligations.DecodedTestWords
  decide

end Sys2Proof
end

section
/-! What the assembler reads from the texts of 30_encoding.md R97 and R98, and the words it gives. -/

namespace Sys2Proof.Machine

/-! Texts with no blank at either end. -/

/-- The first and the last character are no blanks. -/
def Trimmed (t : List Char) : Prop :=
  (∃ a, t.head? = some a ∧ isBlank a = false) ∧ ∃ b, t.getLast? = some b ∧ isBlank b = false

theorem Trimmed.append {t u : List Char} (ht : Trimmed t) (hu : Trimmed u) (m : List Char) : Trimmed (t ++ m ++ u) := by
  obtain ⟨⟨a, hhead, ha⟩, -⟩ := ht
  obtain ⟨-, b, hlast, hb⟩ := hu
  exact ⟨⟨a, by simp [List.head?_append, hhead], ha⟩, b, by simp [List.getLast?_append, hlast], hb⟩

theorem dropWhile_isBlank_of_head {t : List Char} {a : Char} (h : t.head? = some a) (ha : isBlank a = false) :
    t.dropWhile isBlank = t := by
  obtain ⟨t, rfl⟩ := List.head?_eq_some_iff.mp h
  exact List.dropWhile_cons_of_neg (by simp [ha])

/-- Trimming takes the spaces after a trimmed text away. -/
theorem Trimmed.trimBlanks_append_spaces {t : List Char} (ht : Trimmed t) (k : Nat) :
    trimBlanks (t ++ List.replicate k ' ') = t := by
  obtain ⟨⟨a, hhead, ha⟩, b, hlast, hb⟩ := ht
  have hfront : (t ++ List.replicate k ' ').dropWhile isBlank = t ++ List.replicate k ' ' :=
    dropWhile_isBlank_of_head (by simp [List.head?_append, hhead]) ha
  have hback : t.reverse.dropWhile isBlank = t.reverse :=
    dropWhile_isBlank_of_head (by rw [List.head?_reverse, hlast]) hb
  rw [trimBlanks, hfront, List.reverse_append, List.reverse_replicate, dropWhile_spaces, hback, List.reverse_reverse]

theorem Trimmed.trimBlanks_eq {t : List Char} (ht : Trimmed t) : trimBlanks t = t := by
  simpa using ht.trimBlanks_append_spaces 0

/-- Trimming takes the space before a trimmed text away. -/
theorem Trimmed.trimBlanks_space_cons {t : List Char} (ht : Trimmed t) : trimBlanks (' ' :: t) = t := ht.trimBlanks_eq

theorem trimBlanks_spaces_only (k : Nat) : trimBlanks (List.replicate k ' ') = [] := by
  have h : (List.replicate k ' ').dropWhile isBlank = [] := by simpa using dropWhile_spaces k []
  rw [trimBlanks, h]
  rfl

/-! Numerals and operand lists. -/

theorem Numeral.trimmed_text (n : Numeral) : Trimmed n.text := by
  have hne := n.text_ne_nil
  exact ⟨⟨_, List.head?_eq_some_head hne, (n.text_chars _ (List.head_mem hne)).2.2⟩,
    _, List.getLast?_eq_some_getLast hne, (n.text_chars _ (List.getLast_mem hne)).2.2⟩

theorem Numeral.semicolon_notMem_text (n : Numeral) : ';' ∉ n.text := fun h => (n.text_chars _ h).1 rfl

theorem Numeral.comma_notMem_text (n : Numeral) : ',' ∉ n.text := fun h => (n.text_chars _ h).2.1 rfl

/-- A text without a comma is one piece. -/
theorem splitCommas_of_notMem {t : List Char} (h : ',' ∉ t) : splitCommas t = [t] := by
  induction t with
  | nil => rfl
  | cons c t ih =>
    rw [List.mem_cons, not_or] at h
    rw [splitCommas, if_neg (by simpa using Ne.symm h.1), ih h.2]

theorem parseNumber_space_text (n : Numeral) : parseNumber (trimBlanks (' ' :: n.text)) = some n.number := by
  rw [n.trimmed_text.trimBlanks_space_cons, parseNumber_text]

/-- The operand list of SET_PIXEL, as it is written (R97). -/
def operandText (index r g b : Numeral) : List Char :=
  index.text ++ [',', ' '] ++ r.text ++ [',', ' '] ++ g.text ++ [',', ' '] ++ b.text

theorem trimmed_operandText (index r g b : Numeral) : Trimmed (operandText index r g b) := by
  simpa [operandText] using
    index.trimmed_text.append b.trimmed_text ([',', ' '] ++ r.text ++ [',', ' '] ++ g.text ++ [',', ' '])

theorem splitCommas_operandText (index r g b : Numeral) :
    splitCommas (operandText index r g b) = [index.text, ' ' :: r.text, ' ' :: g.text, ' ' :: b.text] := by
  have hspace (n : Numeral) : ',' ∉ ' ' :: n.text := by simp [n.comma_notMem_text]
  calc splitCommas (operandText index r g b)
    _ = splitCommas (index.text ++ ',' :: ((' ' :: r.text) ++ ',' :: ((' ' :: g.text) ++ ',' :: (' ' :: b.text)))) := by
      simp [operandText]
    _ = _ := by
      rw [splitCommas_append _ index.comma_notMem_text, splitCommas_append _ (hspace r), splitCommas_append _ (hspace g),
        splitCommas_of_notMem (hspace b)]

theorem parseOperands_operandText (index r g b : Numeral) :
    parseOperands (operandText index r g b) = some [index.number, r.number, g.number, b.number] := by
  simp [parseOperands, splitCommas_operandText, index.trimmed_text.trimBlanks_eq, parseNumber_text,
    parseNumber_space_text]

/-! Lines. -/

theorem SourceLine.semicolon_notMem_text (l : SourceLine) : ';' ∉ l.text := by
  cases l <;> simp [SourceLine.text, Numeral.semicolon_notMem_text]

theorem SourceLine.trimmed_text (l : SourceLine) : Trimmed l.text := by
  cases l with
  | initHw => exact ⟨⟨'I', rfl, rfl⟩, 'W', rfl, rfl⟩
  | clear => exact ⟨⟨'C', rfl, rfl⟩, 'R', rfl, rfl⟩
  | setPixel index r g b =>
    have hword : Trimmed ['S', 'E', 'T', '_', 'P', 'I', 'X', 'E', 'L'] := ⟨⟨'S', rfl, rfl⟩, 'L', rfl, rfl⟩
    simpa [SourceLine.text, operandText] using hword.append (trimmed_operandText index r g b) [' ']
  | showFrame => exact ⟨⟨'S', rfl, rfl⟩, 'W', rfl, rfl⟩
  | chain n =>
    have hword : Trimmed ['.', 'c', 'h', 'a', 'i', 'n'] := ⟨⟨'.', rfl, rfl⟩, 'n', rfl, rfl⟩
    exact hword.append n.trimmed_text [' ']

/-- The spaces and the comment at the end of a line are not read (R97). -/
theorem SourceLine.trimBlanks_dropComment (l : SourceLine) (k : Nat) (c : Option (List Char)) :
    trimBlanks (dropComment (l.text ++ lineEnd k c)) = l.text := by
  rw [dropComment_lineEnd l.semicolon_notMem_text, l.trimmed_text.trimBlanks_append_spaces]

theorem trimBlanks_dropComment_lineEnd (k : Nat) (c : Option (List Char)) : trimBlanks (dropComment (lineEnd k c)) = [] := by
  have h : dropComment (lineEnd k c) = List.replicate k ' ' := dropComment_lineEnd (t := []) (by simp) k c
  rw [h, trimBlanks_spaces_only]

/-- A line of R97 and R98 is read as the command or the directive it spells. -/
theorem parseLine_text (l : SourceLine) (k : Nat) (c : Option (List Char)) :
    parseLine (l.text ++ lineEnd k c) = .ok (some l.spelled) := by
  simp only [parseLine, l.trimBlanks_dropComment]
  cases l with
  | setPixel index r g b =>
    have htext : (SourceLine.setPixel index r g b).text =
        ['S', 'E', 'T', '_', 'P', 'I', 'X', 'E', 'L'] ++ ' ' :: operandText index r g b := by
      simp [SourceLine.text, operandText]
    have hrest := (trimmed_operandText index r g b).trimBlanks_space_cons
    simp [htext, isBlank, hrest, parseOperands_operandText, SourceLine.spelled]
  | chain n =>
    simp [SourceLine.text, isBlank, n.trimmed_text.trimBlanks_space_cons, parseNumber_text, SourceLine.spelled]
  | _ => rfl

/-- A line of spaces or a comment holds nothing (R97; log entry 22). -/
theorem parseLine_lineEnd (k : Nat) (c : Option (List Char)) : parseLine (lineEnd k c) = .ok none := by
  simp [parseLine, trimBlanks_dropComment_lineEnd]

/-! Words. -/

/-- A line that is read gives the word of what it spells, or its error (R97, R98). -/
theorem assembleText_text (n : Nat) (l : SourceLine) (k : Nat) (c : Option (List Char)) :
    assembleText n (l.text ++ lineEnd k c) =
      match assembleLine n l.spelled with
      | .ok (some w) => .ok [w]
      | .ok none => .ok []
      | .error e => .error e := by
  rw [assembleText, parseLine_text]
  cases h : assembleLine n l.spelled with
  | error e => simp [h]
  | ok word => cases word <;> simp [h]

/-- A program has words exactly when its first line and the rest have theirs (R97; log entry 22). -/
theorem assemble_cons_eq_ok_iff (n : Nat) (text : List Char) (program : List (List Char)) (words : List CmdWord) :
    assemble n (text :: program) = .ok words ↔
      ∃ ws rest, assembleText n text = .ok ws ∧ assemble n program = .ok rest ∧ words = ws ++ rest := by
  rw [assemble]
  cases assembleText n text with
  | error e => simp
  | ok ws => cases assemble n program <;> simp [eq_comm]

/-- The words of a program are those of its lines in order (R97). -/
theorem assemble_eq_ok_iff (n : Nat) (program : List (List Char)) (words : List CmdWord) :
    assemble n program = .ok words ↔
      ∃ parts, List.Forall₂ (fun text ws => assembleText n text = .ok ws) program parts ∧ words = parts.flatten := by
  induction program generalizing words with
  | nil => simp [assemble, eq_comm]
  | cons text program ih =>
    simp only [assemble_cons_eq_ok_iff, ih, List.forall₂_cons_left_iff]
    constructor
    · rintro ⟨ws, rest, htext, ⟨parts, hparts, rfl⟩, rfl⟩
      exact ⟨ws :: parts, ⟨ws, parts, htext, hparts, rfl⟩, rfl⟩
    · rintro ⟨_, ⟨ws, parts, htext, hparts, rfl⟩, rfl⟩
      exact ⟨ws, parts.flatten, htext, ⟨parts, hparts, rfl⟩, rfl⟩

/-- The line that spells a command assembles to its word: its operands are in range (R97). -/
theorem assembleLine_toAsm (n : Nat) (i : Instr) : assembleLine n i.toAsm = .ok (some (encode i)) := by
  rw [assembleLine.eq_def, if_pos (Laws.instr_wf i)]
  cases i <;> simp [Instr.toAsm]

/-- An operand out of its range is an assembly error (R97). -/
theorem assembleLine_setPixel_outOfRange (n : Nat) {index r g b : Nat}
    (h : 65535 < index ∨ 255 < r ∨ 255 < g ∨ 255 < b) :
    assembleLine n (.setPixel index r g b) = .error .operandRange := by
  have hwf : ¬ (AsmLine.setPixel index r g b).wf = true := by
    simp only [AsmLine.wf, Bool.and_eq_true, decide_eq_true_eq]
    omega
  rw [assembleLine.eq_def, if_neg hwf]

/-! The statements. -/

/-- Settles O6: the operand checks decide between the encoding and the error. -/
theorem assemblerEmitsTheEncoding : Obligations.AssemblerEmitsTheEncoding :=
  ⟨assembleLine_toAsm, fun n _ _ _ _ h => assembleLine_setPixel_outOfRange n h, fun _ _ => rfl⟩

/-- Settles O7: a line by the ends of its text, a program by induction on its lines. -/
theorem assemblerReadsTheText : Obligations.AssemblerReadsTheText :=
  ⟨parseLine_text, parseLine_lineEnd, assembleText_text,
    fun n k c => by rw [assembleText, parseLine_lineEnd], assemble_eq_ok_iff⟩

end Sys2Proof.Machine
end

section
/-! The response of an accepted word, the codeword of a colour, and the waveform layout on its way to the wire
(30_encoding.md R96, R101 to R107). -/

namespace Sys2Proof.Machine

/-! The response (R96). -/

/-- The status with which a command completes (R96). -/
def commandStatus (s : State) : Instr → Status
  | .initHw => if s.mapped || s.mapOk then .ok else .fatalEnv
  | .clear => .ok
  | .setPixel idx _ _ _ => if idx.toNat < s.cfg.numLeds then .ok else .indexOutOfRange
  | .showFrame => .ok

/-- resp_ok = 1 exactly with OK (R96). -/
theorem Status.success_iff_code (st : Status) : st.success = true ↔ st.code = 0x00#8 := by cases st <;> decide

theorem runCommand_response (i : Instr) (s : State) :
    (runCommand i s).respStatus = (commandStatus s i).code ∧ (runCommand i s).respOk = (commandStatus s i).success := by
  cases i with
  | initHw =>
    rw [runCommand_initHw, commandStatus]
    by_cases h : s.mapped = true ∨ s.mapOk = true
    · rw [if_pos (by simpa using h), runInitHw_eq h]
      exact ⟨rfl, rfl⟩
    · rw [if_neg (by simpa using h)]
      simp only [not_or, Bool.not_eq_true] at h
      rw [runInitHw_fatal h.1 h.2]
      exact ⟨rfl, rfl⟩
  | clear => exact ⟨rfl, rfl⟩
  | setPixel idx r g b =>
    simp only [runCommand, State.runSetPixel, commandStatus]
    by_cases h : idx.toNat < s.cfg.numLeds
    · rw [if_neg (Nat.not_le.mpr h), if_pos h]
      exact ⟨rfl, rfl⟩
    · rw [if_pos (Nat.le_of_not_lt h), if_neg h]
      exact ⟨rfl, rfl⟩
  | showFrame =>
    rw [runCommand_showFrame, State.runShowFrame_eq_steps]
    exact ⟨rfl, rfl⟩

/-- Settles O13: an accepted word is answered with one status, a command's own or ILLEGAL_COMMAND. -/
theorem responseOfEveryAcceptedWord : Obligations.ResponseOfEveryAcceptedWord := by
  refine ⟨⟨rfl, rfl⟩, fun s w rest hq hh => ?_⟩
  have hf := State.fetch_offer hq hh
  cases hd : decode w with
  | error e => exact ⟨_, step_of_fetch_illegal hf hd, by simp [State.illegalCommand, Status.success_iff_code], rfl⟩
  | ok i =>
    obtain ⟨hstatus, hok⟩ := runCommand_response i { s with host := rest }
    have hrun := exec_of_idle (s := { s with host := rest }) hq i
    refine ⟨_, (step_of_fetch_decode hf hd).trans hrun, ?_, hstatus.trans ?_⟩
    · rw [hstatus, hok, Status.success_iff_code]
    · cases i with
      | initHw => exact apply_ite Status.code _ _ _
      | clear => rfl
      | setPixel idx r g b => exact apply_ite Status.code _ _ _
      | showFrame => rfl

/-! The codeword (R101 to R103, 43_encoder.md R201 to R203). -/

/-- Green, red and blue from the top (R101). -/
theorem grb_fields (c : Color) :
    (grb c).extractLsb' 16 8 = c.g ∧ (grb c).extractLsb' 8 8 = c.r ∧ (grb c).extractLsb' 0 8 = c.b := by
  refine ⟨?_, ?_, ?_⟩ <;>
  · apply BitVec.eq_of_getLsbD_eq
    intro i hi
    simp only [grb, BitVec.getLsbD_extractLsb', BitVec.getLsbD_append]
    interval_cases i <;> simp

/-- A triplet reads 1, the bit, 0 (R102). -/
theorem trip_eq (b : Bool) : trip b = [true, b, false] := by cases b <;> rfl

/-- Bit 3j + u of the codeword is bit u of the triplet of GRB bit 23 - j (R103). -/
theorem code72_triplet (c : Color) {j u : Nat} (hj : j < 24) (hu : u < 3) :
    (code72 c)[3 * j + u]? = (trip ((grb c).getLsbD (23 - j)))[u]? := by
  have hdiv : (3 * j + u) / 3 = j := by omega
  have hmod : (3 * j + u) % 3 = u := by omega
  rw [code72_getElem?, hdiv, hmod, List.getElem?_range hj]
  rfl

theorem code72_drop_take (c : Color) {j : Nat} (hj : j < 24) :
    ((code72 c).drop (3 * j)).take 3 = trip ((grb c).getLsbD (23 - j)) := by
  apply List.ext_getElem?
  intro u
  by_cases hu : u < 3
  · rw [List.getElem?_take_of_lt hu, List.getElem?_drop, code72_triplet c hj hu]
  · rw [List.getElem?_take_eq_none (Nat.le_of_not_lt hu), List.getElem?_eq_none]
    rw [trip_length]
    exact Nat.le_of_not_lt hu

theorem count_true_triplets (f : Nat → Bool) (js : List Nat) :
    (js.flatMap fun j => trip (f j)).count true = js.length + js.countP f := by
  induction js with
  | nil => rfl
  | cons j js ih =>
    have hone : (trip (f j)).count true = 1 + if f j then 1 else 0 := by cases f j <;> rfl
    rw [List.flatMap_cons, List.count_append, ih, hone, List.length_cons, List.countP_cons]
    omega

/-- The codeword has a 1 in every triplet, and one more for each 1 bit of GRB (R203). -/
theorem code72_count (c : Color) :
    (code72 c).count true = 24 + (List.range 24).countP fun j => (grb c).getLsbD j := by
  have hreversed : (List.range 24).map (23 - ·) = (List.range 24).reverse := by decide
  rw [code72, count_true_triplets (fun j => (grb c).getLsbD (23 - j)), List.length_range,
    ← List.countP_reverse (l := List.range 24) (p := fun j => (grb c).getLsbD j), ← hreversed, List.countP_map]
  rfl

/-- Settles O35, from the triplets of the codeword. -/
theorem codewordStructure : Obligations.CodewordStructure := by
  intro c
  obtain ⟨hg, hr, hb⟩ := grb_fields c
  refine ⟨hg, hr, hb, code72_length c, fun j hj => ⟨code72_drop_take c hj, ?_, ?_, ?_⟩, code72_count c⟩
  · exact (code72_triplet c hj (u := 0) (by decide)).trans (by rw [trip_eq]; rfl)
  · exact (code72_triplet c hj (by decide)).trans (by rw [trip_eq]; rfl)
  · exact (code72_triplet c hj (by decide)).trans (by rw [trip_eq]; rfl)

/-! The waveform layout (R105 to R107). -/

theorem bitPos_lsbFirst_val (k : Nat) : (bitPos .lsbFirst k).val = k % 32 := rfl

theorem bitPos_msbFirst_val (k : Nat) : (bitPos .msbFirst k).val = 31 - k % 32 := by
  simp only [bitPos, Fin.val_rev, Fin.val_ofNat]
  omega

/-- Settles O37: reversal turns the shift order into the order of the positions. -/
theorem reversedWordsShiftOutInStreamOrder : Obligations.ReversedWordsShiftOutInStreamOrder := by
  intro o v t ht
  have hmod : t % 32 = t := Nat.mod_eq_of_lt ht
  cases o with
  | lsbFirst =>
    have hback : 31 - (31 - t) = t := by omega
    simp [shiftOrder, List.getElem?_range ht, bitGet, bitPos_lsbFirst_val, hmod, rev32_getLsbD v (j := 31 - t) (by omega),
      hback]
  | msbFirst =>
    simp [shiftOrder, List.getElem?_range ht, bitGet, bitPos_msbFirst_val, hmod, rev32_getLsbD v ht]

/-- Every bit of word w is the position of an offset of that word (R105). -/
theorem exists_offset_of_position (o : PackOrder) (w : Nat) (n : Fin 32) :
    ∃ k, 32 * w ≤ k ∧ k < 32 * w + 32 ∧ wordIndex k = w ∧ bitPos o k = n := by
  refine ⟨32 * w + bitPos o n, by omega, by omega, by rw [wordIndex]; omega, Fin.ext ?_⟩
  cases o with
  | lsbFirst =>
    simp only [bitPos_lsbFirst_val]
    omega
  | msbFirst =>
    simp only [bitPos_msbFirst_val]
    omega

/-- Settles O38: the word and the bit of a position give its offset back, and each has one. -/
theorem streamOffsetsHaveOnePosition : Obligations.StreamOffsetsHaveOnePosition :=
  ⟨fun k => ⟨rfl, bitPos_lsbFirst_val k, bitPos_msbFirst_val k⟩, fun o _ _ => offset_eq_of_position o,
    exists_offset_of_position⟩

end Sys2Proof.Machine
end

section
/-! Register access (40_register_access.md R122 to R135): what the bit helpers, the waveform buffer, the function select, a
register read and the divisor word give. -/

namespace Sys2Proof.Machine

/-! The windows (R122). -/

/-- Settles O15: the three cases of the mapping flag and the draw. -/
theorem establishWindowsCases : Obligations.EstablishWindowsCases := by
  intro s
  refine ⟨fun hmapped => if_pos hmapped, fun _ hok => State.establishWindows_ok (.inr hok), fun hmapped hok => ?_⟩
  exact State.establishWindows_fail hmapped hok

/-! The bit helpers (R125 to R127). -/

/-- BitGet by its formula (R127). -/
theorem bitGet_eq_shiftRight (v : Word) (n : Fin 32) : bitGet v n = ((v >>> n.val) &&& 1#32 == 1#32) := by
  rw [BitVec.and_one_eq_setWidth_ofBool_getLsbD, BitVec.getLsbD_ushiftRight, Nat.add_zero, bitGet]
  cases v.getLsbD n.val <;> rfl

/-- Settles O16, from what a bit of BitSet and of BitClear is. -/
theorem bitHelperLaws : Obligations.BitHelperLaws := by
  refine ⟨bitGet_eq_shiftRight, fun v n => ?set, fun v n => ?clear, fun v n m hne => ⟨?setOther, ?clearOther⟩, rfl⟩
  case set => simp [bitGet_bitSet]
  case clear => simp [bitGet_bitClear]
  case setOther => simp [bitGet_bitSet, hne]
  case clearOther => simp [bitGet_bitClear, hne]

/-! The waveform buffer (R128, R129). -/

/-- An offset below WAVE_BITS lies in a word of the buffer (30_encoding.md R105). -/
theorem State.wordIndex_lt_length {s : State} (hlen : s.wave.length = s.cfg.waveWords) {k : Nat} (hk : k < s.cfg.waveBits) :
    wordIndex k < s.wave.length := by
  rw [hlen, wordIndex]
  rw [Config.waveBits] at hk
  omega

/-- The word that WaveSetBit writes (R128). -/
theorem State.waveWord_waveSetBit {s : State} (hlen : s.wave.length = s.cfg.waveWords) {k : Nat} (hk : k < s.cfg.waveBits) :
    (s.waveSetBit k).waveWord (wordIndex k) = bitSet (s.waveWord (wordIndex k)) (bitPos s.cfg.packOrder k) := by
  have hw := State.wordIndex_lt_length hlen hk
  simp [State.waveSetBit_eq hk, State.waveWord, waveSet, hw]

/-- WaveSetBit sets its own offset and leaves every other one (R129). -/
theorem State.waveGetBit_waveSetBit {s : State} (hlen : s.wave.length = s.cfg.waveWords) {k : Nat}
    (hk : k < s.cfg.waveBits) (m : Nat) : (s.waveSetBit k).waveGetBit m = (s.waveGetBit m || decide (m = k)) := by
  rw [State.waveSetBit_eq hk]
  exact streamBit_waveSet s.cfg.packOrder s.wave (State.wordIndex_lt_length hlen hk) m

/-- Beyond the buffer WaveSetBit records WAVE_OVERRUN and writes nothing (R128). -/
theorem State.waveSetBit_overrun {s : State} {k : Nat} (hk : s.cfg.waveBits ≤ k) :
    s.waveSetBit k = s.recordFault .waveOverrun := if_neg (Nat.not_lt.mpr hk)

/-- Settles O17, on both sides of WAVE_BITS. -/
theorem waveBitRoundTrip : Obligations.WaveBitRoundTrip := by
  intro s k hlen
  refine ⟨fun hk => ⟨rfl, State.waveSetBit_eq hk, fun hlsb h72 hzero => ?example72, ?self, fun m hne => ?other⟩,
    State.waveSetBit_overrun⟩
  case example72 =>
    subst h72
    have hword := State.waveWord_waveSetBit hlen hk
    rw [hlsb] at hword
    exact hword.trans (congrArg (bitSet · (bitPos .lsbFirst 72)) hzero)
  case self => simp [State.waveGetBit_waveSetBit hlen hk]
  case other => simp [State.waveGetBit_waveSetBit hlen hk, hne]

/-! The function select (R130 to R133). -/

/-- Every alternate-function code from 5 up has the value of code 5 (R131). -/
theorem altFsel_of_five_le {a : Nat} (h : 5 ≤ a) : altFsel a = 0b010#3 := by
  rw [altFsel, if_neg (by omega), if_neg (by omega)]

/-- Settles O18: five codes by the table, all others as one case. -/
theorem altFselTable : Obligations.AltFselTable := by
  refine ⟨rfl, rfl, rfl, rfl, rfl, fun _ => altFsel_of_five_le, fun a => ?_⟩
  by_cases h : 5 ≤ a
  · rw [altFsel_of_five_le h]
    decide
  · have hlow : ∀ code < 5, 2 ≤ (altFsel code).toNat ∧ (altFsel code).toNat ≤ 7 := by decide
    exact hlow a (Nat.lt_of_not_le h)

/-- In the reference layout the fields of a GPFSEL register stand three bits apart (R130, 10_state.md R41). -/
theorem fselShift_of_reference {c : Config} (h : c.layout = Layout.reference) (p : Nat) : fselShift c p = 3 * (p % 10) := by
  have hpos : ∀ i : Fin 10, Layout.reference.fselPos[i.val].val = 3 * i.val := by decide
  simp only [fselShift, h]
  exact hpos ⟨p % 10, Nat.mod_lt p (by decide)⟩

/-- Inserting a field keeps the bits below and above it (R133). -/
theorem insertField_getLsbD_outside (v : Word) {sh : Nat} (f : BitVec 3) (h : sh ≤ 29) {n : Nat}
    (hn : n < sh ∨ sh + 3 ≤ n) : (insertField v sh f).getLsbD n = v.getLsbD n := by
  rw [insertField_getLsbD v f n h, if_neg (by omega)]

/-- Settles O19: the word read, and the same word with the field inserted. -/
theorem gpioSetFunctionChangesOneField : Obligations.GpioSetFunctionChangesOneField := by
  intro s p f
  have heq := s.gpioSetFunction_eq p f
  have hsh := fselShift_le s.cfg p
  refine ⟨s.readValue (fselAddr s.cfg p), _, _, rfl, ?frame, insertField_extract _ f hsh,
    fun n hn => insertField_getLsbD_outside _ f hsh hn, fun hlayout hf hp => ?examples⟩
  case frame =>
    have hdraws := congrArg State.draws heq
    rw [hdraws]
    exact heq
  case examples =>
    rw [fselShift_of_reference hlayout, hf, hp]
    exact ⟨fun hv => by rw [hv]; decide, fun hv => by rw [hv]; decide⟩

/-- Settles O20: the same at the pin's register, which is what is read. -/
theorem gpioSetFunctionAtTheTarget : Obligations.GpioSetFunctionAtTheTarget := by
  intro s p f hm href hp
  have hsh := fselShift_le s.cfg p
  have hread := State.readValue_fsel hm href hp
  obtain ⟨hper, hser⟩ := State.gpioSetFunction_sound hm hp f
  have htrace := congrArg State.trace (s.gpioSetFunction_eq p f)
  rw [hread] at hper htrace
  exact ⟨_, hper, hser, htrace, insertField_extract _ f hsh, fun n hn => insertField_getLsbD_outside _ f hsh hn⟩

/-- fselAddr of the reference profile in numbers (R130). -/
theorem fselAddr_referenceProfile (n ts tc d p : Nat) :
    fselAddr (Config.referenceProfile n ts tc d) p = BitVec.ofNat 32 (0x3F200000 + 4 * (p / 10)) := by
  have hbase : windowBase (Config.referenceProfile n ts tc d) .gpio = 0x3F200000 :=
    calc
      _ = 0x3F000000 + 0x00200000 := rfl
      _ = 0x3F200000 := rfl
  have hoffset : 0x00 + 4 * (p / 10) = 4 * (p / 10) := Nat.zero_add _
  rw [fselAddr, hbase]
  exact congrArg (fun offset => BitVec.ofNat 32 (0x3F200000 + offset)) hoffset

/-- Settles O24: the OPEN parameters enter neither the register map nor the mask. -/
theorem referenceLayoutFormulas : Obligations.ReferenceLayoutFormulas := by
  intro n ts tc d p
  have hsound : soundMap (Config.referenceProfile 0 0 0 0) = true := by decide +kernel
  have hmask : staErrorMask (Config.referenceProfile n ts tc d) = 0x000001FC#32 :=
    (by decide : staErrorMask (Config.referenceProfile 0 0 0 0) = 0x000001FC#32)
  refine ⟨hsound, fselAddr_referenceProfile n ts tc d p, fselShift_of_reference rfl p, hmask, ?_⟩
  rw [hmask]
  rfl

/-! Reads (R123). -/

/-- On the reference platform a read returns what the register holds and is recorded, and nothing else (R123). -/
theorem State.memRead_regAddr {s : State} (hm : soundMap s.cfg = true) (href : s.reference = true) {r : Reg} {w : Word}
    (hw : s.regWord r = some w) :
    s.memRead (regAddr s.cfg r) = (w, { s with trace := s.trace ++ [.rd (regAddr s.cfg r) w] }) := by
  have hstored := (State.storedWord_regAddr hm href r).trans hw
  simp [State.memRead, State.readValue, State.readsStored, hstored, State.record]

/-- FIF1 alone holds no word (10_state.md R46). -/
theorem State.regWord_eq_none_iff (s : State) (r : Reg) : s.regWord r = none ↔ r = .pwmFif1 := by
  cases r <;> simp [State.regWord]

/-- A read after a write gives what the register holds after it (20_memory.md R78). -/
theorem State.memRead_memWrite {s : State} (hm : soundMap s.cfg = true) (href : s.reference = true) {r : Reg} {v w : Word}
    (hw : (s.memWrite (regAddr s.cfg r) v).regWord r = some w) :
    ((s.memWrite (regAddr s.cfg r) v).memRead (regAddr s.cfg r)).1 = w :=
  congrArg Prod.fst (State.memRead_regAddr (s := s.memWrite (regAddr s.cfg r) v) hm href hw)

/-- Settles O23: a read finds the register, and a write before it has set the register. -/
theorem readsReturnWhatTheRegisterHolds : Obligations.ReadsReturnWhatTheRegisterHolds := by
  intro s hm href
  have hper (r : Reg) (v : Word) := State.memWrite_regAddr_per hm r v
  refine ⟨fun r w => State.memRead_regAddr hm href, s.regWord_eq_none_iff, fun v => ⟨fun r hr => ?stored, ?ctl⟩⟩
  case stored =>
    apply State.memRead_memWrite hm href
    obtain rfl | rfl | ⟨n, rfl⟩ := hr
    · rw [State.regWord, hper]; rfl
    · rw [State.regWord, hper]; rfl
    · rw [State.regWord, hper]; simp [Peripherals.write]
  case ctl =>
    apply State.memRead_memWrite hm href
    rw [State.regWord, hper]; rfl

/-! The divisor word (R134, R135). -/

/-- Of two 12-bit fields that lie apart below the password, the first reads back (10_state.md R48). -/
theorem cmWord_extract_field (c : Config) (x y : BitVec 12) {i j : Nat} (hi : i ≤ 12) (hapart : i + 12 ≤ j ∨ j + 12 ≤ i) :
    (cmWord c (x.zeroExtend 24 <<< i ||| y.zeroExtend 24 <<< j)).extractLsb' i 12 = x := by
  apply BitVec.eq_of_getLsbD_eq
  intro n hn
  rw [BitVec.getLsbD_extractLsb', cmWord_getLsbD _ _ (by omega)]
  have hother : (y.zeroExtend 24 <<< j).getLsbD (i + n) = false := by
    rw [BitVec.getLsbD_shiftLeft]
    rcases hapart with habove | hbelow
    · simp [show i + n < j by omega]
    · simp [BitVec.getLsbD_of_ge y (i + n - j) (by omega)]
  rw [BitVec.getLsbD_or, hother]
  simp [hn, show i + n < 24 by omega]

/-- Settles O25: the password on top, each field below it, and the two worked values. -/
theorem divisorWordFields : Obligations.DivisorWordFields := by
  have hwhole : cmDivWord (Config.referenceProfile 0 0 0 0) = 0x5A008000#32 := by decide
  have hfraction : cmDivWord { Config.referenceProfile 0 0 0 0 with fBit := 2500000 } = 0x5A0072B8#32 := by decide
  refine ⟨fun c => beq_iff_eq.mp (passwordOk_cmWord c _), fun c hm => ⟨fun _ hmax => ?integer, fun hmax => ?fraction⟩,
    fun _ _ _ _ => hwhole, fun _ _ _ _ => hfraction⟩
  case integer =>
    rw [cmDivWord, cmWord_extract_field c _ _ (by omega) (soundMap_divisor hm), BitVec.toNat_ofNat]
    exact Nat.mod_eq_of_lt (Nat.lt_succ_of_le hmax)
  case fraction =>
    rw [cmDivWord, BitVec.or_comm, cmWord_extract_field c _ _ (by omega) (soundMap_divisor hm).symm, BitVec.toNat_ofNat]
    exact Nat.mod_eq_of_lt (Nat.lt_succ_of_le hmax)

end Sys2Proof.Machine
end

section
/-! INIT_HW as a whole (41_init_hw.md R150 to R163): its ten steps, what they leave at the target, a second run, and its
trace in numbers. -/

namespace Sys2Proof.Machine

/-! The engine's own fields. -/

theorem exec_initHw_of_idle {s : State} (h : s.seq = .idle) : exec .initHw s = .next s.runInitHw :=
  exec_of_idle h .initHw

/-- Settles O27: the ten steps as one record update. -/
theorem initHwRunsTheTenSteps : Obligations.InitHwRunsTheTenSteps := by
  intro s hq hmap
  have heq := runInitHw_eq hmap
  have hdraws : s.runInitHw.draws = initHwDraws s := congrArg State.draws heq
  refine ⟨s.runInitHw, exec_initHw_of_idle hq, ?_⟩
  rw [hdraws]
  exact heq

/-- With no frame pending INIT_HW records no fault (R150, 70_reset_and_hazards.md R301). -/
theorem runInitHw_faults {s : State} (hmap : s.mapped = true ∨ s.mapOk = true) (hpend : s.ser.framePending = false) :
    s.runInitHw.faults = s.faults := by
  rw [runInitHw_eq hmap]
  simp [overlapFaults, hpend]

/-! The target after INIT_HW (R152 to R160), and after a second one (R163). -/

/-- The pin's field written twice is written once (R152, 40_register_access.md R133). -/
theorem fselWritten_twice (c : Config) (v : Word) : fselWritten c (fselWritten c v) = fselWritten c v :=
  insertField_twice v _ (fselShift_le _ _)

/-- CM_RUN starts the clock, so BUSY reads 1 (R156, 10_state.md R47; log entry 15). -/
theorem cmCtlWritten_cmRunWord {c : Config} (hm : soundMap c = true) :
    cmCtlWritten c (cmRunWord c) = cmRunWord c ||| busyMask c := if_pos (clockRuns_cmRunWord hm)

/-- What a mask has cleared reads 0 under it (R159). -/
theorem and_not_and_mask (v m e : Word) : v &&& ~~~(m &&& e) &&& m &&& e = 0#32 := by
  rw [BitVec.and_assoc _ m e, BitVec.and_assoc v, BitVec.not_and_self]
  exact BitVec.and_zero

section
variable {s : State} (hmap : s.mapped = true ∨ s.mapOk = true) (hm : soundMap s.cfg = true) (hp : s.cfg.pin / 10 ≤ 5)
include hmap hm hp

/-- INIT_HW writes no function-select register but the pin's (R152). -/
theorem runInitHw_gpfsel_other {n : Fin 6} (hn : n.val ≠ s.cfg.pin / 10) :
    s.runInitHw.per.gpfsel[n] = s.per.gpfsel[n] := by
  rw [(runInitHw_target hmap hm hp).1]
  exact Vector.getElem_set_ne (by omega) n.isLt hn.symm

/-- On the reference platform the pin's register keeps its contents but for the pin's field (R152, 40_register_access.md
R133). -/
theorem runInitHw_gpfsel_pin (href : s.reference = true) :
    s.runInitHw.per.gpfsel[s.cfg.pin / 10] = fselWritten s.cfg s.per.gpfsel[s.cfg.pin / 10] := by
  simp only [(runInitHw_target hmap hm hp).1]
  rw [Vector.getElem_set_self, State.readValue_fsel hm href hp]

/-- INIT_HW leaves the serializer alone where there is nothing to cut (70_reset_and_hazards.md R301). -/
theorem runInitHw_ser_of_undisturbed (hu : s.undisturbed = true) : s.runInitHw.ser = s.ser := by
  rw [(runInitHw_target hmap hm hp).2, if_pos hu]

/-- INIT_HW never makes a frame pending (10_state.md R50). -/
theorem runInitHw_framePending (hpend : s.ser.framePending = false) : s.runInitHw.ser.framePending = false := by
  rw [(runInitHw_target hmap hm hp).2]
  split
  · exact hpend
  · simp [Serializer.runFree, hpend]

/-- On the reference platform with no frame pending, INIT_HW leaves nothing for the next command to cut (R162). -/
theorem runInitHw_undisturbed (href : s.reference = true) (hpend : s.ser.framePending = false) :
    s.runInitHw.undisturbed = true := by
  have hwire : s.runInitHw.wireDefined = true := by
    rw [runInitHw_eq hmap]
    simp [State.wireDefined, href, hm]
  simp [State.undisturbed, hwire, runInitHw_framePending hmap hm hp hpend]

/-- INIT_HW finds its own configuration and writes it again (R163). -/
theorem runInitHw_twice_target (href : s.reference = true) (hpend : s.ser.framePending = false) :
    s.runInitHw.runInitHw.per = s.runInitHw.per ∧ s.runInitHw.runInitHw.ser = s.runInitHw.ser := by
  obtain ⟨hper, -⟩ := runInitHw_target hmap hm hp
  have hpin := runInitHw_gpfsel_pin hmap hm hp href
  have hu := runInitHw_undisturbed hmap hm hp href hpend
  have hmapped : s.runInitHw.mapped = true := by rw [runInitHw_eq hmap]
  have href' : s.runInitHw.reference = true := by rw [runInitHw_eq hmap]; exact href
  have hcfg : s.runInitHw.cfg = s.cfg := by rw [runInitHw_eq hmap]
  generalize s.runInitHw = t at *
  have hm' : soundMap t.cfg = true := hcfg ▸ hm
  have hp' : t.cfg.pin / 10 ≤ 5 := hcfg ▸ hp
  refine ⟨?_, runInitHw_ser_of_undisturbed (.inl hmapped) hm' hp' hu⟩
  have hfsel : t.per.gpfsel.set (t.cfg.pin / 10) (fselWritten t.cfg (t.readValue (fselAddr t.cfg t.cfg.pin))) =
      t.per.gpfsel := by
    rw [State.readValue_fsel hm' href' hp']
    simp only [hcfg]
    rw [hpin, fselWritten_twice, ← hpin, Vector.set_getElem_self]
  rw [(runInitHw_target (.inl hmapped) hm' hp').1, hfsel, if_pos hu, hcfg, hper]
  simp [BitVec.and_assoc]

end

/-- Settles O28: each clause is one field of what INIT_HW leaves at the target on a sound map. -/
theorem initHwConfiguresThePeripherals : Obligations.InitHwConfiguresThePeripherals := by
  intro s hq hmap helab hm
  obtain ⟨-, -, hp, -⟩ := elaborates_parts helab
  obtain ⟨hper, -⟩ := runInitHw_target hmap hm hp
  have hdone : s.runInitHw.initDone = true := by rw [runInitHw_eq hmap]
  obtain ⟨-, -, -, -, -, -, hrouted⟩ := runInitHw_configured hmap hm hp hdone
  refine ⟨s.runInitHw, exec_initHw_of_idle hq, by rw [hper], by rw [hper]; rfl, by rw [hper], by rw [hper], ?clock, ?sta,
    hrouted, fun n hn => runInitHw_gpfsel_other hmap hm hp hn, fun href n hn bit hbit => ?pinRegister, fun hw hpend => ?wire⟩
  case clock =>
    rw [hper]
    exact cmCtlWritten_cmRunWord hm
  case sta =>
    rw [hper]
    exact and_not_and_mask _ _ _
  case pinRegister =>
    obtain ⟨n, hlt⟩ := n
    subst hn
    refine (congrArg (·.getLsbD bit) (runInitHw_gpfsel_pin hmap hm hp href)).trans ?_
    exact insertField_getLsbD_outside _ _ (fselShift_le _ _) hbit
  case wire =>
    exact runInitHw_ser_of_undisturbed hmap hm hp (by simp [State.undisturbed, hw, hpend])

/-- Settles O29: the first run leaves a state on which the second has nothing to change. -/
theorem secondInitHwSameConfiguration : Obligations.SecondInitHwSameConfiguration := by
  intro s hq hmap helab hm href hpend
  obtain ⟨-, -, hp, -⟩ := elaborates_parts helab
  obtain ⟨hper, hser⟩ := runInitHw_twice_target hmap hm hp href hpend
  have hpend' := runInitHw_framePending hmap hm hp hpend
  have hq' : s.runInitHw.seq = .idle := by rw [runInitHw_eq hmap]
  have hmap' : s.runInitHw.mapped = true ∨ s.runInitHw.mapOk = true := .inl (by rw [runInitHw_eq hmap])
  have heq := runInitHw_eq hmap'
  have hfaults := (runInitHw_faults hmap' hpend').trans (runInitHw_faults hmap hpend)
  exact ⟨_, _, exec_initHw_of_idle hq, exec_initHw_of_idle hq', hper, hser, by rw [heq], by rw [heq], hfaults⟩

/-! The traces in numbers (95_test_vectors.md L2.7, L2.8). -/

/-- The register addresses of L2.7 and L2.8 (10_state.md R41 to R48). -/
def ReferenceAddresses (c : Config) : Prop :=
  fselAddr c c.pin = 0x3F200004#32 ∧ regAddr c .cmPwmctl = 0x3F1010A0#32 ∧ regAddr c .cmPwmdiv = 0x3F1010A4#32 ∧
    regAddr c .pwmCtl = 0x3F20C000#32 ∧ regAddr c .pwmSta = 0x3F20C004#32 ∧ regAddr c .pwmDmac = 0x3F20C008#32 ∧
    regAddr c .pwmRng1 = 0x3F20C010#32 ∧ regAddr c .pwmFif1 = 0x3F20C018#32

/-- The words of L2.7 and L2.8 that the configuration fixes (10_state.md R43, R49). -/
def ReferenceWords (c : Config) : Prop :=
  fselWritten c 0x00000000#32 = 0x02000000#32 ∧ cmKillWord c = 0x5A000020#32 ∧ cmDivWord c = 0x5A008000#32 ∧
    cmRunWord c = 0x5A000011#32 ∧ ctlCfg c = 0x00000022#32 ∧ ctlClrf c = 0x00000062#32 ∧ ctlRun c = 0x00000023#32

/-- No OPEN parameter enters an address. -/
theorem referenceAddresses_referenceProfile (n ts tc d : Nat) :
    ReferenceAddresses (Config.referenceProfile n ts tc d) := by
  change ReferenceAddresses (Config.referenceProfile 0 0 0 0)
  unfold ReferenceAddresses
  decide

/-- No OPEN parameter enters a word. -/
theorem referenceWords_referenceProfile (n ts tc d : Nat) : ReferenceWords (Config.referenceProfile n ts tc d) := by
  change ReferenceWords (Config.referenceProfile 0 0 0 0)
  unfold ReferenceWords
  decide

/-- Settles O30: the two lists with every address and word as its number. -/
theorem referenceProfileTraces : Obligations.ReferenceProfileTraces := by
  intro n ts tc d c
  obtain ⟨hfsel, hcmCtl, hcmDiv, hctl, hsta, hdmac, hrng1, hfif1⟩ := referenceAddresses_referenceProfile n ts tc d
  obtain ⟨hwritten, hkill, hdiv, hrun, hcfg, hclrf, henable⟩ := referenceWords_referenceProfile n ts tc d
  have hrev : rev32 0xDB249249#32 = 0x924924DB#32 := by decide +kernel
  refine ⟨?_, ?_⟩
  · rw [initHwTrace, hfsel, hcmCtl, hcmDiv, hctl, hsta, hdmac, hrng1, hwritten, hkill, hdiv, hrun, hcfg]
    rfl
  · rw [showFrameTrace, hctl, hfif1, hcfg, hclrf, henable, List.flatMap_singleton, hrev]
    rfl

end Sys2Proof.Machine
end

section
/-! CLEAR and SET_PIXEL (42_pixel_buffer.md R180 to R185): what each does to the state, and what a SHOW makes of one slot
written. -/

namespace Sys2Proof.Machine

/-! The two commands from IDLE. -/

/-- In range, SET_PIXEL writes its slot and answers OK (R181). -/
theorem State.runSetPixel_inRange {s : State} {idx : BitVec 16} (h : idx.toNat < s.cfg.numLeds) (c : Color) :
    s.runSetPixel idx c = (s.setLed idx.toNat c).complete .ok := if_neg (Nat.not_le.mpr h)

/-- Out of range, SET_PIXEL is a recoverable error (R182, 60_exceptions.md R263). -/
theorem State.runSetPixel_outOfRange {s : State} {idx : BitVec 16} (h : s.cfg.numLeds ≤ idx.toNat) (c : Color) :
    s.runSetPixel idx c = s.raiseRecoverable .indexOutOfRange .indexOutOfRange idx := if_pos h

theorem State.led_runSetPixel {s : State} {idx : BitVec 16} (h : idx.toNat < s.cfg.numLeds) (c : Color) :
    (s.runSetPixel idx c).led = s.led.set idx.toNat c := congrArg State.led (State.runSetPixel_inRange h c)

theorem State.seq_runSetPixel {s : State} {idx : BitVec 16} (h : idx.toNat < s.cfg.numLeds) (c : Color) :
    (s.runSetPixel idx c).seq = .idle := congrArg State.seq (State.runSetPixel_inRange h c)

/-- Settles O31: CLEAR is one record update. -/
theorem clearBlackensEverySlot : Obligations.ClearBlackensEverySlot :=
  ⟨by decide, fun _ hq => exec_of_idle hq .clear⟩

/-- Settles O32, on both sides of NUM_LEDS. -/
theorem setPixelWritesOrRefuses : Obligations.SetPixelWritesOrRefuses := by
  refine ⟨fun _ _ _ _ => rfl, fun s idx r g b hq hidx => ?inRange, fun s idx r g b hq hidx => ?outOfRange⟩
  case inRange =>
    rw [exec_of_idle hq, runCommand, State.runSetPixel_inRange hidx]
    rfl
  case outOfRange =>
    rw [exec_of_idle hq, runCommand, State.runSetPixel_outOfRange hidx]
    rfl

/-- Settles O33: the update of O31, or of O32 on the side of NUM_LEDS where the index lies, leaves `seq` at IDLE, where it was. -/
theorem pixelCommandsAreWriteBehind : Obligations.PixelCommandsAreWriteBehind := by
  intro s i hq hi
  obtain ⟨-, hclear⟩ := clearBlackensEverySlot
  obtain ⟨-, hwrite, hrefuse⟩ := setPixelWritesOrRefuses
  obtain rfl | ⟨idx, r, g, b, rfl⟩ := hi
  · exact ⟨_, hclear s hq, by rw [← hq]⟩
  · obtain hidx | hidx := Nat.lt_or_ge idx.toNat s.cfg.numLeds
    · exact ⟨_, hwrite s idx r g b hq hidx, by rw [← hq]⟩
    · exact ⟨_, hrefuse s idx r g b hq hidx, by rw [← hq]⟩

/-! What SHOW makes of one slot (R185). -/

/-- After SHOW the waveform buffer reads as the frame of the LED buffer (43_encoder.md R207). -/
theorem State.Sized.waveGetBit_runShowFrame {s : State} (h : s.Sized) (k : Nat) :
    s.runShowFrame.waveGetBit k = (frame s.cfg s.led).getD k false := by
  rw [runShowFrame_eq h]
  exact streamBit_encodedWave h.1 (Sized_capacity h) k

/-- Writing one slot replaces the 72 bits of its codeword in the frame and no other bit. -/
theorem frame_set_bit (c : Config) {led : List Color} {i : Nat} (hi : i < led.length) (x : Color) (k : Nat) :
    (frame c (led.set i x)).getD k false =
      if k / 72 = i then (code72 x).getD (k % 72) false else (frame c led).getD k false := by
  rw [frame_bit, frame_bit]
  by_cases hk : k / 72 = i
  · rw [if_pos hk, hk, List.getElem?_set_self hi]
  · rw [if_neg hk, List.getElem?_set_ne (Ne.symm hk)]

theorem State.Sized.runSetPixel {s : State} (h : s.Sized) {idx : BitVec 16} (hidx : idx.toNat < s.cfg.numLeds) (c : Color) :
    (s.runSetPixel idx c).Sized := by
  rw [State.runSetPixel_inRange hidx]
  exact ⟨List.length_set.trans h.1, h.2⟩

/-- A SHOW after an in-range SET_PIXEL: the codeword of its colour at its slot, elsewhere what a SHOW without it gives. -/
theorem State.Sized.waveGetBit_setPixel_showFrame {s : State} (h : s.Sized) {idx : BitVec 16}
    (hidx : idx.toNat < s.cfg.numLeds) (c : Color) (k : Nat) :
    (s.runSetPixel idx c).runShowFrame.waveGetBit k =
      if k / 72 = idx.toNat then (code72 c).getD (k % 72) false else s.runShowFrame.waveGetBit k := by
  rw [(h.runSetPixel hidx c).waveGetBit_runShowFrame, h.waveGetBit_runShowFrame, State.runSetPixel_inRange hidx]
  exact frame_set_bit s.cfg (h.1 ▸ hidx) c k

/-- Settles O34: out of range the LED buffer stands; in range one slot is written, and SHOW encodes each slot at its own 72
offsets. -/
theorem setPixelChangesOneCodeword : Obligations.SetPixelChangesOneCodeword := by
  intro s idx r g b hq hsized
  refine ⟨fun hidx => ?outOfRange, fun hidx => ?inRange⟩
  case outOfRange =>
    obtain ⟨-, -, hrefuse⟩ := setPixelWritesOrRefuses
    exact ⟨_, hrefuse s idx r g b hq hidx, rfl⟩
  case inRange =>
    have hbit := hsized.waveGetBit_setPixel_showFrame hidx { r := r, g := g, b := b }
    refine ⟨s.runSetPixel idx { r := r, g := g, b := b }, _, _, exec_of_idle hq _,
      exec_of_idle (State.seq_runSetPixel hidx _) .showFrame, exec_of_idle hq .showFrame, ?slot, fun j hj => ?otherSlots,
      fun k hk => ?codeword, fun k _ hk => ?otherBits⟩
    case slot => rw [State.led_runSetPixel hidx, List.getElem?_set_self (hsized.1 ▸ hidx)]
    case otherSlots => rw [State.led_runSetPixel hidx, List.getElem?_set_ne (Ne.symm hj)]
    case codeword =>
      have hdiv : (72 * idx.toNat + k) / 72 = idx.toNat := by omega
      have hmod : (72 * idx.toNat + k) % 72 = k := by omega
      exact (hbit _).trans (by rw [if_pos hdiv, hmod])
    case otherBits => exact (hbit k).trans (if_neg hk)

end Sys2Proof.Machine
end

section
/-! The encoder (43_encoder.md R209, R211, R212): bit reversal, what the rendered words depend on, and the cleared chain. -/

namespace Sys2Proof.Machine

/-! Bit reversal (R209). -/

theorem rev32_rev32 (v : Word) : rev32 (rev32 v) = v := by
  apply BitVec.eq_of_getLsbD_eq
  intro j hj
  have hback : 31 - (31 - j) = j := by omega
  rw [rev32_getLsbD _ hj, rev32_getLsbD _ (by omega), hback]

/-- Settles O36: the bit law, the law twice, and the examples by evaluation. -/
theorem bitReversalLaws : Obligations.BitReversalLaws :=
  ⟨fun v _ => rev32_getLsbD v, rev32_rev32, by decide +kernel, by decide +kernel, by decide +kernel, by decide +kernel⟩

/-! The words a SHOW leaves (R211). -/

theorem State.Sized.wave_runShowFrame {s : State} (h : s.Sized) : s.runShowFrame.wave = encodedWave s.cfg s.led :=
  congrArg State.wave (runShowFrame_eq h)

theorem runShowFrame_cfg (s : State) : s.runShowFrame.cfg = s.cfg := (runCommand_grows .showFrame s).cfg

theorem State.Sized.seq_runShowFrame {s : State} (h : s.Sized) : s.runShowFrame.seq = .idle :=
  congrArg State.seq (runShowFrame_eq h)

theorem State.Sized.runShowFrame {s : State} (h : s.Sized) : s.runShowFrame.Sized := by
  have ⟨hled, _, helaborates⟩ := h
  rw [State.Sized, runShowFrame_led, h.wave_runShowFrame, runShowFrame_cfg]
  exact ⟨hled, encodedWave_length s.cfg s.led, helaborates⟩

/-- Settles O41: the words are `encodedWave` of the configuration and the LED buffer, and SHOW keeps both. -/
theorem renderDependsOnLedsAlone : Obligations.RenderDependsOnLedsAlone := by
  intro s t hs ht hsizedS hsizedT hcfg hled
  refine ⟨_, _, _, exec_of_idle hs .showFrame, exec_of_idle ht .showFrame, ?sameWords,
    exec_of_idle hsizedS.seq_runShowFrame .showFrame, ?repeated⟩
  case sameWords =>
    rw [runCommand_showFrame, runCommand_showFrame, hsizedS.wave_runShowFrame, hsizedT.wave_runShowFrame, hcfg, hled]
  case repeated =>
    rw [runCommand_showFrame, runCommand_showFrame, hsizedS.runShowFrame.wave_runShowFrame, hsizedS.wave_runShowFrame,
      runShowFrame_cfg, runShowFrame_led]

/-! The cleared chain (R212). -/

theorem grb_black : grb Color.black = 0#24 := by decide

/-- A black LED is 24 triplets `100` (R102, R103). -/
theorem code72_black_bit {n : Nat} (hn : n < 72) : (code72 Color.black).getD n false = decide (n % 3 = 0) := by
  have hsplit : 3 * (n / 3) + n % 3 = n := Nat.div_add_mod n 3
  have hzero : (grb Color.black).getLsbD (23 - n / 3) = false := by rw [grb_black, BitVec.getLsbD_zero]
  have htriplet := code72_triplet Color.black (j := n / 3) (u := n % 3) (by omega) (Nat.mod_lt n (by decide))
  rw [hsplit, hzero, trip_eq] at htriplet
  rw [List.getD, htriplet]
  obtain hu | hu | hu : n % 3 = 0 ∨ n % 3 = 1 ∨ n % 3 = 2 := by omega
  all_goals rw [hu]; rfl

/-- The frame of n black LEDs: a 1 at every third offset of the chain, 0 past it. -/
theorem frame_black_bit (c : Config) (n k : Nat) :
    (frame c (List.replicate n Color.black)).getD k false = (decide (k < 72 * n) && decide (k % 3 = 0)) := by
  rw [frame_bit]
  by_cases hk : k < 72 * n
  · have hled : k / 72 < n := by omega
    have hmod : k % 72 % 3 = k % 3 := by omega
    rw [List.getElem?_replicate_of_lt hled]
    simp only [code72_black_bit (Nat.mod_lt k (by decide : 0 < 72)), hmod, hk, decide_true, Bool.true_and]
  · have hled : n ≤ k / 72 := by omega
    rw [List.getElem?_eq_none (by rwa [List.length_replicate])]
    simp [hk]

theorem State.Sized.runClear {s : State} (h : s.Sized) : s.runClear.Sized := ⟨List.length_replicate, h.2⟩

/-- A SHOW after CLEAR encodes a black chain. -/
theorem State.Sized.waveGetBit_clear_showFrame {s : State} (h : s.Sized) (k : Nat) :
    s.runClear.runShowFrame.waveGetBit k = (decide (k < 72 * s.cfg.numLeds) && decide (k % 3 = 0)) :=
  (h.runClear.waveGetBit_runShowFrame k).trans (frame_black_bit s.cfg s.cfg.numLeds k)

/-- Settles O42: the frame of the black chain; with an LED in the chain, offset 0 lies in the buffer and holds a 1. -/
theorem clearedChainIsNotAllZero : Obligations.ClearedChainIsNotAllZero := by
  intro s hq hsized
  have hbit := hsized.waveGetBit_clear_showFrame
  refine ⟨s.runClear, s.runClear.runShowFrame, exec_of_idle hq .clear, exec_of_idle rfl .showFrame, fun k _ => hbit k,
    fun hzero => ?empty, fun hempty k _ => ?allZero⟩
  case empty =>
    by_contra hn
    have hfits : 72 * s.cfg.numLeds ≤ s.cfg.waveBits := Sized_capacity hsized
    have hone : s.runClear.runShowFrame.waveGetBit 0 = true := by
      rw [hbit, decide_eq_true (by omega : 0 < 72 * s.cfg.numLeds)]
      rfl
    exact Bool.false_ne_true ((hzero 0 (by omega)).symm.trans hone)
  case allZero => rw [hbit, hempty]; simp

end Sys2Proof.Machine
end

section
/-! SHOW and the wire (44_show.md R230 to R241): what SHOW leaves in the engine and at the target, one bit period of the
serializer, the low line between two frames, and the frame as the wire carries it. -/

namespace Sys2Proof.Machine

/-! SHOW from IDLE (R230 to R237). -/

/-- The last step of SHOW marks the frame pending, whatever the map (R236). -/
theorem runShowFrame_framePending (s : State) : s.runShowFrame.ser.framePending = true := by
  rw [State.runShowFrame_eq_steps]
  rfl

/-- Settles O39: the six steps as one record update, with the encoded buffer as its waveform words. -/
theorem showEncodesAndTransmits : Obligations.ShowEncodesAndTransmits := by
  intro s hq hsized
  have heq := runShowFrame_eq hsized
  have hwave := hsized.wave_runShowFrame
  have hdraws : s.runShowFrame.draws = drawsAfterCut s + 1 := congrArg State.draws heq
  refine ⟨s.runShowFrame, exec_of_idle hq .showFrame, ?update, ?length, fun k _ => hsized.waveGetBit_runShowFrame k,
    runShowFrame_framePending s⟩
  case update =>
    rw [hwave, hdraws]
    exact heq
  case length => rw [hwave, encodedWave_length]

/-- The serializer after a SHOW that cuts no frame: the reversed words, and the wire as it was (R235 to R237). -/
theorem State.Sized.ser_runShowFrame {s : State} (h : s.Sized) (hm : soundMap s.cfg = true) (hw : s.wireDefined = true)
    (hpend : s.ser.framePending = false) :
    s.runShowFrame.ser =
      { fifo := (encodedWave s.cfg s.led).map rev32, shift := [], framePending := true, wire := s.ser.wire } := by
  have hu : s.undisturbed = true := by rw [State.undisturbed, hw, hpend]; rfl
  rw [(runShowFrame_target h hm).2, if_pos hu]

/-- Settles O40: what SHOW leaves at the target, and with no frame cut the wire stays. -/
theorem showHandsTheFrameToTheFifo : Obligations.ShowHandsTheFrameToTheFifo := by
  intro s hq hsized hm
  obtain ⟨hper, hser⟩ := runShowFrame_target hsized hm
  refine ⟨s.runShowFrame, exec_of_idle hq .showFrame, ?registers, ?fifo, ?shift, runShowFrame_framePending s,
    fun hw hpend => ?wire⟩
  case registers => rw [hper]
  case fifo => rw [hser, hsized.wave_runShowFrame]
  case shift => rw [hser]
  case wire => rw [hsized.ser_runShowFrame hm hw hpend]

/-! One bit period (R238, 60_exceptions.md R278). -/

/-- At rest with no host move, the step is the serializer's move alone. -/
theorem step_of_no_move {s : State} (hrest : s.AtRest) (hhost : s.host = []) : step s = .next s.serializerTick := by
  have hnone : ∀ m rest, s.host ≠ m :: rest := fun m rest hh => List.cons_ne_nil m rest (hh.symm.trans hhost)
  rw [step_atRest hrest fun w rest hh => absurd hh (hnone _ rest), State.hostWaits_of_no_wait fun rest => hnone _ rest]

/-- No bit remains exactly when the FIFO is empty and no word is half shifted. -/
theorem Serializer.remaining_eq_nil_iff (o : PackOrder) (z : Serializer) :
    z.remaining o = [] ↔ z.fifo = [] ∧ z.shift = [] := by
  rw [← z.drained_iff o, Serializer.drained, Bool.and_eq_true, List.isEmpty_iff, List.isEmpty_iff]

/-- After a stop the line is low (R278(e)). -/
theorem State.outputLevel_of_low {s : State} (h : s.ser.wire.getLast? = some .low) : s.outputLevel = false := by
  rw [State.outputLevel, h, Bool.and_false]

/-- While the channel runs, the line has the level of the last bit (R278(c), (d)). -/
theorem State.outputLevel_of_bit {s : State} {b : Bool} (hrun : s.channelRuns = true)
    (h : s.ser.wire.getLast? = some (.bit b)) : s.outputLevel = b := by
  have hon : bitGet s.per.ctl s.cfg.layout.pwen1 = true := ((Bool.and_eq_true _ _).mp hrun).1
  rw [State.outputLevel, h, hon, Bool.true_and]

/-- A pending frame whose emission is defined: at rest with no host move, the channel runs in the mode of R278. -/
structure State.Emitting (s : State) : Prop where
  idle : s.seq = .idle
  noMove : s.host = []
  defined : s.wireDefined = true
  pending : s.ser.framePending = true
  runs : s.channelRuns = true
  mode : s.serializerMode = true

/-- The step of a defined emission emits one bit period. -/
theorem State.Emitting.step {s : State} (h : s.Emitting) : step s = .next s.wireEmit := by
  rw [step_of_no_move (.inl h.idle) h.noMove, State.serializerTick_emits h.defined h.pending h.runs h.mode]

/-- Emission goes on as long as the frame is pending: a bit period touches none of its other premises. -/
theorem State.Emitting.wireEmit {s : State} (h : s.Emitting) (hpend : s.wireEmit.ser.framePending = true) :
    s.wireEmit.Emitting :=
  ⟨h.idle, h.noMove, h.defined, hpend, h.runs, h.mode⟩

/-- Settles O45, by what remains: one bit and more, the last bit, or none. -/
theorem serializerEmitsTheNextBit : Obligations.SerializerEmitsTheNextBit := by
  intro s hq hhost hw hpend hrun hmode
  have hemit : s.Emitting := ⟨hq, hhost, hw, hpend, hrun, hmode⟩
  obtain ⟨hbits, hnone⟩ := s.ser.emitBit_remaining s.cfg.packOrder
  refine ⟨s.wireEmit, hemit.step, ?_⟩
  rw [State.wireEmit_ser]
  split
  next b c rest hrem =>
    obtain ⟨hwire, hrest, hp⟩ := hbits b (c :: rest) hrem
    refine ⟨hwire, State.outputLevel_of_bit hrun ?_, hrest, hp.trans (by rw [hpend]; rfl)⟩
    rw [State.wireEmit_ser, hwire]
    exact List.getLast?_concat
  next b hrem =>
    obtain ⟨hwire, hrest, hp⟩ := hbits b [] hrem
    refine ⟨hwire, State.outputLevel_of_low ?_, hp.trans (Bool.and_false _), (Serializer.remaining_eq_nil_iff _ _).mp hrest⟩
    rw [State.wireEmit_ser, hwire]
    simp
  next hrem =>
    have hz := hnone hrem
    refine ⟨congrArg Serializer.wire hz, State.outputLevel_of_low ?_, congrArg Serializer.framePending hz, ?_⟩
    · rw [State.wireEmit_ser, hz]
      exact List.getLast?_concat
    · rw [hz]
      exact (Serializer.remaining_eq_nil_iff _ _).mp hrem

/-! Between two frames (R238, R239). -/

/-- A state that a step leaves as it is, any number of steps leave as it is. -/
theorem State.after_of_step_self {s : State} (h : step s = .next s) (n : Nat) : State.after n s = .next s := by
  induction n with
  | zero => rfl
  | succ n ih => rw [State.after, h]; exact ih

/-- Settles O47: the level is a clause of the invariant, and with no frame pending the serializer makes no move. -/
theorem lineStaysLowBetweenFrames : Obligations.LineStaysLowBetweenFrames := by
  intro s n hinv hhost hr hw hpend
  have hstill : s.serializerTick = s := State.serializerTick_still hw (by rw [hpend, Bool.false_and])
  refine ⟨hinv.low hr hw hpend, State.after_of_step_self ?_ n⟩
  rw [step_of_no_move hinv.atRest hhost, hstill]

/-! The frame on the wire (R107, R238). -/

/-- A whole emission: one step per remaining bit puts the bits on the wire in order, then the stop, and leaves nothing. -/
theorem State.Emitting.after {s : State} (h : s.Emitting) {b : Bool} {rest : BitStream}
    (hrem : s.ser.remaining s.cfg.packOrder = b :: rest) :
    ∃ u, State.after (b :: rest).length s = .next u ∧
      u.ser.wire = s.ser.wire ++ (b :: rest).map WireEvent.bit ++ [.low] ∧ u.ser.framePending = false ∧ u.ser.fifo = [] := by
  induction rest generalizing s b with
  | nil =>
    obtain ⟨hwire, hrest, hp⟩ := (s.ser.emitBit_remaining s.cfg.packOrder).1 b [] hrem
    refine ⟨s.wireEmit, ?_, ?_, hp.trans (Bool.and_false _), ((Serializer.remaining_eq_nil_iff _ _).mp hrest).1⟩
    · rw [List.length_singleton, State.after, h.step]; rfl
    · rw [State.wireEmit_ser, hwire]; simp
  | cons c rest ih =>
    obtain ⟨hwire, hrest, hp⟩ := (s.ser.emitBit_remaining s.cfg.packOrder).1 b (c :: rest) hrem
    have hnext := h.wireEmit (hp.trans (by rw [h.pending]; rfl))
    obtain ⟨u, hafter, huwire, hdone⟩ := ih hnext hrest
    refine ⟨u, ?_, ?_, hdone⟩
    · rw [List.length_cons, State.after, h.step]; exact hafter
    · rw [huwire, State.wireEmit_ser, hwire]; simp

/-- Positions repeat from word to word (30_encoding.md R105). -/
theorem bitPos_mod (o : PackOrder) (k : Nat) : bitPos o (k % 32) = bitPos o k := by
  have hmod : Fin.ofNat 32 (k % 32) = Fin.ofNat 32 k := Fin.ext (Nat.mod_mod k 32)
  cases o <;> rw [bitPos, bitPos, hmod]

/-- The reversed words shift out in the order of the stream offsets (R106, R107). -/
theorem getElem?_shiftOrder_rev32 (o : PackOrder) (words : List Word) (k : Nat) :
    ((words.map rev32).flatMap (shiftOrder o))[k]? = words[k / 32]?.map fun v => bitGet v (bitPos o k) := by
  rw [getElem?_flatMap_const (shiftOrder o) (by decide : 0 < 32) (shiftOrder_length o), List.getElem?_map]
  cases words[k / 32]? with
  | none => rfl
  | some v =>
    exact (reversedWordsShiftOutInStreamOrder o v (k % 32) (Nat.mod_lt _ (by decide))).trans (by rw [bitPos_mod]; rfl)

/-- The reversed words of the encoded buffer shift out as the frame (43_encoder.md R207, 30_encoding.md R107). -/
theorem shiftOrder_encodedWave {c : Config} {led : List Color} (hled : led.length = c.numLeds)
    (hfits : codewordBits * c.numLeds ≤ c.waveBits) :
    ((encodedWave c led).map rev32).flatMap (shiftOrder c.packOrder) = frame c led := by
  have hlen : (encodedWave c led).length = c.waveWords := encodedWave_length c led
  have hframe : (frame c led).length = c.waveBits := frame_length (hled ▸ hfits)
  apply List.ext_getElem?
  intro k
  rw [getElem?_shiftOrder_rev32]
  by_cases hk : k < c.waveBits
  · have hword : k / 32 < (encodedWave c led).length := by rw [hlen]; rw [Config.waveBits] at hk; omega
    have hbit := streamBit_encodedWave hled hfits k
    rw [streamBit, wordIndex, List.getD_eq_getElem _ _ hword, List.getD_eq_getElem _ _ (hframe ▸ hk)] at hbit
    rw [List.getElem?_eq_getElem hword, List.getElem?_eq_getElem (hframe ▸ hk), ← hbit]
    rfl
  · have hword : (encodedWave c led).length ≤ k / 32 := by rw [hlen]; rw [Config.waveBits] at hk; omega
    rw [List.getElem?_eq_none hword, List.getElem?_eq_none (by omega)]
    rfl

/-- A buffer has at least one word (70_reset_and_hazards.md R295(1)). -/
theorem waveBits_pos_of_elaborates {c : Config} (h : elaborates c = true) : 0 < c.waveBits := by
  simp only [elaborates, capacityOk, Bool.and_eq_true, decide_eq_true_eq] at h
  obtain ⟨⟨⟨⟨⟨⟨⟨⟨hwords, -⟩, -⟩, -⟩, -⟩, -⟩, -⟩, -⟩, -⟩ := h
  rw [Config.waveBits]
  omega

/-- CTL_RUN enables the channel and SHOW leaves the clock as INIT_HW set it (R236, 41_init_hw.md R156). -/
theorem State.Sized.channelRuns_runShowFrame {s : State} (h : s.Sized) (hm : soundMap s.cfg = true)
    (hclock : s.per.cmCtl = cmCtlWritten s.cfg (cmRunWord s.cfg)) : s.runShowFrame.channelRuns = true := by
  have hon : bitGet (ctlRun s.cfg) s.cfg.layout.pwen1 = true := by simp [bitGet_ctlRun]
  rw [State.channelRuns, runShowFrame_cfg, (runShowFrame_target h hm).1, hclock, hon, clockRuns_cmCtlWritten hm,
    clockRuns_cmRunWord hm]
  rfl

/-- SHOW keeps the bring-up configuration, with CTL_RUN in CTL (R236). -/
theorem State.Sized.configured_runShowFrame {s : State} (h : s.Sized) (hm : soundMap s.cfg = true) (hc : s.Configured)
    (hd : s.initDone = true) : s.runShowFrame.Configured := by
  intro _
  obtain ⟨hmapped, hrng, hdmac, hdiv, hclock, -, hpin⟩ := hc hd
  obtain ⟨hper, -⟩ := runShowFrame_target h hm
  have hshown : s.runShowFrame.mapped = s.mapped := by rw [runShowFrame_eq h]
  have hrouted : s.runShowFrame.pinRouted = s.pinRouted := by rw [State.pinRouted, runShowFrame_cfg, hper]; rfl
  rw [hshown, hrouted, hper, runShowFrame_cfg]
  exact ⟨hmapped, hrng, hdmac, hdiv, hclock, .inr rfl, hpin⟩

/-- A SHOW after INIT_HW starts a defined emission, with 32 bits a word (R236, R238). -/
theorem State.Sized.emitting_runShowFrame {s : State} (h : s.Sized) (hhost : s.host = []) (hw : s.wireDefined = true)
    (hc : s.Configured) (hr : s.cfg.rangeBits = 32#32) : s.runShowFrame.Emitting := by
  have hm := State.soundMap_of_wireDefined hw
  have hd : s.initDone = true := ((Bool.and_eq_true _ _).mp hw).2
  obtain ⟨-, -, -, -, hclock, -, -⟩ := hc hd
  have hhostShown : s.runShowFrame.host = s.host := by rw [runShowFrame_eq h]
  have hdone : s.runShowFrame.initDone = s.initDone := by rw [runShowFrame_eq h]
  have hreference : s.runShowFrame.reference = s.reference := by rw [runShowFrame_eq h]
  have hdefined : s.runShowFrame.wireDefined = s.wireDefined := by
    rw [State.wireDefined, hreference, runShowFrame_cfg, hdone, State.wireDefined]
  have hrun := h.channelRuns_runShowFrame hm hclock
  have hcfg := runShowFrame_cfg s
  exact {
    idle := h.seq_runShowFrame
    noMove := hhostShown.trans hhost
    defined := hdefined.trans hw
    pending := runShowFrame_framePending s
    runs := hrun
    mode := State.serializerMode_of_configured (by rw [hcfg]; exact hm) (by rw [hcfg]; exact hr) (hdone.trans hd)
      (h.configured_runShowFrame hm hc hd) hrun }

/-- Settles O48: SHOW starts an emission whose remaining bits are the frame, WAVE_BITS of them, at least one. -/
theorem wireCarriesExactlyTheFrame : Obligations.WireCarriesExactlyTheFrame := by
  intro s hq hhost hsized hm hw hc hr hpend
  have hfits := Sized_capacity hsized
  have hser := hsized.ser_runShowFrame hm hw hpend
  have hframe : (frame s.cfg s.led).length = s.cfg.waveBits := frame_length (hsized.1 ▸ hfits)
  have hrem : s.runShowFrame.ser.remaining s.runShowFrame.cfg.packOrder = frame s.cfg s.led := by
    rw [hser, runShowFrame_cfg, Serializer.remaining, shiftOrder_encodedWave hsized.1 hfits, List.nil_append]
  obtain ⟨b, rest, hbits⟩ := List.exists_cons_of_length_pos (hframe ▸ waveBits_pos_of_elaborates hsized.2.2)
  obtain ⟨u, hafter, hwire, hdone⟩ := (hsized.emitting_runShowFrame hhost hw hc hr).after (hrem.trans hbits)
  rw [← hbits, hframe] at hafter
  rw [← hbits, hser] at hwire
  exact ⟨s.runShowFrame, u, exec_of_idle hq .showFrame, hafter, hwire, hdone⟩

end Sys2Proof.Machine
end

section
/-! The faults and errors (60_exceptions.md R261 to R278): ILLEGAL_COMMAND, FATAL_ENV, FRAME_OVERLAP, and the channel that
emits nothing. -/

namespace Sys2Proof

/-! The illegal words, by their fields (R264). -/

/-- A word is its OP and the 56 bits below it (30_encoding.md R90). -/
theorem CmdWord.eq_append_iff (w : CmdWord) (op : BitVec 8) (low : BitVec 56) :
    w = op ++ low ↔ w.op = op ∧ w.extractLsb' 0 56 = low := by
  have hsplit : w.op ++ w.extractLsb' 0 56 = w :=
    (BitVec.extractLsb'_append_extractLsb'_eq_extractLsb' (by rfl)).trans BitVec.extractLsb'_eq_self
  constructor
  · rintro rfl
    exact ⟨BitVec.extractLsb'_append_eq_left, BitVec.extractLsb'_append_eq_right⟩
  · rintro ⟨rfl, rfl⟩
    exact hsplit.symm

/-- The encoder leaves CMD[39:24] at 0 (30_encoding.md R94). -/
theorem cmdWord_reserved (op : BitVec 8) (idx : BitVec 16) (r g b : Byte) :
    (cmdWord op idx r g b).extractLsb' 24 16 = 0#16 := by
  rw [cmdWord]
  iterate 3 rw [BitVec.extractLsb'_append_eq_of_le (by decide)]
  exact BitVec.extractLsb'_append_eq_right

/-- SET_PIXEL reserves CMD[39:24] and no other bit (30_encoding.md R92 to R94). -/
theorem CmdWord.exists_eq_encode_setPixel_iff (w : CmdWord) :
    (∃ idx r g b, w = encode (.setPixel idx r g b)) ↔ w.op = 0x03#8 ∧ w.extractLsb' 24 16 = 0#16 := by
  constructor
  · rintro ⟨idx, r, g, b, rfl⟩
    exact ⟨(cmdWord_fields 0x03#8 idx r g b).1, cmdWord_reserved 0x03#8 idx r g b⟩
  · rintro ⟨hop, hrsv⟩
    refine ⟨w.index, w.red, w.green, w.blue, ?_⟩
    rw [encode, cmdWord, ← hop, ← hrsv, w.append_fields]

/-- The legal words, by OP and reserved bits (30_encoding.md R91, R94). -/
theorem exists_decode_iff_fields (w : CmdWord) :
    (∃ i, decode w = .ok i) ↔
      ((w.op = 0x01#8 ∨ w.op = 0x02#8 ∨ w.op = 0x04#8) ∧ w.extractLsb' 0 56 = 0#56) ∨
        (w.op = 0x03#8 ∧ w.extractLsb' 24 16 = 0#16) := by
  have hinit : encode .initHw = 0x01#8 ++ 0#56 := rfl
  have hclear : encode .clear = 0x02#8 ++ 0#56 := rfl
  have hshow : encode .showFrame = 0x04#8 ++ 0#56 := rfl
  rw [← w.exists_eq_encode_setPixel_iff]
  simp only [decode_eq_ok_iff, or_and_right, ← w.eq_append_iff, ← hinit, ← hclear, ← hshow]
  constructor
  · rintro ⟨i, rfl⟩
    cases i with
    | initHw => exact .inl (.inl rfl)
    | clear => exact .inl (.inr (.inl rfl))
    | setPixel idx r g b => exact .inr ⟨idx, r, g, b, rfl⟩
    | showFrame => exact .inl (.inr (.inr rfl))
  · rintro ((h | h | h) | ⟨idx, r, g, b, h⟩) <;> exact ⟨_, h⟩

theorem exists_decode_error_iff (w : CmdWord) : (∃ e, decode w = .error e) ↔ ¬ ∃ i, decode w = .ok i := by
  cases decode w <;> simp

/-- OP is that of a command or reserved (30_encoding.md R91). -/
theorem opcode_cases (op : BitVec 8) :
    op = 0x00#8 ∨ op = 0x01#8 ∨ op = 0x02#8 ∨ op = 0x03#8 ∨ op = 0x04#8 ∨ 0x05#8 ≤ op := by bv_omega

end Sys2Proof

namespace Sys2Proof.Machine

/-- Settles O5: the words that are not legal, sorted by OP; and the step on one of them. -/
theorem illegalCommandEffect : Obligations.IllegalCommandEffect := by
  refine ⟨fun w => ?words, fun s w rest e hq hh hd => step_of_fetch_illegal (State.fetch_offer hq hh) hd⟩
  case words =>
    rw [exists_decode_error_iff, exists_decode_iff_fields]
    obtain hop | hop | hop | hop | hop | hop := opcode_cases w.op
    case inr.inr.inr.inr.inr =>
      have hnone : w.op ≠ 0x01#8 ∧ w.op ≠ 0x02#8 ∧ w.op ≠ 0x03#8 ∧ w.op ≠ 0x04#8 := by bv_omega
      simp [hop, hnone]
    all_goals simp [hop]

/-- Settles O10: every step is one of the moves. -/
theorem everyStepAnswersANextState : Obligations.EveryStepAnswersANextState := by
  intro s
  obtain ⟨t, ht, -⟩ := step_move s
  exact ⟨t, ht⟩

/-- Settles O14: the failed INIT_HW as one record update; in FATAL no command is accepted and the step is a bit period. -/
theorem fatalEnvEntryAndEffect : Obligations.FatalEnvEntryAndEffect := by
  refine ⟨fun s hq hmapped hok => ?entry, fun s hf => ?stays⟩
  case entry =>
    rw [exec_initHw_of_idle hq, runInitHw_fatal hmapped hok]
    rfl
  case stays =>
    have hready : s.cmdReady = false := by rw [State.cmdReady, hf]; rfl
    exact ⟨fun i => commandNotAcceptedUnlessReady i s hready, hready, _,
      step_atRest (.inr hf) fun _ _ _ => hf, s.bitPeriod_eq⟩

/-! FRAME_OVERLAP (R267, 70_reset_and_hazards.md R301). -/

/-- INIT_HW records the overlap and no other fault, whether it completes or ends in FATAL. -/
theorem State.faults_runInitHw (s : State) : s.runInitHw.faults = overlapFaults s := by
  by_cases h : s.mapped = true ∨ s.mapOk = true
  · rw [runInitHw_eq h]
  · simp only [not_or, Bool.not_eq_true] at h
    rw [runInitHw_fatal h.1 h.2]

theorem overlapFaults_waveOverrun (s : State) : (overlapFaults s).waveOverrun = s.faults.waveOverrun := by
  rw [overlapFaults]
  split <;> rfl

theorem overlapFaults_frameOverlap (s : State) :
    (overlapFaults s).frameOverlap = (s.faults.frameOverlap || s.ser.framePending) := by
  rw [overlapFaults]
  split
  · rename_i hpend
    rw [hpend, Bool.or_true]
    rfl
  · rename_i hpend
    rw [Bool.eq_false_iff.mpr hpend, Bool.or_false]

theorem State.faults_runSetPixel (s : State) (idx : BitVec 16) (c : Color) : (s.runSetPixel idx c).faults = s.faults := by
  rw [State.runSetPixel]
  split <;> rfl

/-- Settles O43, by the command: INIT_HW and SHOW leave the overlap faults, CLEAR and SET_PIXEL the faults as they were. -/
theorem frameOverlapIsRecorded : Obligations.FrameOverlapIsRecorded := by
  intro s i hq hsized
  refine ⟨_, exec_of_idle hq i, ?_⟩
  cases i with
  | initHw =>
    rw [runCommand_initHw, s.faults_runInitHw, overlapFaults_waveOverrun, overlapFaults_frameOverlap]
    simp
  | clear => simp [runCommand, State.runClear]
  | setPixel idx r g b => simp [runCommand, State.faults_runSetPixel]
  | showFrame =>
    rw [runCommand_showFrame, runShowFrame_eq hsized, overlapFaults_waveOverrun, overlapFaults_frameOverlap]
    simp

/-! The channel that emits nothing (R278(c)). -/

/-- Settles O46: the serializer makes no move, and PWEN1 = 0 holds the line low. -/
theorem disabledChannelEmitsNothing : Obligations.DisabledChannelEmitsNothing := by
  intro s hrest hhost hw hoff
  refine ⟨?_, fun hpwen => ?_⟩
  · rw [step_of_no_move hrest hhost, State.serializerTick_still hw hoff]
  · rw [State.outputLevel, hpwen, Bool.false_and]

end Sys2Proof.Machine
end

section
/-! The clock writes and the delays on the bus, and elaboration (70_reset_and_hazards.md R295, R304, R306). -/

namespace Sys2Proof.Machine

/-! The password in the clock manager's writes (R304, 40_register_access.md R134). -/

/-- On a sound map two registers are two addresses (20_memory.md R72). -/
theorem regAddr_injective {c : Config} (hm : soundMap c = true) : Function.Injective (regAddr c) := by
  intro r q h
  have hdecode := decodeAddr_regAddr hm r
  rw [h, decodeAddr_regAddr hm q] at hdecode
  exact (Option.some.inj hdecode).symm

/-- INIT_HW writes the pin's function-select register, PWM registers, and else words that carry the password (R150). -/
theorem initHwTrace_write_cases {c : Config} {v a w : Word} (h : BusEvent.wr a w ∈ initHwTrace c v) :
    a = fselAddr c c.pin ∨ (∃ r : Reg, r.window = .pwm ∧ a = regAddr c r) ∨ passwordOk c w = true := by
  simp only [initHwTrace, List.mem_cons, List.not_mem_nil, or_false, false_or, reduceCtorEq, BusEvent.wr.injEq] at h
  rcases h with hfsel | ⟨-, rfl⟩ | hdmac | ⟨-, rfl⟩ | ⟨-, rfl⟩ | hzero | hrng1 | hsta | hcfg
  · exact .inl hfsel.1
  · exact .inr (.inr (passwordOk_cmWord c _))
  · exact .inr (.inl ⟨.pwmDmac, rfl, hdmac.1⟩)
  · exact .inr (.inr (passwordOk_cmWord c _))
  · exact .inr (.inr (passwordOk_cmWord c _))
  · exact .inr (.inl ⟨.pwmCtl, rfl, hzero.1⟩)
  · exact .inr (.inl ⟨.pwmRng1, rfl, hrng1.1⟩)
  · exact .inr (.inl ⟨.pwmSta, rfl, hsta.1⟩)
  · exact .inr (.inl ⟨.pwmCtl, rfl, hcfg.1⟩)

/-- Settles O26: a write without the password goes to the function-select register or to a PWM register, and neither stands at
a clock-manager address. -/
theorem clockWritesCarryThePassword : Obligations.ClockWritesCarryThePassword := by
  intro c v a w hm hctl hdiv hmem haddr
  rcases initHwTrace_write_cases hmem with rfl | ⟨r, hwindow, rfl⟩ | hpw
  · exact (haddr.elim hctl hdiv).elim
  · rcases haddr with heq | heq <;> cases regAddr_injective hm heq <;> cases hwindow
  · exact beq_iff_eq.mp hpw

/-! The delays (R306). -/

theorem delaySum_append (es fs : List BusEvent) : delaySum (es ++ fs) = delaySum es + delaySum fs := by
  induction es with
  | nil => rw [List.nil_append, delaySum, Nat.zero_add]
  | cons e es ih => cases e <;> simp only [List.cons_append, delaySum, ih, Nat.add_assoc]

/-- One delay a word: the pushes of SHOW step 5 (44_show.md R235). -/
theorem delaySum_pushes (a : Word) (f : Word → Word) (t : Nat) (words : List Word) :
    delaySum (words.flatMap fun v => [.wr a (f v), .dly t]) = words.length * t := by
  induction words with
  | nil => rw [List.flatMap_nil, delaySum, List.length_nil, Nat.zero_mul]
  | cons v words ih =>
    rw [List.flatMap_cons, delaySum_append, ih, List.length_cons, Nat.succ_mul, Nat.add_comm]
    rfl

theorem delaySum_showFrameTrace (c : Config) (wave : List Word) :
    delaySum (showFrameTrace c wave) = 3 * c.tSettle + wave.length * c.tFifo := by
  rw [showFrameTrace, delaySum_append, delaySum_append, delaySum_pushes]
  simp only [delaySum]
  omega

theorem delaySum_initHwTrace (c : Config) (v : Word) : delaySum (initHwTrace c v) = 8 * c.tSettle + c.tClkStop := by
  simp only [initHwTrace, delaySum]
  omega

/-- Settles O44: each command appends its list to the trace. -/
theorem delayLowerBounds : Obligations.DelayLowerBounds := by
  intro s hq hsized
  refine ⟨⟨_, exec_of_idle hq .showFrame, ?frame⟩, fun hmap => ⟨_, exec_initHw_of_idle hq, ?configure⟩⟩
  case frame =>
    rw [runCommand_showFrame, runShowFrame_eq hsized, delaySum_append, delaySum_showFrameTrace, encodedWave_length]
  case configure => rw [runInitHw_eq hmap, delaySum_append, delaySum_initHwTrace]

/-! Elaboration (R290, R295). -/

/-- One check of the list refuses nothing exactly when it holds and the rest of the list refuses nothing. -/
theorem check_eq_none_iff (ok : Bool) (e : ElabError) (rest : Option ElabError) :
    (if !ok then some e else rest) = none ↔ ok = true ∧ rest = none := by
  cases ok <;> simp

/-- A configuration is refused exactly when one of the checks fails (R295). -/
theorem elabError_eq_none_iff (c : Config) : elabError c = none ↔ elaborates c = true := by
  simp only [elabError, check_eq_none_iff, elaborates, Bool.and_eq_true, and_assoc, and_true]

/-- Elaboration gives the constructed state, and gives it when the configuration passes (R290). -/
theorem elaborate_eq_ok_iff (c : Config) (per : Peripherals) (fifo : List Word) (sh : BitStream) (r m : Bool) (s : State) :
    elaborate c per fifo sh r m = .ok s ↔ s = State.construct c per fifo sh r m ∧ elaborates c = true := by
  rw [← elabError_eq_none_iff, elaborate]
  cases elabError c with
  | none => simp [eq_comm]
  | some e => simp

theorem fixedOk_iff (c : Config) :
    fixedOk c = true ↔ c.bitsPerLed = 72 ∧ c.windowBytes = 4096 ∧ c.indexWidth = 16 := by
  simp only [fixedOk, Bool.and_eq_true, decide_eq_true_eq, and_assoc]
  exact Iff.rfl

theorem capacityOk_iff {c : Config} (hbits : c.bitsPerLed = 72) :
    capacityOk c = true ↔ 1 ≤ c.waveWords ∧ 72 * c.numLeds ≤ 32 * c.waveWords := by
  simp only [capacityOk, hbits, Config.waveBits, Bool.and_eq_true, decide_eq_true_eq]

theorem divisorOk_iff (c : Config) : divisorOk c = true ↔ 1 ≤ c.fBase / c.fBit ∧ c.fBase / c.fBit ≤ 4095 := by
  simp only [divisorOk, Bool.and_eq_true, decide_eq_true_eq]
  exact Iff.rfl

theorem windowsOk_iff {c : Config} (hbytes : c.windowBytes = 4096) :
    windowsOk c = true ↔ ∀ off ∈ [c.gpioOff, c.pwmOff, c.clkOff, c.dmaOff],
      (c.periBase + off) % 4096 = 0 ∧ c.periBase + off + 4095 ≤ 0xFFFFFFFF := by
  simp only [windowsOk, windowFits, windowBase, hbytes, Bool.and_eq_true, decide_eq_true_eq, and_assoc, List.forall_mem_cons,
    List.not_mem_nil, false_imp_iff, implies_true, and_true]

theorem delaysOk_iff (c : Config) : delaysOk c = true ↔ 0 < c.tSettle ∧ c.tSettle ≤ c.tClkStop ∧ 0 < c.tFifo := by
  simp only [delaysOk, Bool.and_eq_true, decide_eq_true_eq, and_assoc]

theorem offsetsOk_iff {c : Config} (hbytes : c.windowBytes = 4096) :
    offsetsOk c = true ↔ ∀ reg : Reg, regOffset c reg % 4 = 0 ∧ regOffset c reg < 4096 := by
  simp only [offsetsOk, hbytes, List.all_eq_true, Reg.mem_all, forall_const, Bool.and_eq_true, decide_eq_true_eq]

/-- Settles O52, check by check: the capacity, the windows and the offsets read parameters that the last check fixes. -/
theorem elaborationChecks : Obligations.ElaborationChecks := by
  intro c per fifo sh r m s
  rw [elaborate_eq_ok_iff, ← fixedOk_iff]
  refine and_congr_right fun _ => ?_
  by_cases hfixed : fixedOk c = true
  · obtain ⟨hbits, hbytes, -⟩ := (fixedOk_iff c).mp hfixed
    simp only [elaborates, Bool.and_eq_true, capacityOk_iff hbits, fifoOk, divisorOk_iff, pinOk, windowsOk_iff hbytes,
      delaysOk_iff, offsetsOk_iff hbytes, decide_eq_true_eq, and_assoc]
  · simp only [elaborates, Bool.and_eq_true, hfixed, Bool.false_eq_true, and_false]

end Sys2Proof.Machine
end
